-- ==== Sys2Proof/Word.lean ====
section
/-!
DEFINITION. The words software can see, and nothing else.

The host port carries 32-bit words (rule R80), a word has four byte lanes (rule R86), and an
address is a 16-bit byte offset from the engine's base (rule R80). Operands are NOT bit vectors:
the spec computes on unsigned integers of a width that is a parameter (rules R5, R11), so an
operand is a `Nat` below `2^W`; see `Machine/State.lean`.
-/

namespace Sys2Proof

/-- A 32-bit bus word, control register or command word (rules R34, R80, R110). -/
abbrev Word := BitVec 32

/-- One byte lane of a bus word (rule R86). -/
abbrev Byte := BitVec 8

/-- A byte offset from the engine's base address, `addr[15:0]` (rule R80). -/
abbrev Addr := BitVec 16

end Sys2Proof
end

