-- ==== Sys2Proof/Config.lean ====
section
/-!
DEFINITION. What an implementation fixes: the operand width, and the constants of the spec.

The width `W` is the one parameter the spec leaves open (rule R5, decision D2). It is a field of
`State` (`State.params`), so that a claim ranges over every legal width; `State.reset` takes the
reference configuration. No constant of this file is a free value: the spec leaves no result of a
command open.
-/

namespace Sys2Proof

/-- The parameters of one engine: `NW`, the number of 32-bit words per operand (rule R5). -/
structure Params where
  /-- `NW = W / 32`. -/
  nw : Nat
  deriving DecidableEq, Repr

/-- The operand width `W` in bits, a multiple of 32 (rule R5). -/
def Params.width (p : Params) : Nat := 32 * p.nw

/-- The legal widths: `W` is a multiple of 32 and `64 ≤ W ≤ 4096` (rule R5). -/
def Params.legal (p : Params) : Bool := decide (64 ≤ p.width) && decide (p.width ≤ 4096)

/-- The reference configuration, `W = 1024` (rule R5). -/
def Params.reference : Params := ⟨32⟩

/-- `NREG`, the number of operand registers (rules R6, R30). -/
abbrev nreg : Nat := 8

/-- The constant of the `ID` register: "RSA" and revision 7 (rule R41). -/
def idConstant : Word := 0x52534107#32

/-- The reset value of `MR_ROUNDS.ROUNDS`, 40 (rule R44). -/
def roundsAtReset : Byte := 40#8

end Sys2Proof
end

