-- ==== Sys2Proof/Syntax.lean ====
section
/-!
DEFINITION. The ten commands of the opcode map (rule R115), one constructor per row of
spec/opcode_table.json.
-/

namespace Sys2Proof

/-- An operand register number, `r0` to `r7`: an unsigned 3-bit field (rules R30, R111); `NREG = 8`
(rule R6). -/
abbrev Reg := Fin 8

/-- A command with its operands, in the operand order of rule R115. -/
inductive Instr
  /-- `NOP` (rule R250). -/
  | nop
  /-- `MOV rd, ra` (rule R251). -/
  | mov (rd ra : Reg)
  /-- `LDI rd, imm21`: an unsigned immediate (rules R113, R252). -/
  | ldi (rd : Reg) (imm21 : Nat)
  /-- `CMP ra, rb` (rule R253). -/
  | cmp (ra rb : Reg)
  /-- `MONTMUL rd, ra, rb, rn` (rule R141). -/
  | montmul (rd ra rb rn : Reg)
  /-- `MODEXP rd, ra, rb, rn` (rule R160). -/
  | modexp (rd ra rb rn : Reg)
  /-- `GCD rd, ra, rb` (rule R180). -/
  | gcd (rd ra rb : Reg)
  /-- `MODINV rd, ra, rb` (rule R185). -/
  | modinv (rd ra rb : Reg)
  /-- `MRTEST rd, ra` (rule R215). -/
  | mrtest (rd ra : Reg)
  /-- `MRROUND ra, rb` (rule R214). -/
  | mrround (ra rb : Reg)
  deriving DecidableEq, Repr

end Sys2Proof
end

