-- ==== Sys2Proof/WellFormed.lean ====
section
/-!
DEFINITION. Which `Instr` terms are commands. A register field is a `Fin 8`, so every register
number is legal by its type; the one check left is the range of LDI's immediate (rule R113).
-/

namespace Sys2Proof

/-- A term that stands for a command word: LDI's immediate fits its 21-bit field (rule R113);
every other command is well formed as it stands. -/
def Instr.wellFormed : Instr → Bool
  | .nop => true
  | .mov _ _ => true
  | .ldi _ imm21 => decide (imm21 < 2 ^ 21)
  | .cmp _ _ => true
  | .montmul _ _ _ _ => true
  | .modexp _ _ _ _ => true
  | .gcd _ _ _ => true
  | .modinv _ _ _ => true
  | .mrtest _ _ => true
  | .mrround _ _ => true

end Sys2Proof
end

