-- ==== Sys2Proof/Decode.lean ====
section
/-!
DEFINITION. Decoding of a command word, total on all words (rules R110 to R117, R122), and after
it the encoder, written from the same tables.

A word spells a command iff `(v AND mask) = match` for that command's row (rule R112). Every word
that matches no row is illegal (rule R116) and is rejected by name here; the engine still accepts
it and completes it with `ILLEGAL_CMD` (`Machine/Turn.lean`).
-/

namespace Sys2Proof

/-- `v[hi:lo]`, the field of `v` from bit `hi` down to bit `lo`, as an unsigned integer (rule R10). -/
def bits (v : Word) (hi lo : Nat) : Nat := v.toNat / 2 ^ lo % 2 ^ (hi + 1 - lo)

theorem bits_lt (v : Word) (hi lo : Nat) : bits v hi lo < 2 ^ (hi + 1 - lo) :=
  Nat.mod_lt _ (Nat.two_pow_pos _)

theorem bits_three_lt (v : Word) (lo : Nat) : bits v (lo + 2) lo < 8 := by
  have h := bits_lt v (lo + 2) lo
  rwa [show lo + 2 + 1 - lo = 3 by omega] at h

/-- The 3-bit register field whose lowest bit is `lo` (rule R111). -/
def regField (v : Word) (lo : Nat) : Reg := ⟨bits v (lo + 2) lo, bits_three_lt v lo⟩

/-- The field `OPC`, bits [7:0] (rules R110, R111). -/
def opcField (v : Word) : Nat := bits v 7 0
/-- The field `RD`, bits [10:8] (rule R111). -/
def rdField (v : Word) : Reg := regField v 8
/-- The field `RA`, bits [13:11] (rule R111). -/
def raField (v : Word) : Reg := regField v 11
/-- The field `RB`, bits [16:14] (rule R111). -/
def rbField (v : Word) : Reg := regField v 14
/-- The field `RN`, bits [19:17] (rule R111). -/
def rnField (v : Word) : Reg := regField v 17
/-- The field `IMM21`, bits [31:11] (rule R113). -/
def immField (v : Word) : Nat := bits v 31 11

/-- The mnemonics of the opcode map (rule R115). -/
inductive Op
  | nop | mov | ldi | cmp | montmul | modexp | gcd | modinv | mrtest | mrround
  deriving DecidableEq, Repr

/-- One row of the opcode map: a word spells `op` iff `(v AND mask) = pattern` (rules R112, R115). -/
structure Row where
  op : Op
  mask : Word
  pattern : Word
  deriving DecidableEq, Repr

/-- The word spells the row's command (rule R112). -/
def Row.spells (r : Row) (v : Word) : Bool := v &&& r.mask == r.pattern

/-- The complete opcode map, in the order of rule R115. -/
def opcodeMap : List Row :=
  [⟨.nop, 0xFFFFFFFF#32, 0x00000000#32⟩,
   ⟨.mov, 0xFFFFC0FF#32, 0x00000001#32⟩,
   ⟨.ldi, 0x000000FF#32, 0x00000002#32⟩,
   ⟨.cmp, 0xFFFE07FF#32, 0x00000003#32⟩,
   ⟨.montmul, 0xFFF000FF#32, 0x00000008#32⟩,
   ⟨.modexp, 0xFFF000FF#32, 0x00000009#32⟩,
   ⟨.gcd, 0xFFFE00FF#32, 0x00000010#32⟩,
   ⟨.modinv, 0xFFFE00FF#32, 0x00000011#32⟩,
   ⟨.mrtest, 0xFFFFC0FF#32, 0x00000018#32⟩,
   ⟨.mrround, 0xFFFE07FF#32, 0x00000019#32⟩]

/-- Takes a command's operands out of the word, once (rules R111, R113, R122). -/
def assemble (op : Op) (v : Word) : Instr :=
  match op with
  | .nop => .nop
  | .mov => .mov (rdField v) (raField v)
  | .ldi => .ldi (rdField v) (immField v)
  | .cmp => .cmp (raField v) (rbField v)
  | .montmul => .montmul (rdField v) (raField v) (rbField v) (rnField v)
  | .modexp => .modexp (rdField v) (raField v) (rbField v) (rnField v)
  | .gcd => .gcd (rdField v) (raField v) (rbField v)
  | .modinv => .modinv (rdField v) (raField v) (rbField v)
  | .mrtest => .mrtest (rdField v) (raField v)
  | .mrround => .mrround (raField v) (rbField v)

/-- Why a word, or a list of byte lanes, is no command. -/
inductive DecodeError
  /-- Rule R116 (a): the opcode stands in no row of the map. -/
  | unassignedOpcode (opc : Nat)
  /-- Rule R116 (b): an assigned opcode with a nonzero bit in a field its pattern fixes to 0. -/
  | nonzeroFixedField (opc : Nat)
  /-- A command is exactly one 32-bit word, four byte lanes (rule R110). -/
  | notOneWord (lanes : Nat)
  deriving DecidableEq, Repr

/-- The opcode stands in some row of the map; every mask covers bits [7:0] (rule R122). -/
def opcodeAssigned (opc : Nat) : Bool := opcodeMap.any fun r => opcField r.pattern == opc

/-- Decoding of a command word, total on all 32-bit words (rules R116, R122). -/
def decode (v : Word) : Except DecodeError Instr :=
  match opcodeMap.find? (fun r => r.spells v) with
  | some r => .ok (assemble r.op v)
  | none =>
    if opcodeAssigned (opcField v) then .error (.nonzeroFixedField (opcField v))
    else .error (.unassignedOpcode (opcField v))

/-- The command a word spells, if any: what the engine holds as the decoded running command
(rules R48, R122). -/
def decoded (v : Word) : Option Instr :=
  match decode v with
  | .ok i => some i
  | .error _ => none

/-- The word of four byte lanes, lane 0 first: lane `k` carries bits `[8k+7 : 8k]` (rule R86). -/
def wordOfLanes (b0 b1 b2 b3 : Byte) : Word :=
  BitVec.ofNat 32 (b0.toNat + 2 ^ 8 * b1.toNat + 2 ^ 16 * b2.toNat + 2 ^ 24 * b3.toNat)

/-- The byte lanes of a word, lane 0 first (rule R86). -/
def lanesOfWord (v : Word) : List Byte :=
  [BitVec.ofNat 8 (bits v 7 0), BitVec.ofNat 8 (bits v 15 8), BitVec.ofNat 8 (bits v 23 16),
   BitVec.ofNat 8 (bits v 31 24)]

/-- Decoding of a list of byte lanes, total on all lists (rules R86, R110). -/
def decodeLanes : List Byte → Except DecodeError Instr
  | [b0, b1, b2, b3] => decode (wordOfLanes b0 b1 b2 b3)
  | bs => .error (.notOneWord bs.length)

/-- The command of a row of spec/opcode_table.json whose `nbits` low bits are `w`; the bits above
them are 0. A command is one 32-bit word (rule R110). -/
def decodeTableWord (nbits w : Nat) : Option Instr :=
  match decodeLanes (lanesOfWord (BitVec.ofNat 32 (w % 2 ^ nbits))) with
  | .ok i => some i
  | .error _ => none

/-- A format-R word from its fields (rule R111). -/
def packR (opc : Nat) (rd ra rb rn : Nat) : Word :=
  BitVec.ofNat 32 (opc + 2 ^ 8 * rd + 2 ^ 11 * ra + 2 ^ 14 * rb + 2 ^ 17 * rn)

/-- A format-I word from its fields (rule R113). -/
def packI (opc : Nat) (rd imm21 : Nat) : Word :=
  BitVec.ofNat 32 (opc + 2 ^ 8 * rd + 2 ^ 11 * imm21)

/-- The word of a command, `enc(c)` (rule R121): the fields a command does not use are 0
(rules R111, R115). -/
def encode : Instr → Word
  | .nop => packR 0x00 0 0 0 0
  | .mov rd ra => packR 0x01 rd ra 0 0
  | .ldi rd imm21 => packI 0x02 rd imm21
  | .cmp ra rb => packR 0x03 0 ra rb 0
  | .montmul rd ra rb rn => packR 0x08 rd ra rb rn
  | .modexp rd ra rb rn => packR 0x09 rd ra rb rn
  | .gcd rd ra rb => packR 0x10 rd ra rb 0
  | .modinv rd ra rb => packR 0x11 rd ra rb 0
  | .mrtest rd ra => packR 0x18 rd ra 0 0
  | .mrround ra rb => packR 0x19 0 ra rb 0

end Sys2Proof
end

