-- ==== Sys2Proof/Machine/State.lean ====
section
/-!
DEFINITION. The state of the engine and of the agents at its ports, as plain data.

`State` holds everything the spec gives the machine: the operand registers (rule R30), the control
and status registers (rules R34 to R44), the hidden state (rule R48: the phase, the decoded running
command, the operand snapshot and the internal registers of the units), the reset input (rule R98),
and, for the two outside agents (rule R9), what they have put at the ports and what the host was
answered. The engine has no memory of its own (rule R81) and no program counter (rule R33).

`STATUS.BUSY` is not a field of its own: the host observes the phase as `STATUS.BUSY` (rule R48),
so it is stored once, as `phase`, and computed in `Machine/Flags.lean`. The constants ID and PARAM
(rules R41, R42) are computed from `params`, and `irq` and `rng_ready` (rules R278, R96) from the
fields they are functions of.
-/

namespace Sys2Proof.Machine

/-- `CTRL.MR_POLICY`: the Miller–Rabin aggregation policy (rules R38, R217, R218). -/
inductive Policy
  /-- Code 0: all rounds must pass (rule R217). -/
  | classic
  /-- Code 1: the first passing round ends the test (rule R218). -/
  | earlyExit
  deriving DecidableEq, Repr

/-- The verdict of a Miller–Rabin round, as `STATUS.MRV` codes it (rule R37). The reserved codes
5, 6 and 7 are never written, so they have no constructor. -/
inductive Verdict
  /-- Code 0: a squaring reached 1 before reaching `p - 1`. -/
  | compositeWitness
  /-- Code 1: the round passed. -/
  | pass
  /-- Code 2: no power reached 1 or `p - 1`. -/
  | inconclusive
  /-- Code 3: `gcd(p, w) > 1`. -/
  | compositeGcd
  /-- Code 4: `p ≤ 3` or `p` even. -/
  | rejected
  deriving DecidableEq, Repr

/-- The command-error codes that `ERRCODE.CODE` can hold (rules R40, R271). The reserved codes
0x06 to 0xFF are never written, so they have no constructor. -/
inductive ErrCode
  /-- 0x00: no error. -/
  | none
  /-- 0x01: the word matches no row of the opcode map (rule R116). -/
  | illegalCmd
  /-- 0x02: an even modulus, zero included (rules R141, R160). -/
  | evenModulus
  /-- 0x03: an operand or a witness out of its range (rules R141, R160, R214). -/
  | range
  /-- 0x04: a modulus `m ≤ 1` (rule R185). -/
  | modulus
  /-- 0x05: `gcd(a, m) ≠ 1` (rule R185). -/
  | noInv
  deriving DecidableEq, Repr

/-- The snapshot taken at acceptance (rule R118): the values of the operand registers the command
reads (rule R31), and for MRTEST the policy and the `rounds` argument. A part the command does not
read is 0 (and `classic`). -/
structure Snapshot where
  /-- The value of `x[ra]`. -/
  a : Nat
  /-- The value of `x[rb]`. -/
  b : Nat
  /-- The value of `x[rn]`. -/
  n : Nat
  /-- `CTRL.MR_POLICY`. -/
  policy : Policy
  /-- `MR_ROUNDS.ROUNDS`. -/
  rounds : Byte
  deriving DecidableEq, Repr

/-- Where the Miller–Rabin unit stands inside a test. -/
inductive MruStage
  /-- Drawing a witness (rule R216): `t` is the sum of the words of this pass so far, `j` their
  number. -/
  | draw (t j : Nat)
  /-- Squaring (rule R213): `y` is the current power, `left` the squarings still to do. -/
  | square (y left : Nat)
  /-- The test has its verdict; the completion is still to come. -/
  | finished (v : Verdict)
  deriving DecidableEq, Repr

/-- The internal registers of the Miller–Rabin unit (rule R48). -/
structure Mru where
  /-- The odd part of `p - 1` (rule R212). -/
  d : Nat
  /-- The power of two in `p - 1` (rule R212). -/
  s : Nat
  /-- The round counter `k` of rule R215: the rounds begun so far. -/
  k : Nat
  /-- The current witness; 0 before the first. -/
  w : Nat
  /-- The partial draw, or the current power and the squaring counter. -/
  stage : MruStage
  deriving DecidableEq, Repr

/-- The internal registers of the unit the running command uses (rule R48), with the names of the
reference datapaths. -/
inductive UnitRegs
  /-- The command uses no unit (NOP, MOV, LDI, CMP, an illegal word, or operands in error). -/
  | unused
  /-- The Montgomery multiplier (rule R142): the accumulator `T` and the bit index. -/
  | mmu (t i : Nat)
  /-- The exponentiation sequencer (rule R162): `R2`, `am`, `acc`, and the exponent bits left. -/
  | exp (r2 am acc left : Nat)
  /-- The GCD unit computing a gcd (rule R182): the working values and the common power of two. -/
  | gcdu (a b k : Nat)
  /-- The GCD unit computing an inverse (rule R188): the working values and the signed
  coefficients (rule R192). -/
  | inverse (r0 r1 : Nat) (t0 t1 : Int)
  /-- The Miller–Rabin unit (rules R213, R215). -/
  | mru (m : Mru)
  deriving DecidableEq, Repr

/-- The command the engine is running (rule R48). -/
structure Running where
  /-- The decoded command; `none` for an illegal word (rule R116). -/
  instr : Option Instr
  /-- The operand snapshot (rule R118). -/
  snap : Snapshot
  /-- The internal registers of the unit at work. -/
  unit : UnitRegs
  deriving DecidableEq, Repr

/-- The engine phase (rule R48). -/
inductive Phase
  | idle
  | busy (r : Running)
  deriving DecidableEq, Repr

/-- The size of a bus transaction (rule R80). -/
inductive AccessSize
  | byte | halfword | word
  deriving DecidableEq, Repr

/-- One transaction on the host bus slave port (rule R80). -/
inductive Access
  | read (size : AccessSize) (addr : Addr)
  | write (size : AccessSize) (addr : Addr) (value : Word)
  deriving DecidableEq, Repr

/-- The engine's answer to one transaction (rule R80). -/
inductive Response
  /-- *okay* with the read data. -/
  | readOkay (value : Word)
  /-- *okay* for a write. -/
  | writeOkay
  /-- *error*, a bus error (rule R280). -/
  | error
  deriving DecidableEq, Repr

/-- What happens next at the engine's ports or inside it. The list of events still to come says
which agent moves next; the spec orders the agents no further (rules R93, R282, R325). -/
inductive Event
  /-- The next host transaction is performed (rule R93). -/
  | access (a : Access)
  /-- The entropy source presents one more word (rule R96). -/
  | entropy (w : Word)
  /-- A rising clock edge with `rst` at this level (rule R311). -/
  | rst (level : Bool)
  /-- The running unit advances by one step of its reference algorithm; nothing outside sees it
  (rule R48). -/
  | unitStep
  /-- The engine runs its command to its completion, or, for MRTEST, until it waits for an entropy
  word (rules R48, R216). -/
  | engine
  deriving DecidableEq, Repr

/-- Why an access is answered with a bus error. The engine itself reports no cause (rule R281);
the name is the model's own, the first condition of rules R311, R84 and R85 that holds. -/
inductive BusError
  /-- `rst = 1` (rule R311). -/
  | inReset
  /-- Not a word access, or not word-aligned (rule R87). -/
  | notAlignedWord
  /-- No register at the address (rule R88). -/
  | unmapped
  /-- Refused by the busy interlock (rule R89). -/
  | busy
  deriving DecidableEq, Repr

/-- The reasons a step can stop with a fault. -/
inductive Fault
  /-- Raised by `turn` (`Machine/Turn.lean`) when the engine answers a host access with an error
  response: rule R280 makes a bus error a fault of the host agent, never a value. SAFE: the engine
  itself would go on unchanged, and the model stops. -/
  | busError (a : Access) (cause : BusError)
  deriving DecidableEq, Repr

/-- The reasons a step can be refused. -/
inductive Refusal
  /-- Raised by an arm of `exec` whose command has no meaning yet; no arm is left so. SAFE: the
  model stops. -/
  | notModelled (mnemonic : String)
  deriving DecidableEq, Repr

/-- The state of the engine, of the inputs at its ports and of the answers it has given. -/
structure State where
  /-- The operand width (rule R5), fixed for the engine. -/
  params : Params
  /-- The operand registers `x[0]` to `x[7]`, unsigned integers below `2^W` (rules R11, R30). -/
  x : Vector Nat 8
  /-- `CTRL.IRQ_EN` (rule R38). -/
  irqEn : Bool
  /-- `CTRL.MR_POLICY` (rule R38). -/
  mrPolicy : Policy
  /-- `STATUS.DONE` (rule R36). -/
  done : Bool
  /-- `STATUS.ERR` (rule R36). -/
  err : Bool
  /-- `STATUS.RESULT` (rule R37). -/
  result : Bool
  /-- `STATUS.EQ` (rule R37). -/
  eq : Bool
  /-- `STATUS.LT` (rule R37). -/
  lt : Bool
  /-- `STATUS.MRV` (rule R37). -/
  mrv : Verdict
  /-- `CMD`, the last accepted command word (rule R39). -/
  cmd : Word
  /-- `ERRCODE.CODE` (rule R40). -/
  errcode : ErrCode
  /-- `MR_ROUNDS.ROUNDS` (rule R44). -/
  mrRounds : Byte
  /-- `MR_DONE.COUNT`, 0 to 256 (rule R43). -/
  mrDone : Nat
  /-- The engine phase and the rest of the hidden state (rule R48). -/
  phase : Phase
  /-- The level of the reset input `rst` (rules R98, R311). -/
  rst : Bool
  /-- The words the entropy source presents and the engine has not yet taken, first to be taken
  first (rule R96): the entropy agent's, not the engine's (rule R49). -/
  rng : List Word
  /-- The events still to come, next one first: the outside agents', not the engine's. -/
  inputs : List Event
  /-- The answers given so far, the latest first (rules R80, R327): the host's, not the engine's. -/
  answers : List Response
  deriving DecidableEq, Repr

/-- The state right after reset, for the parameters `p` (rule R50), with nothing at the ports. -/
def State.resetFor (p : Params) : State where
  params := p
  x := Vector.replicate 8 0
  irqEn := false
  mrPolicy := .classic
  done := false
  err := false
  result := false
  eq := false
  lt := false
  mrv := .compositeWitness
  cmd := 0x00000000#32
  errcode := .none
  mrRounds := roundsAtReset
  mrDone := 0
  phase := .idle
  rst := false
  rng := []
  inputs := []
  answers := []

/-- The machine right after reset in the reference configuration `W = 1024` (rules R5, R50). -/
def State.reset : State := State.resetFor Params.reference

end Sys2Proof.Machine
end

