-- ==== Sys2Proof/Machine/Arith.lean ====
section
/-!
DEFINITION. The mathematical functions of rules R12, R13 and R140, on unbounded naturals (rule R11),
each written so that it can be evaluated on operands of the full width. `Nat.gcd` is `gcd(a, b)`
with the zero operands of rule R181.
-/

namespace Sys2Proof.Machine

/-- `bitlen(v)`, the number of significant bits; `bitlen(0) = 0` (rule R12). -/
def bitLen (v : Nat) : Nat := if v = 0 then 0 else Nat.log2 v + 1

/-- The number of trailing zero bits among the low `fuel` bits of `v`. -/
def ctzWithin : Nat → Nat → Nat
  | 0, _ => 0
  | fuel + 1, v => if v % 2 = 0 then ctzWithin fuel (v / 2) + 1 else 0

/-- `ctz(v)`, the number of trailing zero bits of `v > 0` (rule R12). -/
def ctz (v : Nat) : Nat := ctzWithin (bitLen v) v

/-- `a^b mod n` from the low `len` bits of the exponent `b`, by squaring. -/
def powModBits (n a : Nat) : Nat → Nat → Nat
  | 0, _ => 1 % n
  | len + 1, b =>
    let h := powModBits n a len (b / 2)
    if b % 2 = 1 then h * h % n * a % n else h * h % n

/-- `a^b mod n`, with `a^0 = 1` for every `a` (rule R160). `Laws/Arith.lean` proves it equal to
`a ^ b % n`. -/
def modExp (a b n : Nat) : Nat := powModBits n a (bitLen b) b

/-- The loop of the iterative extended Euclidean algorithm (rule R188): `(r0, r1)` are the working
values and `(t0, t1)` the signed coefficients. It returns `(r0, t0)` when `r1` is 0. -/
def extEuclidLoop : Nat → Nat → Nat → Int → Int → Nat × Int
  | 0, r0, _, t0, _ => (r0, t0)
  | fuel + 1, r0, r1, t0, t1 =>
    if r1 = 0 then (r0, t0)
    else extEuclidLoop fuel r1 (r0 - r0 / r1 * r1) t1 (t0 - (r0 / r1 : Nat) * t1)

/-- `ExtEuclidInv(a, m)` up to its last line (rule R188): the gcd and the coefficient. The second
working value shrinks at every iteration, so `m` iterations are enough. -/
def extEuclid (a m : Nat) : Nat × Int := extEuclidLoop m m (a % m) 0 1

/-- `inv(a, m)`, for `m > 1` and `gcd(a, m) = 1` the unique `x` in `[1, m)` with
`a·x ≡ 1 (mod m)` (rule R13), computed as rule R188 does. -/
def inv (a m : Nat) : Nat := ((extEuclid a m).2 % (m : Int)).toNat

/-- The Montgomery radix `R = 2^W` (rule R140). -/
def radix (width : Nat) : Nat := 2 ^ width

/-- `Rinv = inv(R mod n, n)`, and 0 for `n = 1` (rule R140). -/
def radixInv (width n : Nat) : Nat := if n = 1 then 0 else inv (radix width % n) n

/-- `MontProd(a, b, n) = (a · b · Rinv) mod n` (rule R140). -/
def montProd (width a b n : Nat) : Nat := a * b * radixInv width n % n

end Sys2Proof.Machine
end

