-- ==== Sys2Proof/Machine/Mru.lean ====
section
/-!
DEFINITION. The Miller–Rabin unit: the pre-check, the decomposition, one round, the witness draw
from entropy words, and the test over a stream of entropy words (rules R210 to R219).
-/

namespace Sys2Proof.Machine

/-- `PreReject(p) = (p ≤ 3) or (p[0] = 0)` (rule R211). -/
def preReject (p : Nat) : Bool := decide (p ≤ 3) || decide (p % 2 = 0)

/-- The exponent `s = ctz(p - 1)` of the decomposition (rule R212). -/
def decomposeS (p : Nat) : Nat := ctz (p - 1)

/-- The odd part `d = (p - 1) / 2^s` (rule R212). -/
def decomposeD (p : Nat) : Nat := (p - 1) / 2 ^ decomposeS p

/-- What one squaring of the current power decides (rule R213): a verdict, or the new power. -/
def squareOnce (p y : Nat) : Verdict ⊕ Nat :=
  let y' := y * y % p
  if y' = p - 1 then .inl .pass
  else if y' = 1 then .inl .compositeWitness
  else .inr y'

/-- The squarings of a round (rule R213): at most `left` more, from the current power `y`. -/
def squareLoop (p : Nat) : Nat → Nat → Verdict
  | 0, _ => .inconclusive
  | left + 1, y =>
    match squareOnce p y with
    | .inl v => v
    | .inr y' => squareLoop p left y'

/-- `Round(p, w)` (rule R213). -/
def roundVerdict (p w : Nat) : Verdict :=
  if 1 < Nat.gcd p w then .compositeGcd
  else
    let y := modExp w (decomposeD p) p
    if y = 1 ∨ y = p - 1 then .pass
    else squareLoop p (decomposeS p - 1) y

/-- `L = bitlen(p - 3)`, the bits kept of a draw (rule R216). -/
def drawBits (p : Nat) : Nat := bitLen (p - 3)

/-- `k = ceil(L / 32)`, the entropy words of one pass of a draw (rule R216). -/
def drawWords (p : Nat) : Nat := (drawBits p + 31) / 32

/-- What one more entropy word makes of a draw in progress. -/
inductive DrawStep
  /-- The draw goes on, with this sum and number of words. -/
  | more (t j : Nat)
  /-- The draw returns this witness. -/
  | witness (w : Nat)
  deriving DecidableEq, Repr

/-- One entropy word taken by `DrawWitness(p)` (rule R216): it is added at its place; when the pass
has its `k` words, the low `L` bits are kept and accepted if they are at most `p - 3`, and a new
pass begins if they are not. -/
def drawWord (p t j : Nat) (word : Word) : DrawStep :=
  let t' := t + word.toNat * 2 ^ (32 * j)
  if j + 1 < drawWords p then .more t' (j + 1)
  else
    let kept := t' % 2 ^ drawBits p
    if kept ≤ p - 3 then .witness (kept + 2) else .more 0 0

/-- `DrawWitness(p)` from the start or from a draw in progress (rule R216), over the words presented:
the witness and the words left, or `none` while it waits for a word. -/
def drawWitness (p : Nat) : Nat → Nat → List Word → Option (Nat × List Word)
  | _, _, [] => none
  | t, j, word :: rest =>
    match drawWord p t j word with
    | .witness w => some (w, rest)
    | .more t' j' => drawWitness p t' j' rest

/-- What a round's verdict does to the test (rules R215, R217, R218): it ends the test, or the next
draw begins. `rounds` is the argument, so the test runs up to `rounds + 1` rounds. -/
def afterRound (policy : Policy) (rounds : Nat) (v : Verdict) (m : Mru) : Mru :=
  if v = .compositeGcd ∨ v = .compositeWitness then { m with stage := .finished v }
  else if policy = .classic ∧ v = .inconclusive then { m with stage := .finished .inconclusive }
  else if policy = .earlyExit ∧ v = .pass then { m with stage := .finished .pass }
  else if m.k < rounds + 1 then { m with stage := .draw 0 0 }
  else { m with stage := .finished (if policy = .classic then .pass else .inconclusive) }

/-- A round on the witness `w` up to its first power (rule R213). -/
def beginRound (p : Nat) (policy : Policy) (rounds : Nat) (w : Nat) (m : Mru) : Mru :=
  let m := { m with w := w, k := m.k + 1 }
  if 1 < Nat.gcd p w then afterRound policy rounds .compositeGcd m
  else
    let y := modExp w m.d p
    if y = 1 ∨ y = p - 1 then afterRound policy rounds .pass m
    else { m with stage := .square y (m.s - 1) }

/-- The unit at the start of a test on `p`, nothing drawn yet (rules R212, R215). -/
def mruStart (p : Nat) : Mru where
  d := decomposeD p
  s := decomposeS p
  k := 0
  w := 0
  stage := .draw 0 0

/-- Does the squarings left in the round and what its verdict says; leaves a unit that is not
squaring as it is. -/
def finishRound (p : Nat) (policy : Policy) (rounds : Nat) (m : Mru) : Mru :=
  match m.stage with
  | .square y left => afterRound policy rounds (squareLoop p left y) m
  | .draw _ _ => m
  | .finished _ => m

/-- One entropy word taken by the unit while it draws (rules R216, R222). -/
def takeWord (p : Nat) (policy : Policy) (rounds : Nat) (t j : Nat) (word : Word) (m : Mru) : Mru :=
  match drawWord p t j word with
  | .more t' j' => { m with stage := .draw t' j' }
  | .witness w => beginRound p policy rounds w m

/-- The test run as far as the words presented allow (rules R215, R216): to its verdict, with the
words it did not take, or to the next word it has to wait for. -/
def runTest (p : Nat) (policy : Policy) (rounds : Nat) (m : Mru) : List Word → Mru × List Word
  | [] => (finishRound p policy rounds m, [])
  | word :: rest =>
    let m := finishRound p policy rounds m
    match m.stage with
    | .draw t j => runTest p policy rounds (takeWord p policy rounds t j word m) rest
    | .square _ _ => (m, word :: rest)
    | .finished _ => (m, word :: rest)

/-- One step of the unit, as nothing outside sees it (rule R48): one squaring, or one entropy word
taken if one is presented. -/
def mruStep (p : Nat) (policy : Policy) (rounds : Nat) (m : Mru) (rng : List Word) :
    Mru × List Word :=
  match m.stage with
  | .finished _ => (m, rng)
  | .square _ 0 => (afterRound policy rounds .inconclusive m, rng)
  | .square y (left + 1) =>
    match squareOnce p y with
    | .inl v => (afterRound policy rounds v m, rng)
    | .inr y' => ({ m with stage := .square y' left }, rng)
  | .draw t j =>
    match rng with
    | [] => (m, [])
    | word :: rest => (takeWord p policy rounds t j word m, rest)

end Sys2Proof.Machine
end

