-- ==== Sys2Proof/Machine/Datapath.lean ====
section
/-!
DEFINITION. The reference datapaths of the units (rules R142, R162, R182, R188) and the source's
recursive formula for the inverse (rule R186), step by step over the internal registers that rule
R48 names. Only the commands' results are architectural (rules R142, R162, R182): the meanings of
the commands do not use this file's functions, and the statements say that the two agree.
-/

namespace Sys2Proof.Machine

/-- The conditional subtract of `n` (rules R142, R143). -/
def condSub (n v : Nat) : Nat := if n ≤ v then v - n else v

/-- One step of the Montgomery datapath: bit `i` of `a`, accumulator `t` (rule R142). -/
def montBit (a b n i t : Nat) : Nat :=
  let t1 := if a.testBit i then t + b else t
  let t2 := if t1 % 2 = 1 then t1 + n else t1
  t2 / 2

/-- The accumulator `T` after `i` steps (rule R142). -/
def montAccum (a b n : Nat) : Nat → Nat
  | 0 => 0
  | i + 1 => montBit a b n i (montAccum a b n i)

/-- `MontDatapath(a, b, n)` (rule R142): `W` steps and the final conditional subtract. -/
def montDatapath (width a b n : Nat) : Nat := condSub n (montAccum a b n width)

/-- `2^i mod n` by `i` modular doublings with conditional subtract (rule R162). -/
def modDoublings (n : Nat) : Nat → Nat
  | 0 => condSub n 1
  | i + 1 => condSub n (2 * modDoublings n i)

/-- One step of square-and-multiply in the Montgomery domain, for exponent bit `i` (rule R162). -/
def expBit (width am b n i acc : Nat) : Nat :=
  let sq := montProd width acc acc n
  if b.testBit i then montProd width sq am n else sq

/-- The loop of rule R162 over the exponent bits `left - 1` down to 0. -/
def expLoop (width am b n : Nat) : Nat → Nat → Nat
  | 0, acc => acc
  | left + 1, acc => expLoop width am b n left (expBit width am b n left acc)

/-- `ModExpDatapath(a, b, n)`, for `n` odd and `a < n` (rule R162). -/
def modExpDatapath (width a b n : Nat) : Nat :=
  if n = 1 then 0
  else
    let r2 := modDoublings n (2 * width)
    let am := montProd width a r2 n
    let acc := montProd width 1 r2 n
    montProd width (expLoop width am b n width acc) 1 n

/-- One iteration of the binary GCD on odd `a` and `b > 0` (rule R182): shift, compare and swap,
conditional subtract. -/
def gcdIter (a b : Nat) : Nat × Nat :=
  let b' := b / 2 ^ ctz b
  if b' < a then (b', a - b') else (a, b' - a)

/-- The loop of the binary GCD, ended when the second value is 0 (rule R182). Each iteration makes
the sum of the values smaller, so their sum bounds the iterations. -/
def gcdLoop (k : Nat) : Nat → Nat → Nat → Nat
  | 0, a, _ => a * 2 ^ k
  | fuel + 1, a, b =>
    if b = 0 then a * 2 ^ k
    else gcdLoop k fuel (gcdIter a b).1 (gcdIter a b).2

/-- `BinGcd(a, b)` (rule R182). -/
def binGcd (a b : Nat) : Nat :=
  if a = 0 then b
  else if b = 0 then a
  else gcdLoop (ctz (a ||| b)) (a + b) (a / 2 ^ ctz a) b

/-- The source's recursive formula for the modular inverse (rule R186), on signed integers; `none`
where it takes a remainder by zero (rule R187). The first argument shrinks at every call, so it
bounds the depth. -/
def sourceInverseWithin : Nat → Nat → Nat → Option Int
  | 0, _, _ => none
  | fuel + 1, a, m =>
    if a = 1 then some 1
    else if a = 0 then none
    else
      match sourceInverseWithin fuel (m % a) a with
      | none => none
      | some y => some ((1 - y * m) / a + m)

/-- `modInverse(a, m)`, the source's formula (rule R186). -/
def sourceInverse (a m : Nat) : Option Int := sourceInverseWithin (a + 1) a m

/-- The unit registers at the start of a command, from its snapshot (rules R48, R118). A command
whose operands are in error uses no unit (rule R274). -/
def startUnit (width : Nat) (i : Option Instr) (snap : Snapshot) : UnitRegs :=
  match i with
  | none => .unused
  | some .nop => .unused
  | some (.mov _ _) => .unused
  | some (.ldi _ _) => .unused
  | some (.cmp _ _) => .unused
  | some (.montmul _ _ _ _) =>
    if snap.n % 2 = 0 ∨ snap.n ≤ snap.a ∨ snap.n ≤ snap.b then .unused else .mmu 0 0
  | some (.modexp _ _ _ _) =>
    if snap.n % 2 = 0 ∨ snap.n ≤ snap.a ∨ snap.n = 1 then .unused
    else
      let r2 := modDoublings snap.n (2 * width)
      .exp r2 (montProd width snap.a r2 snap.n) (montProd width 1 r2 snap.n) width
  | some (.gcd _ _ _) =>
    if snap.a = 0 ∨ snap.b = 0 then .unused
    else .gcdu (snap.a / 2 ^ ctz snap.a) snap.b (ctz (snap.a ||| snap.b))
  | some (.modinv _ _ _) =>
    if snap.b ≤ 1 then .unused else .inverse snap.b (snap.a % snap.b) 0 1
  | some (.mrtest _ _) => if preReject snap.a then .unused else .mru (mruStart snap.a)
  | some (.mrround _ _) =>
    if preReject snap.a ∨ snap.b < 2 ∨ snap.a - 1 < snap.b then .unused
    else .mru (beginRound snap.a snap.policy snap.rounds.toNat snap.b (mruStart snap.a))

/-- One step of the unit at work, with the entropy words presented and those left (rule R48). A
unit at its end stays there: the completion is the engine's. -/
def unitStep (width : Nat) (snap : Snapshot) (u : UnitRegs) (rng : List Word) :
    UnitRegs × List Word :=
  match u with
  | .unused => (.unused, rng)
  | .mmu t i => (if i < width then .mmu (montBit snap.a snap.b snap.n i t) (i + 1) else .mmu t i, rng)
  | .exp r2 am acc 0 => (.exp r2 am acc 0, rng)
  | .exp r2 am acc (left + 1) => (.exp r2 am (expBit width am snap.b snap.n left acc) left, rng)
  | .gcdu a b k => (if b = 0 then .gcdu a b k else .gcdu (gcdIter a b).1 (gcdIter a b).2 k, rng)
  | .inverse r0 r1 t0 t1 =>
    (if r1 = 0 then .inverse r0 r1 t0 t1
     else .inverse r1 (r0 - r0 / r1 * r1) t1 (t0 - (r0 / r1 : Nat) * t1), rng)
  | .mru m =>
    ((.mru (mruStep snap.a snap.policy snap.rounds.toNat m rng).1),
     (mruStep snap.a snap.policy snap.rounds.toNat m rng).2)

end Sys2Proof.Machine
end

