-- ==== Sys2Proof/Machine/Flags.lean ====
section
/-!
DEFINITION. The flags: their codes, how the commands compute them (rules R37, R253), the STATUS word
that software reads (rule R35), and the interrupt and entropy outputs (rules R278, R96).
-/

namespace Sys2Proof.Machine

/-- The code of a verdict in `STATUS.MRV` (rule R37). -/
def verdictCode : Verdict → Nat
  | .compositeWitness => 0
  | .pass => 1
  | .inconclusive => 2
  | .compositeGcd => 3
  | .rejected => 4

/-- The code of a command error in `ERRCODE.CODE` (rule R271). -/
def errorNumber : ErrCode → Nat
  | .none => 0x00
  | .illegalCmd => 0x01
  | .evenModulus => 0x02
  | .range => 0x03
  | .modulus => 0x04
  | .noInv => 0x05

/-- The bit `CTRL.MR_POLICY` (rule R38). -/
def policyBit : Policy → Nat
  | .classic => 0
  | .earlyExit => 1

/-- The policy a bit of CTRL selects (rule R38). -/
def policyOfBit (b : Bool) : Policy := if b then .earlyExit else .classic

/-- A flag as the bit software reads. -/
def flagBit (b : Bool) : Nat := if b then 1 else 0

/-- `STATUS.BUSY` is the engine phase (rule R48). -/
def Phase.isBusy : Phase → Bool
  | .idle => false
  | .busy _ => true

/-- `STATUS.BUSY` (rules R35, R48). -/
def State.busy (s : State) : Bool := s.phase.isBusy

/-- CMP's flags: EQ and LT, unsigned (rule R253). -/
def State.setCompare (a b : Nat) (s : State) : State :=
  { s with eq := decide (a = b), lt := decide (a < b) }

/-- A verdict and the boolean that goes with it: `RESULT` is 1 exactly for `PASS`
(rules R37, R214, R215). -/
def State.setVerdict (v : Verdict) (s : State) : State :=
  { s with mrv := v, result := decide (v = .pass) }

/-- The STATUS word (rule R35); the reserved bits read 0. -/
def State.statusWord (s : State) : Word :=
  BitVec.ofNat 32 (flagBit s.busy + 2 * flagBit s.done + 4 * flagBit s.err + 8 * flagBit s.result
    + 16 * flagBit s.eq + 32 * flagBit s.lt + 2 ^ 8 * verdictCode s.mrv)

/-- The CTRL word (rule R38); the reserved bits and SOFT_RESET read 0. -/
def State.ctrlWord (s : State) : Word :=
  BitVec.ofNat 32 (flagBit s.irqEn + 2 * policyBit s.mrPolicy)

/-- The PARAM word (rule R42). -/
def State.paramWord (s : State) : Word := BitVec.ofNat 32 (s.params.nw + 2 ^ 16 * nreg)

/-- The ERRCODE word (rule R40). -/
def State.errcodeWord (s : State) : Word := BitVec.ofNat 32 (errorNumber s.errcode)

/-- The MR_ROUNDS word (rule R44). -/
def State.mrRoundsWord (s : State) : Word := BitVec.ofNat 32 s.mrRounds.toNat

/-- The MR_DONE word (rule R43). -/
def State.mrDoneWord (s : State) : Word := BitVec.ofNat 32 s.mrDone

/-- The interrupt output, `irq = CTRL.IRQ_EN AND STATUS.DONE` (rule R278). -/
def State.irq (s : State) : Bool := s.irqEn && s.done

/-- The Miller–Rabin unit is drawing a witness. -/
def UnitRegs.drawing : UnitRegs → Bool
  | .mru m =>
    match m.stage with
    | .draw _ _ => true
    | .square _ _ => false
    | .finished _ => false
  | .unused => false
  | .mmu _ _ => false
  | .exp _ _ _ _ => false
  | .gcdu _ _ _ => false
  | .inverse _ _ _ _ => false

/-- The output `rng_ready`: raised only while the Miller–Rabin unit needs random bits during an
MRTEST (rules R96, R222), and 0 in reset (rule R311). -/
def State.rngReady (s : State) : Bool :=
  match s.phase with
  | .idle => false
  | .busy r => !s.rst && r.unit.drawing

end Sys2Proof.Machine
end

