-- ==== Sys2Proof/Machine/Operands.lean ====
section
/-!
DEFINITION. The operand forms of the command set: a whole operand register named by a 3-bit field,
and LDI's zero-extended immediate (rules R113, R114); the operand snapshot (rules R31, R118); and
the 32-bit words of an operand register that the host's window shows (rules R83, R86).
-/

namespace Sys2Proof.Machine

/-- `x[r]` (rules R12, R114). -/
def State.reg (s : State) (r : Reg) : Nat := s.x[r.val]

/-- `x[r] <- v` (rule R12). -/
def State.setReg (r : Reg) (v : Nat) (s : State) : State := { s with x := s.x.set r.val v }

/-- LDI's operand value `zext_W(IMM21)` (rules R11, R113): zero extension keeps the integer. -/
def immediate (imm21 : Nat) : Nat := imm21

/-- The snapshot of a command that reads no operand. -/
def Snapshot.empty : Snapshot := ⟨0, 0, 0, .classic, 0#8⟩

/-- The operand values a command reads (rule R31), and for MRTEST the policy and the `rounds`
argument, as they stand in the state (rule R118). -/
def State.sample (s : State) : Option Instr → Snapshot
  | none => Snapshot.empty
  | some .nop => Snapshot.empty
  | some (.mov _ ra) => { Snapshot.empty with a := s.reg ra }
  | some (.ldi _ _) => Snapshot.empty
  | some (.cmp ra rb) => { Snapshot.empty with a := s.reg ra, b := s.reg rb }
  | some (.montmul _ ra rb rn) =>
    { Snapshot.empty with a := s.reg ra, b := s.reg rb, n := s.reg rn }
  | some (.modexp _ ra rb rn) =>
    { Snapshot.empty with a := s.reg ra, b := s.reg rb, n := s.reg rn }
  | some (.gcd _ ra rb) => { Snapshot.empty with a := s.reg ra, b := s.reg rb }
  | some (.modinv _ ra rb) => { Snapshot.empty with a := s.reg ra, b := s.reg rb }
  | some (.mrtest _ ra) =>
    { Snapshot.empty with a := s.reg ra, policy := s.mrPolicy, rounds := s.mrRounds }
  | some (.mrround ra rb) => { Snapshot.empty with a := s.reg ra, b := s.reg rb }

/-- Word `j` of an operand value: bits `[32j+31 : 32j]` (rule R83). -/
def wordOf (v j : Nat) : Word := BitVec.ofNat 32 (v / 2 ^ (32 * j))

/-- The operand value with word `j` replaced, its other bits unchanged (rule R85). -/
def replaceWord (v j : Nat) (word : Word) : Nat :=
  v / 2 ^ (32 * (j + 1)) * 2 ^ (32 * (j + 1)) + word.toNat * 2 ^ (32 * j) + v % 2 ^ (32 * j)

end Sys2Proof.Machine
end

