-- ==== Sys2Proof/Machine/Ops.lean ====
section
/-!
DEFINITION. The shared operations of every command: acceptance (rules R39, R122), completion
(rule R36), the command error, which is this machine's way of taking an exception (rules R272,
R275), with the host's clearing of it beside it (rule R277), and the two resets (rules R310 to R313).
-/

namespace Sys2Proof.Machine

/-- A step's outcome on this machine. -/
abbrev Outcome := Host.Outcome State Fault Refusal

/-- The engine enters its busy phase on the decoded command `i` (rules R48, R118). -/
def State.start (i : Option Instr) (s : State) : Phase :=
  .busy ⟨i, s.sample i, startUnit s.params.width i (s.sample i)⟩

/-- Acceptance of the word `v` whose decoding is `i` (rules R36, R122). -/
def State.acceptAs (v : Word) (i : Option Instr) (s : State) : State :=
  { s with cmd := v, done := false, err := false, errcode := .none, phase := s.start i }

/-- `Accept(v)` (rule R122): every word is accepted, legal or not (rule R116). -/
def State.accept (v : Word) (s : State) : State := s.acceptAs v (decoded v)

/-- Completion without error: `BUSY <- 0; DONE <- 1` (rule R36); the unit registers and the snapshot
are discarded (rule R48). -/
def State.complete (s : State) : State := { s with phase := .idle, done := true }

/-- `raise CmdError(c)` (rule R272): `BUSY <- 0; DONE <- 1; ERR <- 1; ERRCODE <- c` and nothing else
(rule R275). No state is saved and control goes nowhere (rule R276). -/
def State.cmdError (c : ErrCode) (s : State) : State :=
  { s with phase := .idle, done := true, err := true, errcode := c }

/-- The host's write to STATUS, which ends the error state (rule R277): bit 1 clears DONE, bit 2
clears ERR (rule R36). There is no return-from-trap command. -/
def State.clearStatus (v : Word) (s : State) : State :=
  { s with
    done := if v.getLsbD 1 then false else s.done
    err := if v.getLsbD 2 then false else s.err }

/-- Every piece of the engine's state takes its reset value (rules R50, R310), and a running command
is abandoned (rule R313). The outside agents' inputs and answers are not the engine's to change. -/
def State.resetEngine (s : State) : State :=
  { State.resetFor s.params with
    rst := s.rst, rng := s.rng, inputs := s.inputs, answers := s.answers }

/-- A rising clock edge with `rst` at this level (rule R311). -/
def State.clockReset (level : Bool) (s : State) : State :=
  if level then { s.resetEngine with rst := true } else { s with rst := false }

/-- The command `i` under way: on an idle engine its word is accepted first, so that a meaning
applied to an idle state is the whole command, acceptance to completion as one atomic step
(rule R48); on a busy engine the command was accepted before. -/
def State.issue (i : Instr) (s : State) : State :=
  match s.phase with
  | .idle => s.acceptAs (encode i) (some i)
  | .busy _ => s

/-- The operand snapshot of the running command, from which alone it computes (rule R118). -/
def State.snapshot (s : State) : Snapshot :=
  match s.phase with
  | .idle => Snapshot.empty
  | .busy r => r.snap

/-- The Miller–Rabin unit of the running command; at its start if it is not at work. -/
def State.mruUnit (s : State) : Mru :=
  match s.phase with
  | .busy ⟨_, _, .mru m⟩ => m
  | .busy r => mruStart r.snap.a
  | .idle => mruStart 0

/-- The running command goes on with these unit registers and these words left at the entropy
port. -/
def State.withUnit (u : UnitRegs) (rng : List Word) (s : State) : State :=
  match s.phase with
  | .idle => s
  | .busy r => { s with phase := .busy { r with unit := u }, rng := rng }

/-- The unit at work takes one step (rule R48). -/
def State.stepUnit (s : State) : State :=
  match s.phase with
  | .idle => s
  | .busy r =>
    s.withUnit (unitStep s.params.width r.snap r.unit s.rng).1
      (unitStep s.params.width r.snap r.unit s.rng).2

/-- The command of the word `v` placed where the engine runs it next: accepted on an idle engine
that is not in reset, with the engine's turn next. It stands for the host's CMD write. -/
def State.placeCommand (v : Word) (s : State) : State :=
  { State.accept v { s with phase := .idle, rst := false } with inputs := .engine :: s.inputs }

end Sys2Proof.Machine
end

