-- ==== Sys2Proof/Machine/Gcd.lean ====
section
/-!
DEFINITION. The GCD engine's commands GCD and MODINV (rules R180, R185).
-/

namespace Sys2Proof.Machine

/-- GCD (rules R180, R181). -/
def execGcd (rd ra rb : Reg) (s : State) : Outcome :=
  let s := s.issue (.gcd rd ra rb)
  .next (s.setReg rd (Nat.gcd s.snapshot.a s.snapshot.b)).complete

/-- MODINV (rule R185). -/
def execModinv (rd ra rb : Reg) (s : State) : Outcome :=
  let s := s.issue (.modinv rd ra rb)
  let a := s.snapshot.a
  let m := s.snapshot.b
  if m ≤ 1 then .next (s.cmdError .modulus)
  else if Nat.gcd a m ≠ 1 then .next (s.cmdError .noInv)
  else .next (s.setReg rd (inv a m)).complete

end Sys2Proof.Machine
end

