-- ==== Sys2Proof/Machine/Modexp.lean ====
section
/-!
DEFINITION. The modular exponentiation engine's command MODEXP (rule R160).
-/

namespace Sys2Proof.Machine

/-- MODEXP (rule R160). -/
def execModexp (rd ra rb rn : Reg) (s : State) : Outcome :=
  let s := s.issue (.modexp rd ra rb rn)
  let a := s.snapshot.a
  let b := s.snapshot.b
  let n := s.snapshot.n
  if n % 2 = 0 then .next (s.cmdError .evenModulus)
  else if n ≤ a then .next (s.cmdError .range)
  else .next (s.setReg rd (modExp a b n)).complete

end Sys2Proof.Machine
end

