-- ==== Sys2Proof/Machine/Montgomery.lean ====
section
/-!
DEFINITION. The Montgomery multiplier's command MONTMUL (rules R140, R141).
-/

namespace Sys2Proof.Machine

/-- MONTMUL (rule R141). -/
def execMontmul (rd ra rb rn : Reg) (s : State) : Outcome :=
  let s := s.issue (.montmul rd ra rb rn)
  let a := s.snapshot.a
  let b := s.snapshot.b
  let n := s.snapshot.n
  if n % 2 = 0 then .next (s.cmdError .evenModulus)
  else if n ≤ a ∨ n ≤ b then .next (s.cmdError .range)
  else .next (s.setReg rd (montProd s.params.width a b n)).complete

end Sys2Proof.Machine
end

