-- ==== Sys2Proof/Machine/Primality.lean ====
section
/-!
DEFINITION. The Miller–Rabin unit's commands MRROUND and MRTEST (rules R214, R215).

MRTEST takes entropy words from those the entropy source has presented, and only as many as its
draws need (rules R216, R222). When they run out before the test has its verdict, the command stays
busy with the unit as it stands (rules R96, R293); the engine's next turn goes on from there.
-/

namespace Sys2Proof.Machine

/-- MRROUND (rule R214). -/
def execMrround (ra rb : Reg) (s : State) : Outcome :=
  let s := s.issue (.mrround ra rb)
  let p := s.snapshot.a
  let w := s.snapshot.b
  if preReject p then .next (s.setVerdict .rejected).complete
  else if w < 2 ∨ p - 1 < w then .next (s.cmdError .range)
  else .next (s.setVerdict (roundVerdict p w)).complete

/-- The completion of an MRTEST with verdict `v`, `k` rounds and last witness `w` (rules R215, R219). -/
def State.completeTest (rd : Reg) (v : Verdict) (k w : Nat) (s : State) : State :=
  (({ s.setVerdict v with mrDone := k } : State).setReg rd w).complete

/-- MRTEST (rule R215). -/
def execMrtest (rd ra : Reg) (s : State) : Outcome :=
  let s := s.issue (.mrtest rd ra)
  let p := s.snapshot.a
  if preReject p then .next (s.completeTest rd .rejected 0 0)
  else
    let run := runTest p s.snapshot.policy s.snapshot.rounds.toNat s.mruUnit s.rng
    match run.1.stage with
    | .finished v => .next ((s.withUnit (.mru run.1) run.2).completeTest rd v run.1.k run.1.w)
    | .draw _ _ => .next (s.withUnit (.mru run.1) run.2)
    | .square _ _ => .next (s.withUnit (.mru run.1) run.2)

end Sys2Proof.Machine
end

