-- ==== Sys2Proof/Machine/Support.lean ====
section
/-!
DEFINITION. The operand support commands NOP, MOV, LDI and CMP (rules R250 to R253).
-/

namespace Sys2Proof.Machine

/-- NOP (rule R250). -/
def execNop (s : State) : Outcome :=
  let s := s.issue .nop
  .next s.complete

/-- MOV (rule R251). -/
def execMov (rd ra : Reg) (s : State) : Outcome :=
  let s := s.issue (.mov rd ra)
  .next (s.setReg rd s.snapshot.a).complete

/-- LDI (rule R252). -/
def execLdi (rd : Reg) (imm21 : Nat) (s : State) : Outcome :=
  let s := s.issue (.ldi rd imm21)
  .next (s.setReg rd (immediate imm21)).complete

/-- CMP (rule R253). -/
def execCmp (ra rb : Reg) (s : State) : Outcome :=
  let s := s.issue (.cmp ra rb)
  .next (s.setCompare s.snapshot.a s.snapshot.b).complete

end Sys2Proof.Machine
end

