-- ==== Sys2Proof/Machine/Dispatch.lean ====
section
/-!
DEFINITION. The dispatch: one arm per command of the opcode map (rule R115).
-/

namespace Sys2Proof.Machine

def exec (i : Instr) (s : State) : Host.Outcome State Fault Refusal :=
  match i with
  | .nop => Sys2Proof.Machine.execNop s
  | .mov rd ra => Sys2Proof.Machine.execMov rd ra s
  | .ldi rd imm21 => Sys2Proof.Machine.execLdi rd imm21 s
  | .cmp ra rb => Sys2Proof.Machine.execCmp ra rb s
  | .montmul rd ra rb rn => Sys2Proof.Machine.execMontmul rd ra rb rn s
  | .modexp rd ra rb rn => Sys2Proof.Machine.execModexp rd ra rb rn s
  | .gcd rd ra rb => Sys2Proof.Machine.execGcd rd ra rb s
  | .modinv rd ra rb => Sys2Proof.Machine.execModinv rd ra rb s
  | .mrtest rd ra => Sys2Proof.Machine.execMrtest rd ra s
  | .mrround ra rb => Sys2Proof.Machine.execMrround ra rb s

end Sys2Proof.Machine
end

