-- ==== Sys2Proof/Machine/Port.lean ====
section
/-!
DEFINITION. The host bus slave port: the address map (rules R34, R82, R83), the busy interlock
(rule R89), and the word read and write (rules R84, R85).
-/

namespace Sys2Proof.Machine

/-- The control and status registers (rule R34). -/
inductive ControlReg
  | id | param | ctrl | status | cmd | errcode | mrRounds | mrDone
  deriving DecidableEq, Repr

/-- What stands at a mapped address (rules R82, R83). -/
inductive Place
  /-- A control or status register. -/
  | control (r : ControlReg)
  /-- Word `j` of operand register `r`. -/
  | window (r : Reg) (j : Nat)
  deriving DecidableEq, Repr

/-- The control and status registers by offset (rule R34). -/
def controlRegAt (offset : Nat) : Option ControlReg :=
  match offset with
  | 0x000 => some .id
  | 0x004 => some .param
  | 0x008 => some .ctrl
  | 0x00C => some .status
  | 0x010 => some .cmd
  | 0x014 => some .errcode
  | 0x018 => some .mrRounds
  | 0x01C => some .mrDone
  | _ => none

/-- The operand window (rule R83): 0x200 bytes for each register, of which the words `j < NW`
exist. -/
def windowAt (nw offset : Nat) : Option Place :=
  if h : 0x1000 ≤ offset ∧ offset < 0x2000 then
    if (offset - 0x1000) % 0x200 / 4 < nw then
      some (.window ⟨(offset - 0x1000) / 0x200, by omega⟩
        ((offset - 0x1000) % 0x200 / 4))
    else none
  else none

/-- The address map (rules R82, R83, R88). -/
def placeAt (nw : Nat) (addr : Addr) : Option Place :=
  match controlRegAt addr.toNat with
  | some r => some (.control r)
  | none => windowAt nw addr.toNat

/-- A word access at a word-aligned address (rule R87). -/
def alignedWord (size : AccessSize) (addr : Addr) : Bool :=
  decide (size = .word) && decide (addr.toNat % 4 = 0)

/-- The word a control or status register reads as (rules R35 to R44). -/
def State.readControl (s : State) : ControlReg → Word
  | .id => idConstant
  | .param => s.paramWord
  | .ctrl => s.ctrlWord
  | .status => s.statusWord
  | .cmd => s.cmd
  | .errcode => s.errcodeWord
  | .mrRounds => s.mrRoundsWord
  | .mrDone => s.mrDoneWord

/-- The word at a place (rule R84). -/
def State.readPlace (s : State) : Place → Word
  | .control r => s.readControl r
  | .window r j => wordOf (s.reg r) j

/-- Reads the busy interlock lets through: all but the operand window's (rule R89 (a), (b)). -/
def busyReadable : Place → Bool
  | .control _ => true
  | .window _ _ => false

/-- `busy_writable(addr, v)`: the writes the busy interlock lets through (rule R89 (c) to (f)). -/
def busyWritable (v : Word) : Place → Bool
  | .control .ctrl => v.getLsbD 31
  | .control .status => true
  | .control .id => true
  | .control .param => true
  | .control .errcode => true
  | .control .mrDone => true
  | .control .cmd => false
  | .control .mrRounds => false
  | .window _ _ => false

/-- A write to CTRL (rules R38, R85): bit 31 resets and writes no field. -/
def State.writeCtrl (v : Word) (s : State) : State :=
  if v.getLsbD 31 then s.resetEngine
  else { s with irqEn := v.getLsbD 0, mrPolicy := policyOfBit (v.getLsbD 1) }

/-- The effect of a word write at a place (rule R85). -/
def State.writePlace (v : Word) (s : State) : Place → State
  | .window r j => s.setReg r (replaceWord (s.reg r) j v)
  | .control .ctrl => s.writeCtrl v
  | .control .status => s.clearStatus v
  | .control .cmd => s.accept v
  | .control .mrRounds => { s with mrRounds := BitVec.ofNat 8 (bits v 7 0) }
  | .control .id => s
  | .control .param => s
  | .control .errcode => s
  | .control .mrDone => s

/-- The place an access reaches, or why it is refused before the interlock (rules R84, R85, R311). -/
def State.reach (s : State) (size : AccessSize) (addr : Addr) : Except BusError Place :=
  if s.rst then .error .inReset
  else if alignedWord size addr then
    match placeAt s.params.nw addr with
    | some p => .ok p
    | none => .error .unmapped
  else .error .notAlignedWord

/-- `MemRead` (rule R84): the word read, or the bus error. It changes nothing (rule R91). -/
def State.busRead (s : State) (size : AccessSize) (addr : Addr) : Except BusError Word :=
  match s.reach size addr with
  | .error e => .error e
  | .ok p => if s.busy && !busyReadable p then .error .busy else .ok (s.readPlace p)

/-- `MemWrite` (rule R85): the state after it, or the bus error. -/
def State.busWrite (s : State) (size : AccessSize) (addr : Addr) (v : Word) :
    Except BusError State :=
  match s.reach size addr with
  | .error e => .error e
  | .ok p => if s.busy && !busyWritable v p then .error .busy else .ok (s.writePlace v p)

/-- The bus error of an access, if it is refused (rules R280, R281). -/
def State.busError (s : State) : Access → Option BusError
  | .read size addr =>
    match s.busRead size addr with
    | .ok _ => none
    | .error e => some e
  | .write size addr v =>
    match s.busWrite size addr v with
    | .ok _ => none
    | .error e => some e

/-- The engine's side of one transaction: its answer and its state afterwards. A bus error changes
nothing (rule R280). -/
def State.port (s : State) : Access → Response × State
  | .read size addr =>
    match s.busRead size addr with
    | .ok v => (.readOkay v, s)
    | .error _ => (.error, s)
  | .write size addr v =>
    match s.busWrite size addr v with
    | .ok s' => (.writeOkay, s')
    | .error _ => (.error, s)

/-- The data lines of an answer: the word of an okay read (rule R80), and 0 for a read answered with
error, which a program must not use (rule R280). DESIGN CHOICE: the spec gives a write's answer no data;
the model gives it 0 too, okay or error (assumption 24). -/
def Response.data : Response → Word
  | .readOkay v => v
  | .writeOkay => 0#32
  | .error => 0#32

end Sys2Proof.Machine
end

