-- ==== Sys2Proof/Machine/Turn.lean ====
section
/-!
DEFINITION. One step of the machine: the next event at the ports or inside the engine (rules R9, R93,
R282). With no event left, the engine has its turn.
-/

namespace Sys2Proof.Machine

/-- The engine's turn: the running command is run (rule R122), an illegal word completes with
`ILLEGAL_CMD` (rule R116), and an idle engine, or one held in reset, does nothing (rules R291,
R311). -/
def engineTurn (s : State) : Outcome :=
  if s.rst then .next s
  else
    match s.phase with
    | .idle => .next s
    | .busy r =>
      match r.instr with
      | some i => exec i s
      | none => .next (s.cmdError .illegalCmd)

/-- One host transaction: it is performed and its answer given, or it is a bus error, which is a
fault of the host agent (rule R280). -/
def accessTurn (a : Access) (s : State) : Outcome :=
  match s.busError a with
  | some e => .fault (.busError a e)
  | none => .next { (s.port a).2 with answers := (s.port a).1 :: s.answers }

/-- One event. -/
def eventTurn (e : Event) (s : State) : Outcome :=
  match e with
  | .access a => accessTurn a s
  | .entropy w => .next { s with rng := s.rng ++ [w] }
  | .rst level => .next (s.clockReset level)
  | .unitStep => .next (if s.rst then s else s.stepUnit)
  | .engine => engineTurn s

/-- One step: the next event is taken and performed; with none left, the engine has its turn. -/
def turn (s : State) : Outcome :=
  match s.inputs with
  | [] => engineTurn s
  | e :: rest => eventTurn e { s with inputs := rest }

end Sys2Proof.Machine
end

