-- ==== Sys2Proof/Machine/Step.lean ====
section
/-!
DEFINITION. The step of the machine, and the placing of one command for the next step to run.
-/

namespace Sys2Proof.Machine

/-- One step of the machine (`Machine/Turn.lean`). -/
def step (s : State) : Host.Outcome State Fault Refusal := turn s

/-- The state with the command whose `nbits` low bits are `w` placed so that the very next step runs
it (`State.placeCommand`). -/
def State.withFetchWord (s : State) (nbits w : Nat) : State :=
  s.placeCommand (BitVec.ofNat 32 (w % 2 ^ nbits))

end Sys2Proof.Machine
end

