-- ==== Sys2Proof/Machine/HostNotation.lean ====
section
/-!
DEFINITION. The host's side of the spec's notation: the host-program lines WR, RD, LOADW, STOREW and
CMD as events at the port, the command pseudo-instructions (rule R121), and the assembler syntax of
one line (rule R120). None of it is the engine's; the engine sees only the transactions.
-/

namespace Sys2Proof.Machine

/-- `WR off, v` (rule R121). -/
def wr (off : Nat) (v : Word) : Event := .access (.write .word (BitVec.ofNat 16 off) v)

/-- `RD off` (rule R121). -/
def rd (off : Nat) : Event := .access (.read .word (BitVec.ofNat 16 off))

/-- The offset of word `j` of operand register `r` (rule R83). -/
def windowOffset (r : Reg) (j : Nat) : Nat := 0x1000 + 0x200 * r.val + 4 * j

/-- `LOADW r, v`: the `NW` writes of the words of `v` in increasing `j` (rule R121). -/
def loadw (nw : Nat) (r : Reg) (v : Nat) : List Event :=
  (List.range nw).map fun j => wr (windowOffset r j) (wordOf v j)

/-- `STOREW r`: the `NW` reads of the same words (rule R121). -/
def storew (nw : Nat) (r : Reg) : List Event :=
  (List.range nw).map fun j => rd (windowOffset r j)

/-- `CMD c`: the write of the command's word to CMD (rule R121). -/
def cmdWrite (i : Instr) : Event := wr 0x010 (encode i)

/-- The last poll of `WAIT`, the read of STATUS that finds DONE, after the engine's turn
(rule R121). The loop itself is the host's control flow. -/
def waitDone : List Event := [.engine, rd 0x00C]

/-- The command pseudo-instructions (rule R121), operands in the order the rule writes them. -/
inductive Pseudo
  | clr (rd : Reg)
  | lde (rd : Reg)
  | encrypt (rd rm re rn : Reg)
  | decrypt (rd rc rk rn : Reg)
  | sign (rd rm rk rn : Reg)
  | verify (rt rm rs re rn : Reg)
  | tomont (rd ra rr2 rn : Reg)
  | frommont (rd ra r1 rn : Reg)
  deriving DecidableEq, Repr

/-- The commands a pseudo-instruction stands for (rule R121). -/
def Pseudo.expand : Pseudo → List Instr
  | .clr rd => [.ldi rd 0]
  | .lde rd => [.ldi rd 65537]
  | .encrypt rd rm re rn => [.modexp rd rm re rn]
  | .decrypt rd rc rk rn => [.modexp rd rc rk rn]
  | .sign rd rm rk rn => [.modexp rd rm rk rn]
  | .verify rt rm rs re rn => [.modexp rt rs re rn, .cmp rt rm]
  | .tomont rd ra rr2 rn => [.montmul rd ra rr2 rn]
  | .frommont rd ra r1 rn => [.montmul rd ra r1 rn]

/-- The digit a character stands for, in bases up to sixteen. -/
def digitOf (c : Char) : Option Nat :=
  if 48 ≤ c.toNat ∧ c.toNat ≤ 57 then some (c.toNat - 48)
  else if 97 ≤ c.toNat ∧ c.toNat ≤ 102 then some (c.toNat - 87)
  else if 65 ≤ c.toNat ∧ c.toNat ≤ 70 then some (c.toNat - 55)
  else none

/-- The number of the digits `cs` in a base, after the number `n` read so far. -/
def digits (base n : Nat) : List Char → Option Nat
  | [] => some n
  | c :: cs =>
    match digitOf c with
    | none => none
    | some d => if d < base then digits base (base * n + d) cs else none

/-- An immediate: decimal, or hexadecimal with `0x`, in `[0, 2^21)` (rule R120). -/
def immOperand (cs : List Char) : Option Nat :=
  let n :=
    match cs with
    | [] => none
    | ['0', 'x'] => none
    | '0' :: 'x' :: hex => digits 16 0 hex
    | _ => digits 10 0 cs
  match n with
  | none => none
  | some n => if n < 2 ^ 21 then some n else none

/-- A register, `r0` to `r7` (rule R120). -/
def regOperand : List Char → Option Reg
  | ['r', '0'] => some 0
  | ['r', '1'] => some 1
  | ['r', '2'] => some 2
  | ['r', '3'] => some 3
  | ['r', '4'] => some 4
  | ['r', '5'] => some 5
  | ['r', '6'] => some 6
  | ['r', '7'] => some 7
  | _ => none

/-- Removes the blanks at both ends. -/
def trimBlanks (cs : List Char) : List Char :=
  ((cs.dropWhile (· == ' ')).reverse.dropWhile (· == ' ')).reverse

/-- The fields between commas, each without the blanks at its ends; no field in an empty text. -/
def commaFields (cs : List Char) : List (List Char) :=
  if trimBlanks cs = [] then [] else (cs.splitOn ',').map trimBlanks

/-- The register operands of a line, all of them. -/
def regOperands (fs : List (List Char)) : Option (List Reg) := fs.mapM regOperand

/-- A command from its mnemonic and its operand fields, in the order of rule R115's operand column;
an operand the command does not take is not written (rule R120). -/
def commandOf (name : List Char) (fs : List (List Char)) : Option Instr :=
  if name = ['L', 'D', 'I'] then
    match fs with
    | [d, i] =>
      match regOperand d, immOperand i with
      | some d, some i => some (.ldi d i)
      | _, _ => none
    | _ => none
  else
    match regOperands fs with
    | none => none
    | some rs =>
      match name, rs with
      | ['N', 'O', 'P'], [] => some .nop
      | ['M', 'O', 'V'], [d, a] => some (.mov d a)
      | ['C', 'M', 'P'], [a, b] => some (.cmp a b)
      | ['M', 'O', 'N', 'T', 'M', 'U', 'L'], [d, a, b, n] => some (.montmul d a b n)
      | ['M', 'O', 'D', 'E', 'X', 'P'], [d, a, b, n] => some (.modexp d a b n)
      | ['G', 'C', 'D'], [d, a, b] => some (.gcd d a b)
      | ['M', 'O', 'D', 'I', 'N', 'V'], [d, a, b] => some (.modinv d a b)
      | ['M', 'R', 'T', 'E', 'S', 'T'], [d, a] => some (.mrtest d a)
      | ['M', 'R', 'R', 'O', 'U', 'N', 'D'], [a, b] => some (.mrround a b)
      | _, _ => none

/-- One line of assembler text: a mnemonic, then operands separated by commas; a comment starts with
`;` (rule R120). -/
def assembleLine (line : List Char) : Option Instr :=
  let text := trimBlanks (line.takeWhile (· != ';'))
  commandOf (text.takeWhile (· != ' ')) (commaFields (text.dropWhile (· != ' ')))

end Sys2Proof.Machine
end

