-- ==== Sys2Proof/Safety.lean ====
section
/-!
DEFINITION. The terms the claims use: the invariant of the machine, the state a completed command
leaves on an idle engine, and the Miller–Rabin test over a sequence of draws as rule R215 writes it.
-/

namespace Sys2Proof.Machine

/-- The Miller–Rabin unit stands somewhere inside a test of `p` with this `rounds` argument
(rules R212, R215, R219). -/
structure Mru.InTest (p rounds : Nat) (m : Mru) : Prop where
  /-- The decomposition of the candidate (rule R212). -/
  oddPart : m.d = decomposeD p
  twoPart : m.s = decomposeS p
  /-- The witness is 0 before the first draw and below the candidate after it (rule R216). -/
  witness : m.w ≤ p - 1
  /-- At most `rounds + 1` rounds are begun (rule R215), and a draw begins only if one is left. -/
  count : m.k ≤ rounds + 1
  drawing : ∀ t j, m.stage = .draw t j → m.k ≤ rounds
  begun : ∀ y left, m.stage = .square y left → 1 ≤ m.k
  ended : ∀ v, m.stage = .finished v → 1 ≤ m.k

/-- The registers of the unit belong to the running command (rules R48, R96): the Miller–Rabin unit
works for MRTEST (of a candidate that is not rejected, rule R211) and MRROUND only, and draws for
MRTEST only. -/
def Running.unitFits (r : Running) : Prop :=
  ∀ m, r.unit = .mru m →
    match r.instr with
    | some (.mrtest _ _) => preReject r.snap.a = false ∧ m.InTest r.snap.a r.snap.rounds.toNat
    | some (.mrround _ _) => 1 ≤ m.k ∧ ∀ t j, m.stage ≠ .draw t j
    | _ => False

/-- What every step keeps: the ranges of the registers, and what the status and the hidden state
say of each other. -/
structure State.Inv (s : State) : Prop where
  /-- `W` is legal (rule R5). -/
  width : s.params.legal = true
  /-- Every operand register holds an unsigned integer of `W` bits (rules R11, R30). -/
  registers : ∀ r : Reg, s.reg r < 2 ^ s.params.width
  /-- `MR_DONE.COUNT` is at most 256 (rule R43). -/
  count : s.mrDone ≤ 256
  /-- `EQ = 1` and `LT = 1` never hold together (rule R253). -/
  compare : ¬ (s.eq = true ∧ s.lt = true)
  /-- `RESULT = 1` only together with `MRV = PASS` (rule R37). -/
  verdict : s.result = true → s.mrv = .pass
  /-- A command error has a nonzero `ERRCODE` (rule R16). -/
  error : s.err = true → s.errcode ≠ .none
  /-- While busy, DONE, ERR and ERRCODE are 0 (rule R36). -/
  busyStatus : s.busy = true → s.done = false ∧ s.err = false ∧ s.errcode = .none
  /-- The running command is the word in CMD, and the busy interlock keeps the registers at the
  values the snapshot took (rules R39, R89, R118). -/
  running : ∀ r, s.phase = .busy r →
    r.instr = decoded s.cmd ∧ r.snap = s.sample r.instr ∧ r.unitFits
  /-- While `rst = 1` the engine holds the reset state (rule R311). -/
  inReset : s.rst = true → s.resetEngine = s

/-- What an idle engine's state is after the command `word` completed without error, before its
results: CMD holds the word, DONE is 1, ERR and ERRCODE are 0 (rules R36, R39). -/
def State.afterOk (word : Word) (s : State) : State :=
  { s with cmd := word, done := true, err := false, errcode := .none }

/-- What an idle engine's state is after the command `word` ended in the command error `c`
(rules R36, R39, R272, R275). -/
def State.afterError (word : Word) (c : ErrCode) (s : State) : State :=
  { s with cmd := word, done := true, err := true, errcode := c }

/-- The engine's own state: what the outside agents hold is left out. -/
def State.engineOnly (s : State) : State := { s with rng := [], inputs := [], answers := [] }

/-- The witnesses that `DrawWitness(p)` returns one after another over the words presented, from the
start or from a draw in progress (rule R216). -/
def drawsFrom (p : Nat) : Nat → Nat → List Word → List Nat
  | _, _, [] => []
  | t, j, word :: rest =>
    match drawWord p t j word with
    | .more t' j' => drawsFrom p t' j' rest
    | .witness w => w :: drawsFrom p 0 0 rest

/-- The loop of rule R215 over a sequence of draws, after `k` rounds: the verdict, the number of
rounds run and the last witness; `none` if the draws end before the test does. -/
def testOver (p rounds : Nat) (policy : Policy) : Nat → List Nat → Option (Verdict × Nat × Nat)
  | _, [] => none
  | k, w :: draws =>
    let v := roundVerdict p w
    if v = .compositeGcd ∨ v = .compositeWitness then some (v, k + 1, w)
    else if policy = .classic ∧ v = .inconclusive then some (.inconclusive, k + 1, w)
    else if policy = .earlyExit ∧ v = .pass then some (.pass, k + 1, w)
    else if k + 1 < rounds + 1 then testOver p rounds policy (k + 1) draws
    else some (if policy = .classic then .pass else .inconclusive, k + 1, w)

/-- The register a command writes at its completion (rule R31). -/
def destination : Instr → Option Reg
  | .nop => none
  | .mov rd _ => some rd
  | .ldi rd _ => some rd
  | .cmp _ _ => none
  | .montmul rd _ _ _ => some rd
  | .modexp rd _ _ _ => some rd
  | .gcd rd _ _ => some rd
  | .modinv rd _ _ => some rd
  | .mrtest rd _ => some rd
  | .mrround _ _ => none

/-- The command is an MRTEST, the one command that draws witnesses (rule R222). -/
def isMrtest : Instr → Bool
  | .mrtest _ _ => true
  | .nop => false
  | .mov _ _ => false
  | .ldi _ _ => false
  | .cmp _ _ => false
  | .montmul _ _ _ _ => false
  | .modexp _ _ _ _ => false
  | .gcd _ _ _ => false
  | .modinv _ _ _ => false
  | .mrround _ _ => false

end Sys2Proof.Machine
end

