-- ==== Sys2Proof/Certificates/Slice0/Obligations.lean ====
section
/-!
DEFINITION. The statements about the engine, from the numbered rules of the spec.

The engine has no memory (rule R81) and no program counter (rule R33): a frame speaks of the operand
registers, the status and control registers, the hidden state and the ports. `exec i s` on an idle
state `s` is the whole command, acceptance to completion as one atomic step (rule R48), with its
operands taken from `s`; on a busy state it is the running command's completion. A meaning that is
applied to an idle state leaves `s.phase` idle, so the states below are written as updates of `s`.
-/

open Sys2Proof Sys2Proof.Machine

/-! ### Encoding -/

/-- Words written out from the patterns of rule R115 decode as the spec lists them, and the illegal
words it lists decode to nothing. -/
def Obligations.SpecWordsDecodeAsListed : Prop :=
  decode 0x00000000#32 = .ok .nop ∧ decode 0x00001501#32 = .ok (.mov 5 2) ∧
  decode 0x08000902#32 = .ok (.ldi 1 65537) ∧ decode 0xFFFFFF02#32 = .ok (.ldi 7 2097151) ∧
  decode 0x0000E803#32 = .ok (.cmp 5 3) ∧ decode 0x00092408#32 = .ok (.montmul 4 4 4 4) ∧
  decode 0x00005C09#32 = .ok (.modexp 4 3 1 0) ∧ decode 0x00000A10#32 = .ok (.gcd 2 1 0) ∧
  decode 0x00000B11#32 = .ok (.modinv 3 1 0) ∧ decode 0x00003F18#32 = .ok (.mrtest 7 7) ∧
  decode 0x00004019#32 = .ok (.mrround 0 1) ∧
  decoded 0x00000100#32 = none ∧ decoded 0x00100009#32 = none ∧ decoded 0x00000004#32 = none ∧
  decoded 0x000000FF#32 = none ∧ decoded 0x00004119#32 = none ∧ decoded 0x00020A10#32 = none ∧
  decoded 0x00000103#32 = none ∧ decoded 0x80000000#32 = none

/-- The opcode map of rule R115, complete: a word decodes to a command exactly when it is the
command's opcode with its operand fields at their places and every other bit 0. -/
def Obligations.OpcodeMapIsComplete : Prop :=
  ∀ (v : Word) (i : Instr), decode v = .ok i ↔
    (i = .nop ∧ v.toNat = 0x00) ∨
    (∃ rd ra : Reg, i = .mov rd ra ∧ v.toNat = 0x01 + 2 ^ 8 * rd.val + 2 ^ 11 * ra.val) ∨
    (∃ (rd : Reg) (imm : Nat), imm < 2 ^ 21 ∧ i = .ldi rd imm ∧
      v.toNat = 0x02 + 2 ^ 8 * rd.val + 2 ^ 11 * imm) ∨
    (∃ ra rb : Reg, i = .cmp ra rb ∧ v.toNat = 0x03 + 2 ^ 11 * ra.val + 2 ^ 14 * rb.val) ∨
    (∃ rd ra rb rn : Reg, i = .montmul rd ra rb rn ∧
      v.toNat = 0x08 + 2 ^ 8 * rd.val + 2 ^ 11 * ra.val + 2 ^ 14 * rb.val + 2 ^ 17 * rn.val) ∨
    (∃ rd ra rb rn : Reg, i = .modexp rd ra rb rn ∧
      v.toNat = 0x09 + 2 ^ 8 * rd.val + 2 ^ 11 * ra.val + 2 ^ 14 * rb.val + 2 ^ 17 * rn.val) ∨
    (∃ rd ra rb : Reg, i = .gcd rd ra rb ∧
      v.toNat = 0x10 + 2 ^ 8 * rd.val + 2 ^ 11 * ra.val + 2 ^ 14 * rb.val) ∨
    (∃ rd ra rb : Reg, i = .modinv rd ra rb ∧
      v.toNat = 0x11 + 2 ^ 8 * rd.val + 2 ^ 11 * ra.val + 2 ^ 14 * rb.val) ∨
    (∃ rd ra : Reg, i = .mrtest rd ra ∧ v.toNat = 0x18 + 2 ^ 8 * rd.val + 2 ^ 11 * ra.val) ∨
    (∃ ra rb : Reg, i = .mrround ra rb ∧ v.toNat = 0x19 + 2 ^ 11 * ra.val + 2 ^ 14 * rb.val)

/-- Every well-formed command, with every operand at every value, decodes from its own word. -/
def Obligations.DecodeEncodeRoundTrip : Prop :=
  ∀ i : Instr, i.wellFormed = true → decode (encode i) = .ok i

/-- At most one row of the opcode map spells any word (the last paragraph of rule R122). -/
def Obligations.AtMostOneRowSpellsAWord : Prop :=
  ∀ v : Word, ∀ r₁ ∈ opcodeMap, ∀ r₂ ∈ opcodeMap,
    r₁.spells v = true → r₂.spells v = true → r₁ = r₂

/-- Rule R116: a word is illegal exactly when it matches no row of the opcode map, as every word with
an unassigned opcode does. An illegal word is accepted like any command, never a bus error; the engine
becomes busy with the word in CMD and then completes with `ILLEGAL_CMD`, and nothing else changes. -/
def Obligations.IllegalWordCompletesWithIllegalCmd : Prop :=
  (∀ v : Word, decoded v = none ↔ ∀ r ∈ opcodeMap, v &&& r.mask ≠ r.pattern) ∧
  (∀ v : Word, (0x04 ≤ v.toNat % 256 ∧ v.toNat % 256 ≤ 0x07) ∨
    (0x0A ≤ v.toNat % 256 ∧ v.toNat % 256 ≤ 0x0F) ∨
    (0x12 ≤ v.toNat % 256 ∧ v.toNat % 256 ≤ 0x17) ∨ 0x1A ≤ v.toNat % 256 → decoded v = none) ∧
  ∀ (s : State) (v : Word), s.phase = .idle → s.rst = false → decoded v = none →
    s.port (.write .word 0x0010#16 v) = (.writeOkay, s.accept v) ∧
    (s.accept v).busy = true ∧ (s.accept v).cmd = v ∧
    ∀ rest, step { s.accept v with inputs := .engine :: rest }
      = .next { s.afterError v .illegalCmd with inputs := rest }

/-! ### Acceptance and the step -/

/-- Rule R39: a CMD write to an idle engine accepts the word, sets the status as rule R36 says and
takes the operand snapshot, and changes nothing else; while busy it is a bus error that changes
nothing; a read returns the last accepted word, 0 after reset. -/
def Obligations.CommandWriteIsAccepted : Prop :=
  State.reset.cmd = 0x00000000#32 ∧
  ∀ (s : State) (v : Word), s.rst = false →
    (s.phase = .idle → ∃ r : Running,
      s.port (.write .word 0x0010#16 v) = (.writeOkay,
        { s with cmd := v, done := false, err := false, errcode := .none, phase := .busy r }) ∧
      r.instr = decoded v ∧ r.snap = s.sample (decoded v)) ∧
    (∀ r, s.phase = .busy r → s.port (.write .word 0x0010#16 v) = (.error, s)) ∧
    s.port (.read .word 0x0010#16) = (.readOkay s.cmd, s)

/-- Rules R31 and R118: the snapshot holds the values of exactly the operand registers the command
reads, and for MRTEST the policy and the `rounds` argument. -/
def Obligations.SnapshotHoldsTheOperandsRead : Prop :=
  ∀ (s : State) (rd ra rb rn : Reg) (imm : Nat),
    s.sample (some .nop) = ⟨0, 0, 0, .classic, 0#8⟩ ∧
    s.sample (some (.mov rd ra)) = ⟨s.reg ra, 0, 0, .classic, 0#8⟩ ∧
    s.sample (some (.ldi rd imm)) = ⟨0, 0, 0, .classic, 0#8⟩ ∧
    s.sample (some (.cmp ra rb)) = ⟨s.reg ra, s.reg rb, 0, .classic, 0#8⟩ ∧
    s.sample (some (.montmul rd ra rb rn)) = ⟨s.reg ra, s.reg rb, s.reg rn, .classic, 0#8⟩ ∧
    s.sample (some (.modexp rd ra rb rn)) = ⟨s.reg ra, s.reg rb, s.reg rn, .classic, 0#8⟩ ∧
    s.sample (some (.gcd rd ra rb)) = ⟨s.reg ra, s.reg rb, 0, .classic, 0#8⟩ ∧
    s.sample (some (.modinv rd ra rb)) = ⟨s.reg ra, s.reg rb, 0, .classic, 0#8⟩ ∧
    s.sample (some (.mrtest rd ra)) = ⟨s.reg ra, 0, 0, s.mrPolicy, s.mrRounds⟩ ∧
    s.sample (some (.mrround ra rb)) = ⟨s.reg ra, s.reg rb, 0, .classic, 0#8⟩

/-- When the engine has its turn and runs a decoded command, the step is `exec` of that command. That
an empty list of events gives the engine its turn is the model's choice (assumption 22), and so is the
list that orders the agents' turns (assumption 7). -/
def Obligations.StepRunsTheRunningCommand : Prop :=
  ∀ (s : State) (r : Running) (i : Instr),
    s.rst = false → s.phase = .busy r → r.instr = some i →
    (s.inputs = [] → step s = exec i s) ∧
    (∀ rest, s.inputs = .engine :: rest → step s = exec i { s with inputs := rest })

/-- A word placed for the next step is run by that step: `exec` of its command on the idle state
(the placing stands for the host's CMD write; assumption 4). -/
def Obligations.PlacedCommandRunsNext : Prop :=
  ∀ (s : State) (w : Nat) (i : Instr), w < 2 ^ 32 → decodeTableWord 32 w = some i →
    step (s.withFetchWord 32 w) = exec i { s with phase := .idle, rst := false }

/-- Rule R48's one atomic step: a command accepted first and completed later ends as the command
done at once on the idle engine (assumption 3). -/
def Obligations.AcceptedCommandEndsAsAtomicCommand : Prop :=
  ∀ (s : State) (i : Instr), s.phase = .idle → i.wellFormed = true →
    exec i (s.accept (encode i)) = exec i s

/-! ### The commands -/

/-- Rule R250: NOP only completes; the word 0x00000100 is not NOP but illegal; a NOP raises the
interrupt when `IRQ_EN = 1`; STATUS then reads 2 if the flags were 0. -/
def Obligations.NopOnlyCompletes : Prop :=
  ∀ s : State, s.phase = .idle →
    exec .nop s = .next (s.afterOk 0x00000000#32) ∧
    decode 0x00000000#32 = .ok .nop ∧ decoded 0x00000100#32 = none ∧
    ((s.afterOk 0x00000000#32).irq = true ↔ s.irqEn = true) ∧
    (s.result = false → s.eq = false → s.lt = false → s.mrv = .compositeWitness →
      (s.afterOk 0x00000000#32).statusWord = 0x00000002#32)

/-- Rule R251: MOV copies all of `x[ra]` to `x[rd]`. -/
def Obligations.MovCopiesRegister : Prop :=
  ∀ (s : State) (rd ra : Reg), s.phase = .idle →
    let word := BitVec.ofNat 32 (0x01 + 2 ^ 8 * rd.val + 2 ^ 11 * ra.val)
    decode word = .ok (.mov rd ra) ∧
    exec (.mov rd ra) s = .next { s.afterOk word with x := s.x.set rd.val (s.reg ra) }

/-- Rule R252: LDI loads its zero-extended immediate, and every word with the opcode 0x02 is an
LDI. -/
def Obligations.LdiLoadsImmediate : Prop :=
  (∀ v : Word, v.toNat % 256 = 0x02 → ∃ (rd : Reg) (imm : Nat), decode v = .ok (.ldi rd imm) ∧
    rd.val = v.toNat / 2 ^ 8 % 8 ∧ imm = v.toNat / 2 ^ 11) ∧
  ∀ (s : State) (rd : Reg) (imm : Nat), s.phase = .idle → imm < 2 ^ 21 →
    let word := BitVec.ofNat 32 (0x02 + 2 ^ 8 * rd.val + 2 ^ 11 * imm)
    decode word = .ok (.ldi rd imm) ∧
    exec (.ldi rd imm) s = .next { s.afterOk word with x := s.x.set rd.val imm }

/-- Rule R253: CMP sets EQ and LT by the unsigned comparison and writes nothing else. -/
def Obligations.CmpSetsEqAndLt : Prop :=
  ∀ (s : State) (ra rb : Reg), s.phase = .idle →
    let word := BitVec.ofNat 32 (0x03 + 2 ^ 11 * ra.val + 2 ^ 14 * rb.val)
    decode word = .ok (.cmp ra rb) ∧
    exec (.cmp ra rb) s = .next
      { s.afterOk word with
        eq := decide (s.reg ra = s.reg rb), lt := decide (s.reg ra < s.reg rb) }

/-- Rule R141: MONTMUL ends in `EVEN_MODULUS` for an even modulus, else in `RANGE` for an operand not
below it, else writes the `v < n` with `v · 2^W ≡ a · b (mod n)`, which is `a · b · R^-1 mod n`. -/
def Obligations.MontmulRule : Prop :=
  ∀ (s : State) (rd ra rb rn : Reg), s.phase = .idle →
    let word := BitVec.ofNat 32
      (0x08 + 2 ^ 8 * rd.val + 2 ^ 11 * ra.val + 2 ^ 14 * rb.val + 2 ^ 17 * rn.val)
    let a := s.reg ra
    let b := s.reg rb
    let n := s.reg rn
    decode word = .ok (.montmul rd ra rb rn) ∧
    (n % 2 = 0 → exec (.montmul rd ra rb rn) s = .next (s.afterError word .evenModulus)) ∧
    (n % 2 = 1 → n ≤ a ∨ n ≤ b →
      exec (.montmul rd ra rb rn) s = .next (s.afterError word .range)) ∧
    (n % 2 = 1 → a < n → b < n → ∃ v, v < n ∧ v * 2 ^ s.params.width % n = a * b % n ∧
      exec (.montmul rd ra rb rn) s = .next { s.afterOk word with x := s.x.set rd.val v })

/-- Rule R160: MODEXP ends in `EVEN_MODULUS` for an even modulus, else in `RANGE` for a base not
below it, else writes `a^b mod n`, for every exponent. -/
def Obligations.ModexpRule : Prop :=
  ∀ (s : State) (rd ra rb rn : Reg), s.phase = .idle →
    let word := BitVec.ofNat 32
      (0x09 + 2 ^ 8 * rd.val + 2 ^ 11 * ra.val + 2 ^ 14 * rb.val + 2 ^ 17 * rn.val)
    let a := s.reg ra
    let b := s.reg rb
    let n := s.reg rn
    decode word = .ok (.modexp rd ra rb rn) ∧
    (n % 2 = 0 → exec (.modexp rd ra rb rn) s = .next (s.afterError word .evenModulus)) ∧
    (n % 2 = 1 → n ≤ a → exec (.modexp rd ra rb rn) s = .next (s.afterError word .range)) ∧
    (n % 2 = 1 → a < n →
      exec (.modexp rd ra rb rn) s = .next { s.afterOk word with x := s.x.set rd.val (a ^ b % n) })

/-- Rules R180 and R181: GCD writes the common divisor that every common divisor divides (for zero
operands: the other operand, and 0 for two zeros), and never fails. -/
def Obligations.GcdRule : Prop :=
  ∀ (s : State) (rd ra rb : Reg), s.phase = .idle →
    let word := BitVec.ofNat 32 (0x10 + 2 ^ 8 * rd.val + 2 ^ 11 * ra.val + 2 ^ 14 * rb.val)
    decode word = .ok (.gcd rd ra rb) ∧
    ∃ g : Nat, g ∣ s.reg ra ∧ g ∣ s.reg rb ∧
      (∀ d, d ∣ s.reg ra → d ∣ s.reg rb → d ∣ g) ∧
      (s.reg ra = 0 → g = s.reg rb) ∧ (s.reg rb = 0 → g = s.reg ra) ∧
      exec (.gcd rd ra rb) s = .next { s.afterOk word with x := s.x.set rd.val g }

/-- Rules R185 and R189: MODINV ends in `MODULUS` for `m ≤ 1`, else in `NOINV` for a value not prime
to `m`, else writes the `y` in `[1, m)` with `a · y ≡ 1 (mod m)`. -/
def Obligations.ModinvRule : Prop :=
  ∀ (s : State) (rd ra rb : Reg), s.phase = .idle →
    let word := BitVec.ofNat 32 (0x11 + 2 ^ 8 * rd.val + 2 ^ 11 * ra.val + 2 ^ 14 * rb.val)
    let a := s.reg ra
    let m := s.reg rb
    decode word = .ok (.modinv rd ra rb) ∧
    (m ≤ 1 → exec (.modinv rd ra rb) s = .next (s.afterError word .modulus)) ∧
    (1 < m → ¬ Nat.Coprime a m →
      exec (.modinv rd ra rb) s = .next (s.afterError word .noInv)) ∧
    (1 < m → Nat.Coprime a m → ∃ y, 1 ≤ y ∧ y < m ∧ a * y % m = 1 ∧
      exec (.modinv rd ra rb) s = .next { s.afterOk word with x := s.x.set rd.val y })

/-- Rules R211 and R214: MRROUND reports a rejected candidate before anything else, ends in `RANGE`
for a witness outside `[2, p-1]`, else reports the verdict of the round and whether it is PASS. -/
def Obligations.MrroundRule : Prop :=
  ∀ (s : State) (ra rb : Reg), s.phase = .idle →
    let word := BitVec.ofNat 32 (0x19 + 2 ^ 11 * ra.val + 2 ^ 14 * rb.val)
    let p := s.reg ra
    let w := s.reg rb
    decode word = .ok (.mrround ra rb) ∧
    (p ≤ 3 ∨ p % 2 = 0 → exec (.mrround ra rb) s = .next
      { s.afterOk word with result := false, mrv := .rejected }) ∧
    (3 < p → p % 2 = 1 → w < 2 ∨ p - 1 < w →
      exec (.mrround ra rb) s = .next (s.afterError word .range)) ∧
    (3 < p → p % 2 = 1 → 2 ≤ w → w ≤ p - 1 → exec (.mrround ra rb) s = .next
      { s.afterOk word with result := decide (roundVerdict p w = .pass), mrv := roundVerdict p w })

/-- Rule R213: the verdict of a round, in terms of the powers `w^(d·2^j) mod p`. -/
def Obligations.RoundByPowers : Prop :=
  ∀ p w d s : Nat, 3 < p → p % 2 = 1 → 2 ≤ w → w ≤ p - 1 → p - 1 = d * 2 ^ s → d % 2 = 1 →
    (roundVerdict p w = .compositeGcd ↔ 1 < Nat.gcd p w) ∧
    (roundVerdict p w = .pass ↔ Nat.gcd p w = 1 ∧
      (w ^ d % p = 1 ∨ ∃ j < s, w ^ (d * 2 ^ j) % p = p - 1)) ∧
    (roundVerdict p w = .compositeWitness ↔ Nat.gcd p w = 1 ∧ w ^ d % p ≠ 1 ∧
      (∀ j < s, w ^ (d * 2 ^ j) % p ≠ p - 1) ∧ ∃ j < s, w ^ (d * 2 ^ j) % p = 1) ∧
    (roundVerdict p w = .inconclusive ↔ Nat.gcd p w = 1 ∧
      ∀ j < s, w ^ (d * 2 ^ j) % p ≠ 1 ∧ w ^ (d * 2 ^ j) % p ≠ p - 1)

/-- Rule R212: the decomposition of an odd candidate above 3. -/
def Obligations.DecompositionOfCandidate : Prop :=
  ∀ p : Nat, 3 < p → p % 2 = 1 →
    p - 1 = decomposeD p * 2 ^ decomposeS p ∧ decomposeD p % 2 = 1 ∧
    1 ≤ decomposeS p ∧ 1 ≤ decomposeD p

/-- Rules R211 and R215: MRTEST reports a rejected candidate with no draw; otherwise, when the words
presented let the loop of rule R215 end, it reports that loop's verdict, rounds and last witness, and
has taken exactly the words of its draws. -/
def Obligations.MrtestRule : Prop :=
  ∀ (s : State) (rd ra : Reg), s.phase = .idle →
    let word := BitVec.ofNat 32 (0x18 + 2 ^ 8 * rd.val + 2 ^ 11 * ra.val)
    let p := s.reg ra
    decode word = .ok (.mrtest rd ra) ∧
    (p ≤ 3 ∨ p % 2 = 0 → exec (.mrtest rd ra) s = .next
      { s.afterOk word with
        x := s.x.set rd.val 0, result := false, mrv := .rejected, mrDone := 0 }) ∧
    (3 < p → p % 2 = 1 → ∀ v k w,
      testOver p s.mrRounds.toNat s.mrPolicy 0 (drawsFrom p 0 0 s.rng) = some (v, k, w) →
      ∃ used rest, s.rng = used ++ rest ∧ (drawsFrom p 0 0 used).length = k ∧
        (drawsFrom p 0 0 used.dropLast).length < k ∧
        exec (.mrtest rd ra) s = .next
          { s.afterOk word with
            x := s.x.set rd.val w, result := decide (v = .pass), mrv := v, mrDone := k,
            rng := rest })

/-- Rules R96 and R293: when the words presented run out first, MRTEST stays busy with `rng_ready`
raised, for ever if no word comes, having written nothing; and when more words come it ends as if
they had been there from the start. That `rng_ready` IS raised while the unit waits is DEDUCED
(assumption 9), and that presented words wait in a list is the model's choice (assumption 8). -/
def Obligations.MrtestWaitsForEntropy : Prop :=
  ∀ (s : State) (rd ra : Reg), s.phase = .idle → s.rst = false →
    3 < s.reg ra → s.reg ra % 2 = 1 →
    testOver (s.reg ra) s.mrRounds.toNat s.mrPolicy 0 (drawsFrom (s.reg ra) 0 0 s.rng) = none →
    ∃ r : Running,
      let t : State := { s with
        cmd := BitVec.ofNat 32 (0x18 + 2 ^ 8 * rd.val + 2 ^ 11 * ra.val),
        done := false, err := false, errcode := .none, phase := .busy r, rng := [] }
      exec (.mrtest rd ra) s = .next t ∧ t.rngReady = true ∧
      exec (.mrtest rd ra) t = .next t ∧
      ∀ words, exec (.mrtest rd ra) { t with rng := words }
        = exec (.mrtest rd ra) { s with rng := s.rng ++ words }

/-- Rule R216: `DrawWitness(p)` by rejection sampling. A pass takes `k = ceil(L / 32)` words, least
significant first, keeps the low `L` bits, and returns them plus 2 if they are at most `p - 3`; else
a new pass begins. -/
def Obligations.DrawWitnessByRejection : Prop :=
  ∀ (p L : Nat) (batch rest : List Word), 3 < p → p % 2 = 1 →
    2 ^ (L - 1) ≤ p - 3 → p - 3 < 2 ^ L → batch.length = (L + 31) / 32 →
    let t := Nat.ofDigits (2 ^ 32) (batch.map BitVec.toNat) % 2 ^ L
    (t ≤ p - 3 → drawWitness p 0 0 (batch ++ rest) = some (t + 2, rest)) ∧
    (p - 3 < t → drawWitness p 0 0 (batch ++ rest) = drawWitness p 0 0 rest)

/-- A draw is any value in `[2, p-1]` and no other (rule R216's note for a model). -/
def Obligations.DrawsCoverExactlyTheWitnesses : Prop :=
  ∀ p : Nat, 3 < p → p % 2 = 1 →
    (∀ words w rest, drawWitness p 0 0 words = some (w, rest) → 2 ≤ w ∧ w ≤ p - 1) ∧
    (∀ w, 2 ≤ w → w ≤ p - 1 → ∃ words, drawWitness p 0 0 words = some (w, []))

/-- Rule R220 (a) for MRROUND: a prime above 3 passes the round of every legal witness. -/
def Obligations.MrroundPassesPrimes : Prop :=
  ∀ (s : State) (ra rb : Reg), s.phase = .idle → (s.reg ra).Prime → 3 < s.reg ra →
    2 ≤ s.reg rb → s.reg rb ≤ s.reg ra - 1 →
    ∃ t, exec (.mrround ra rb) s = .next t ∧ t.result = true ∧ t.mrv = .pass ∧
      t.done = true ∧ t.err = false

/-- Rule R220 (a) for MRTEST: for a prime above 3 and every sequence of draws long enough, RESULT is
1, after `ROUNDS + 1` rounds under CLASSIC and after one under EARLY_EXIT. -/
def Obligations.MrtestAcceptsPrimes : Prop :=
  ∀ (s : State) (rd ra : Reg), s.phase = .idle → (s.reg ra).Prime → 3 < s.reg ra →
    (s.mrPolicy = .classic → s.mrRounds.toNat + 1 ≤ (drawsFrom (s.reg ra) 0 0 s.rng).length →
      ∃ t, exec (.mrtest rd ra) s = .next t ∧ t.phase = .idle ∧ t.result = true ∧
        t.mrv = .pass ∧ t.mrDone = s.mrRounds.toNat + 1) ∧
    (s.mrPolicy = .earlyExit → 1 ≤ (drawsFrom (s.reg ra) 0 0 s.rng).length →
      ∃ t, exec (.mrtest rd ra) s = .next t ∧ t.phase = .idle ∧ t.result = true ∧
        t.mrv = .pass ∧ t.mrDone = 1)

/-! ### Frames, errors and completion -/

/-- Rules R31 and R46 for NOP, MOV, LDI, MONTMUL, MODEXP, GCD and MODINV, on any state: no register
but the destination, no flag RESULT, EQ, LT or MRV, and no other control register, port or queue
changes; CMD holds the command's word (it is written at acceptance). -/
def Obligations.ArithmeticCommandsFrame : Prop :=
  ∀ (i : Instr) (s t : State),
    (∀ ra rb, i ≠ .cmp ra rb) → (∀ rd ra, i ≠ .mrtest rd ra) → (∀ ra rb, i ≠ .mrround ra rb) →
    exec i s = .next t →
    (∀ r, destination i ≠ some r → t.reg r = s.reg r) ∧
    t.result = s.result ∧ t.eq = s.eq ∧ t.lt = s.lt ∧ t.mrv = s.mrv ∧
    t.irqEn = s.irqEn ∧ t.mrPolicy = s.mrPolicy ∧ t.mrRounds = s.mrRounds ∧
    t.mrDone = s.mrDone ∧ t.params = s.params ∧ t.rst = s.rst ∧ t.rng = s.rng ∧
    t.inputs = s.inputs ∧ t.answers = s.answers ∧
    t.cmd = (if s.busy then s.cmd else encode i)

/-- Rules R31, R37 and R253 for CMP, on any state: no register, and no flag but EQ and LT. -/
def Obligations.CompareFrame : Prop :=
  ∀ (ra rb : Reg) (s t : State), exec (.cmp ra rb) s = .next t →
    t.x = s.x ∧ t.result = s.result ∧ t.mrv = s.mrv ∧
    t.irqEn = s.irqEn ∧ t.mrPolicy = s.mrPolicy ∧ t.mrRounds = s.mrRounds ∧
    t.mrDone = s.mrDone ∧ t.params = s.params ∧ t.rst = s.rst ∧ t.rng = s.rng ∧
    t.inputs = s.inputs ∧ t.answers = s.answers ∧
    t.cmd = (if s.busy then s.cmd else encode (.cmp ra rb))

/-- Rules R31, R37, R214, R215 and R222 for the Miller–Rabin commands, on any state: MRROUND writes
no register, not MR_DONE, and takes no entropy word; MRTEST writes no register but its destination
and takes words from the front of those presented; neither touches EQ, LT or another control
register. -/
def Obligations.MillerRabinFrame : Prop :=
  (∀ (ra rb : Reg) (s t : State), exec (.mrround ra rb) s = .next t →
    t.x = s.x ∧ t.mrDone = s.mrDone ∧ t.rng = s.rng ∧ t.eq = s.eq ∧ t.lt = s.lt ∧
    t.irqEn = s.irqEn ∧ t.mrPolicy = s.mrPolicy ∧ t.mrRounds = s.mrRounds ∧
    t.params = s.params ∧ t.rst = s.rst ∧ t.inputs = s.inputs ∧ t.answers = s.answers ∧
    t.cmd = (if s.busy then s.cmd else encode (.mrround ra rb))) ∧
  (∀ (rd ra : Reg) (s t : State), exec (.mrtest rd ra) s = .next t →
    (∀ r, r ≠ rd → t.reg r = s.reg r) ∧ (∃ used, s.rng = used ++ t.rng) ∧
    t.eq = s.eq ∧ t.lt = s.lt ∧
    t.irqEn = s.irqEn ∧ t.mrPolicy = s.mrPolicy ∧ t.mrRounds = s.mrRounds ∧
    t.params = s.params ∧ t.rst = s.rst ∧ t.inputs = s.inputs ∧ t.answers = s.answers ∧
    t.cmd = (if s.busy then s.cmd else encode (.mrtest rd ra)))

/-- Rule R275: a command error is precise. Whatever command ends in one, the state is the state
before it but for BUSY, DONE, ERR and ERRCODE (and CMD, written at acceptance), and an illegal word's
error changes the same four. -/
def Obligations.CommandErrorsArePrecise : Prop :=
  (∀ (i : Instr) (s t : State), s.phase = .idle → exec i s = .next t → t.err = true →
    t.errcode ≠ .none ∧ t = s.afterError (encode i) t.errcode) ∧
  (∀ (s : State) (r : Running), s.rst = false → s.phase = .busy r → r.instr = none →
    engineTurn s = .next
      { s with phase := .idle, done := true, err := true, errcode := .illegalCmd })

/-- Rules R292 and R326: no command ever stops the engine, and every command but MRTEST completes:
the engine is idle again with DONE set. -/
def Obligations.CommandsButMrtestComplete : Prop :=
  (∀ (i : Instr) (s : State), isMrtest i = false →
    ∃ t, exec i s = .next t ∧ t.phase = .idle ∧ t.done = true) ∧
  (∀ (rd ra : Reg) (s : State), ∃ t, exec (.mrtest rd ra) s = .next t ∧
    (t.phase = .idle ∧ t.done = true ∨ t.busy = true ∧ t.rng = []))

/-- Rule R48: the steps of the units inside a running command never show. From any state that meets
the invariant, the command ends the same whether or not the unit took a step first. -/
def Obligations.UnitStepsNeverShow : Prop :=
  ∀ (s : State) (r : Running) (i : Instr), s.Inv → s.phase = .busy r → r.instr = some i →
    exec i s.stepUnit = exec i s

/-! ### The host port -/

/-- Rules R83 and R85: on an idle engine every existing window word of a register reads as its bits
`[32j+31 : 32j]`; a write is read back, leaves every other window word as it was, and changes nothing
but the register. -/
def Obligations.WindowWordsReadBack : Prop :=
  ∀ (s : State) (r : Reg) (j : Nat) (v : Word),
    s.phase = .idle → s.rst = false → s.params.legal = true → j < s.params.nw →
    let at_ (r : Reg) (j : Nat) : Addr := BitVec.ofNat 16 (0x1000 + 0x200 * r.val + 4 * j)
    s.port (.read .word (at_ r j)) =
      (.readOkay (BitVec.ofNat 32 (s.reg r / 2 ^ (32 * j))), s) ∧
    ∃ x', s.port (.write .word (at_ r j) v) = (.writeOkay, { s with x := x' }) ∧
      ({ s with x := x' } : State).port (.read .word (at_ r j))
        = (.readOkay v, { s with x := x' }) ∧
      (∀ r' j', j' < s.params.nw → r' ≠ r ∨ j' ≠ j →
        (({ s with x := x' } : State).port (.read .word (at_ r' j'))).1
          = (s.port (.read .word (at_ r' j'))).1)

/-- Rules R83, R86 and R121: from any idle state that meets the invariant, the `NW` writes of
`LOADW r, v` load exactly `v` into `x[r]`, each answered okay. -/
def Obligations.LoadwLoadsTheOperand : Prop :=
  ∀ (s : State) (r : Reg) (v : Nat) (rest : List Event),
    s.Inv → s.phase = .idle → s.rst = false → v < 2 ^ s.params.width →
    Host.Core.run core s.params.nw { s with inputs := loadw s.params.nw r v ++ rest } = .next
      { s with
        x := s.x.set r.val v, inputs := rest,
        answers := List.replicate s.params.nw .writeOkay ++ s.answers }

/-- Rule R87: an access that is not a word access at a word-aligned address is a bus error with no
effect, whatever the address and the state. That the step is a fault of the host is the treatment rule
R280 asks of a model, as assumption 5 takes it. -/
def Obligations.NarrowOrMisalignedAccessIsBusError : Prop :=
  ∀ (s : State) (size : AccessSize) (addr : Addr) (v : Word),
    size ≠ .word ∨ addr.toNat % 4 ≠ 0 →
    ∀ a ∈ [Access.read size addr, Access.write size addr v],
      s.port a = (.error, s) ∧ ∃ e, ∀ rest,
        step { s with inputs := .access a :: rest } = .fault (.busError a e)

/-- Rules R82 and R88: an access of any size to an address where the map has nothing (0x0020 to
0x0FFF, 0x2000 and above, and window words `j ≥ NW`) is a bus error with no effect, in every state; and
an idle engine out of reset answers an aligned word access at every other address. -/
def Obligations.UnmappedAccessIsBusError : Prop :=
  ∀ (s : State) (addr : Addr) (v : Word),
    let unmapped := (0x20 ≤ addr.toNat ∧ addr.toNat < 0x1000) ∨ 0x2000 ≤ addr.toNat ∨
      (0x1000 ≤ addr.toNat ∧ s.params.nw ≤ addr.toNat % 0x200 / 4)
    (unmapped → ∀ size, ∀ a ∈ [Access.read size addr, Access.write size addr v],
      s.port a = (.error, s)) ∧
    (s.phase = .idle → s.rst = false → addr.toNat % 4 = 0 → ¬ unmapped →
      ∀ a ∈ [Access.read .word addr, Access.write .word addr v], (s.port a).1 ≠ .error)

/-- Rule R89, the busy interlock, case by case. -/
def Obligations.BusyInterlock : Prop :=
  ∀ (s : State) (run : Running) (v : Word) (r : Reg) (j : Nat),
    s.phase = .busy run → s.rst = false → s.params.legal = true → j < s.params.nw →
    let window : Addr := BitVec.ofNat 16 (0x1000 + 0x200 * r.val + 4 * j)
    (∀ p ∈ [(0x0000#16, ControlReg.id), (0x0004#16, .param), (0x0008#16, .ctrl),
      (0x000C#16, .status), (0x0010#16, .cmd), (0x0014#16, .errcode), (0x0018#16, .mrRounds),
      (0x001C#16, .mrDone)], s.port (.read .word p.1) = (.readOkay (s.readControl p.2), s)) ∧
    s.port (.read .word window) = (.error, s) ∧
    s.port (.write .word window v) = (.error, s) ∧
    s.port (.write .word 0x0010#16 v) = (.error, s) ∧
    s.port (.write .word 0x0018#16 v) = (.error, s) ∧
    (v.getLsbD 31 = true →
      s.port (.write .word 0x0008#16 v) = (.writeOkay, s.resetEngine)) ∧
    (v.getLsbD 31 = false → s.port (.write .word 0x0008#16 v) = (.error, s)) ∧
    s.port (.write .word 0x000C#16 v) = (.writeOkay, s.clearStatus v) ∧
    (s.done = false → s.err = false → s.clearStatus v = s) ∧
    (∀ addr ∈ [0x0000#16, 0x0004#16, 0x0014#16, 0x001C#16],
      s.port (.write .word addr v) = (.writeOkay, s))

/-- Rule R36's host write: a write to STATUS clears DONE by bit 1 and ERR by bit 2 and does nothing
else, busy or idle. -/
def Obligations.StatusWriteClearsDoneAndErr : Prop :=
  ∀ (s : State) (v : Word), s.rst = false →
    s.port (.write .word 0x000C#16 v) = (.writeOkay,
      { s with done := s.done && !v.getLsbD 1, err := s.err && !v.getLsbD 2 })

/-- Rules R34, R38, R44 and R45: the other writes to control registers of an idle engine. CTRL takes
bits 0 and 1, MR_ROUNDS bits 7 to 0; reserved bits read 0 afterwards; read-only registers ignore
writes. -/
def Obligations.ControlWritesTakeTheirFields : Prop :=
  ∀ (s : State) (v : Word), s.phase = .idle → s.rst = false →
    (v.getLsbD 31 = false → ∃ t, s.port (.write .word 0x0008#16 v) = (.writeOkay, t) ∧
      t = { s with
        irqEn := v.getLsbD 0,
        mrPolicy := if v.getLsbD 1 then Policy.earlyExit else Policy.classic } ∧
      t.port (.read .word 0x0008#16) = (.readOkay (v &&& 3#32), t)) ∧
    (∃ t, s.port (.write .word 0x0018#16 v) = (.writeOkay, t) ∧
      t = { s with mrRounds := v.setWidth 8 } ∧
      t.port (.read .word 0x0018#16) = (.readOkay (v &&& 0xFF#32), t)) ∧
    (∀ addr ∈ [0x0000#16, 0x0004#16, 0x0014#16, 0x001C#16],
      s.port (.write .word addr v) = (.writeOkay, s))

/-- Rules R35, R37 and R38: the STATUS and CTRL words, bit by bit. -/
def Obligations.StatusAndCtrlWordsBitByBit : Prop :=
  ∀ s : State,
    s.statusWord.getLsbD 0 = s.busy ∧ s.statusWord.getLsbD 1 = s.done ∧
    s.statusWord.getLsbD 2 = s.err ∧ s.statusWord.getLsbD 3 = s.result ∧
    s.statusWord.getLsbD 4 = s.eq ∧ s.statusWord.getLsbD 5 = s.lt ∧
    s.statusWord.getLsbD 6 = false ∧ s.statusWord.getLsbD 7 = false ∧
    (s.statusWord.toNat / 2 ^ 8 % 8 = match s.mrv with
      | .compositeWitness => 0
      | .pass => 1
      | .inconclusive => 2
      | .compositeGcd => 3
      | .rejected => 4) ∧
    (∀ k, 11 ≤ k → s.statusWord.getLsbD k = false) ∧
    s.ctrlWord.getLsbD 0 = s.irqEn ∧
    (s.ctrlWord.getLsbD 1 = true ↔ s.mrPolicy = .earlyExit) ∧
    (∀ k, 2 ≤ k → s.ctrlWord.getLsbD k = false)

/-- Rules R40 to R44: what the other control registers read as, in a state that meets the
invariant. -/
def Obligations.OtherControlWords : Prop :=
  ∀ s : State, s.Inv → s.rst = false →
    s.port (.read .word 0x0000#16) = (.readOkay 0x52534107#32, s) ∧
    (∃ w, s.port (.read .word 0x0004#16) = (.readOkay w, s) ∧
      w.toNat = s.params.width / 32 + 2 ^ 16 * 8) ∧
    (∃ w, s.port (.read .word 0x0014#16) = (.readOkay w, s) ∧ w.toNat = match s.errcode with
      | .none => 0
      | .illegalCmd => 1
      | .evenModulus => 2
      | .range => 3
      | .modulus => 4
      | .noInv => 5) ∧
    (∃ w, s.port (.read .word 0x0018#16) = (.readOkay w, s) ∧ w.toNat = s.mrRounds.toNat) ∧
    (∃ w, s.port (.read .word 0x001C#16) = (.readOkay w, s) ∧ w.toNat = s.mrDone ∧
      w.toNat ≤ 256)

/-- Rules R84, R91 and R280: a read never changes the engine; an access answered with error changes
nothing, returns the data 0, and is a fault of the host (assumption 5); any other access lets the
machine go on with the answer given. For a write the data 0 is the model's choice (assumption 24), and
so is the list in which the answers are kept (assumption 13). -/
def Obligations.AccessesAreAnsweredOrFault : Prop :=
  ∀ (s : State) (a : Access) (rest : List Event),
    (∀ size addr, (s.port (.read size addr)).2 = s) ∧
    ((s.port a).1 = .error → (s.port a).2 = s ∧ (s.port a).1.data = 0#32 ∧
      ∃ e, step { s with inputs := .access a :: rest } = .fault (.busError a e)) ∧
    ((s.port a).1 ≠ .error → ∃ t, step { s with inputs := .access a :: rest } = .next t ∧
      t.answers = (s.port a).1 :: s.answers)

/-- Rules R278 and R279: `irq` is `IRQ_EN AND DONE`, 0 after reset; it is asserted by every completion of a command while `IRQ_EN = 1`,
successful or not, and is cleared by an acceptance, by writing 1 to DONE and by a reset; setting or
clearing `IRQ_EN` while DONE is 1 asserts or deasserts it at once. -/
def Obligations.InterruptFollowsCompletion : Prop :=
  State.reset.irq = false ∧
  ∀ (s : State) (v : Word),
    s.irq = (s.irqEn && s.done) ∧
    (∀ i t, s.phase = .idle → exec i s = .next t → t.phase = .idle → t.irq = s.irqEn) ∧
    (s.accept v).irq = false ∧
    (v.getLsbD 1 = true → (s.clearStatus v).irq = false) ∧
    s.resetEngine.irq = false ∧
    (s.done = true → v.getLsbD 31 = false →
      (s.writeCtrl v).irq = v.getLsbD 0 ∧ (s.writeCtrl v).done = true)

/-! ### Reset -/

/-- Rule R50: the state after a soft or a hard reset, register by register as the host reads it; and
the model's reset state is that state for `W = 1024`. -/
def Obligations.ResetValues : Prop :=
  (∀ s t : State, s.params.legal = true → t = s.resetEngine ∨ t = s.clockReset true →
    (∀ r : Reg, t.reg r = 0) ∧
    t.readControl .id = 0x52534107#32 ∧
    (t.readControl .param).toNat = s.params.width / 32 + 2 ^ 16 * 8 ∧
    t.readControl .ctrl = 0x00000000#32 ∧
    t.readControl .status = 0x00000000#32 ∧
    t.readControl .cmd = 0x00000000#32 ∧
    t.readControl .errcode = 0x00000000#32 ∧
    t.readControl .mrRounds = 0x00000028#32 ∧
    t.readControl .mrDone = 0x00000000#32 ∧
    t.phase = .idle ∧ t.irq = false ∧ t.rngReady = false) ∧
  State.reset.resetEngine = State.reset ∧ State.reset.params.width = 1024 ∧
  State.reset.readControl .param = 0x00080020#32

/-- Rule R312: a CTRL write with bit 31 set is answered okay, busy or idle, abandons the
running command and puts every piece of the engine's state into its reset value; the other bits of
the word are ignored. -/
def Obligations.SoftResetRestoresResetState : Prop :=
  ∀ (s : State) (v : Word), s.rst = false → v.getLsbD 31 = true →
    (s.port (.write .word 0x0008#16 v)).1 = .writeOkay ∧
    (s.port (.write .word 0x0008#16 v)).2.engineOnly = State.resetFor s.params

/-- Rule R311: a clock edge with `rst = 1` puts the engine into the reset state; while it is held,
every access is answered with error, nothing else happens inside the engine, and `irq` and
`rng_ready` are 0; the edge with `rst = 0` leaves the reset state, in which accesses are performed. -/
def Obligations.HardResetHoldsResetState : Prop :=
  ∀ (s : State) (rest : List Event),
    ∃ held, step { s with inputs := .rst true :: rest } = .next held ∧
      held.engineOnly = { State.resetFor s.params with rst := true } ∧
      held.irq = false ∧ held.rngReady = false ∧
      (∀ a, held.port a = (.error, held)) ∧
      (∀ e ∈ [Event.engine, Event.unitStep],
        step { held with inputs := e :: rest } = .next { held with inputs := rest }) ∧
      ∃ t, step { held with inputs := .rst false :: rest } = .next t ∧
        t.engineOnly = State.resetFor s.params ∧
        t.port (.read .word 0x0000#16) = (.readOkay 0x52534107#32, t)

/-! ### The invariant and the rules about the whole machine -/

/-- The invariant holds right after reset. -/
def Obligations.InvariantHoldsAtReset : Prop := State.reset.Inv

/-- Every step keeps the invariant, from every state that meets it: registers stay below `2^W` (no
result overflows, rules R145, R164, R184), MR_DONE stays at most 256, the status bits stay consistent
and the snapshot stays the registers' (rules R36, R37, R43, R118). -/
def Obligations.StepKeepsInvariant : Prop :=
  ∀ s t : State, s.Inv → step s = .next t → t.Inv

/-- Rule R32: an operand register changes only when the host writes one of its words, a command
writes it as its destination at completion, or a reset clears it. -/
def Obligations.RegistersChangeOnlyAsTold : Prop :=
  ∀ (s t : State) (r : Reg), step s = .next t → t.reg r ≠ s.reg r →
    (∃ size addr v rest j, s.inputs = .access (.write size addr v) :: rest ∧
      placeAt s.params.nw addr = some (.window r j)) ∨
    (∃ run i, s.phase = .busy run ∧ run.instr = some i ∧ destination i = some r ∧
      t.phase = .idle ∧ t.done = true) ∨
    ((∀ r', t.reg r' = 0) ∧ t.phase = .idle ∧ t.done = false ∧
      (s.inputs.head? = some (.rst true) ∨ ∃ v, v.getLsbD 31 = true ∧
        s.inputs.head? = some (.access (.write .word 0x0008#16 v))))

/-- Rules R37, R43 and R46: EQ and LT change only by a CMP, RESULT and MRV only by an MRROUND or an
MRTEST, MR_DONE only by an MRTEST, or by a reset. -/
def Obligations.FlagsChangeOnlyByTheirCommands : Prop :=
  ∀ s t : State, step s = .next t →
    ((∃ run ra rb, s.phase = .busy run ∧ run.instr = some (.cmp ra rb)) ∨
      (s.inputs.head? = some (.rst true) ∨ ∃ v, v.getLsbD 31 = true ∧
        s.inputs.head? = some (.access (.write .word 0x0008#16 v))) ∨
      t.eq = s.eq ∧ t.lt = s.lt) ∧
    ((∃ run ra rb, s.phase = .busy run ∧
        (run.instr = some (.mrround ra rb) ∨ run.instr = some (.mrtest ra rb))) ∨
      (s.inputs.head? = some (.rst true) ∨ ∃ v, v.getLsbD 31 = true ∧
        s.inputs.head? = some (.access (.write .word 0x0008#16 v))) ∨
      t.result = s.result ∧ t.mrv = s.mrv) ∧
    ((∃ run rd ra, s.phase = .busy run ∧ run.instr = some (.mrtest rd ra)) ∨
      (s.inputs.head? = some (.rst true) ∨ ∃ v, v.getLsbD 31 = true ∧
        s.inputs.head? = some (.access (.write .word 0x0008#16 v))) ∨
      t.mrDone = s.mrDone)

/-! ### The reference datapaths and the source's properties -/

/-- Rules R142 and R143: the Montgomery datapath keeps `T < 2n` and
`T · 2^i ≡ (a mod 2^i) · b (mod n)` after `i` steps, and returns the Montgomery product. The spec marks
both rules' claims as its own inference (`[derived: ...]`, GK2), so this is no stated rule. -/
def Obligations.MontgomeryDatapathIsCorrect : Prop :=
  ∀ a b n : Nat, n % 2 = 1 → a < n → b < n →
    (∀ i, montAccum a b n i < 2 * n ∧
      montAccum a b n i * 2 ^ i % n = a % 2 ^ i * b % n) ∧
    (∀ width, a < 2 ^ width → montDatapath width a b n = montProd width a b n)

/-- Rules R161 and R162: square-and-multiply over all `W` exponent bits in the Montgomery domain
returns `a^b mod n`, whatever the width. -/
def Obligations.ModExpDatapathIsCorrect : Prop :=
  ∀ width a b n : Nat, n % 2 = 1 → a < n → b < 2 ^ width →
    modExpDatapath width a b n = a ^ b % n

/-- Rule R182: the binary GCD returns the gcd, zeros included. -/
def Obligations.BinaryGcdIsCorrect : Prop :=
  ∀ a b : Nat, binGcd a b = Nat.gcd a b

/-- Rule R187: on the domain of MODINV the source's recursive formula gives MODINV's result, and for
a pair that is not coprime it gives no value. -/
def Obligations.SourceFormulaAgreesWithModinv : Prop :=
  ∀ a m : Nat, 1 < m → 1 ≤ a →
    (Nat.Coprime a m → sourceInverse a m = some (inv a m : Int)) ∧
    (¬ Nat.Coprime a m → sourceInverse a m = none)

/-- Rule R144: the Montgomery-domain identities for an odd modulus above 1. -/
def Obligations.MontgomeryDomainIdentities : Prop :=
  ∀ width a b n : Nat, n % 2 = 1 → 1 < n → a < n → b < n →
    let R := 2 ^ width
    montProd width a (R ^ 2 % n) n = a * R % n ∧
    montProd width (a * R % n) (b * R % n) n = a * b * R % n ∧
    montProd width (a * R % n) 1 n = a

/-- Rule R163, the round trip of encryption and decryption (and of signing and verifying), for a
modulus of two distinct odd primes (an even modulus is refused): MODEXP by `e`, then by `d`, gives
back every message below `n`, and both commands complete without error. The first result must not
overwrite the modulus or the second exponent; an even modulus, and those aliases, are `ModexpRule`'s. -/
def Obligations.RsaRoundTrip : Prop :=
  ∀ (s : State) (p q e d : Nat) (rc rt rm re rk rn : Reg), s.phase = .idle →
    p.Prime → q.Prime → p ≠ q → p % 2 = 1 → q % 2 = 1 →
    e * d % ((p - 1) * (q - 1)) = 1 →
    s.reg rn = p * q → s.reg re = e → s.reg rk = d → s.reg rm < p * q →
    rc ≠ rn → rc ≠ rk →
    ∃ t u, exec (.modexp rc rm re rn) s = .next t ∧ exec (.modexp rt rc rk rn) t = .next u ∧
      t.done = true ∧ t.err = false ∧ u.done = true ∧ u.err = false ∧ u.reg rt = s.reg rm

/-- Rules R121 and R163: `VERIFY` is MODEXP then CMP, and EQ is the source's
`M == S^e mod n`. -/
def Obligations.VerifySetsEq : Prop :=
  ∀ (s : State) (rt rm rs re rn : Reg), s.phase = .idle →
    s.reg rn % 2 = 1 → s.reg rs < s.reg rn → rm ≠ rt →
    Pseudo.expand (.verify rt rm rs re rn) = [.modexp rt rs re rn, .cmp rt rm] ∧
    ∃ t u, exec (.modexp rt rs re rn) s = .next t ∧ exec (.cmp rt rm) t = .next u ∧
      (u.eq = true ↔ s.reg rm = s.reg rs ^ s.reg re % s.reg rn)
end

