-- ==== Sys2Proof/Laws/Arith.lean ====
section
/-!
SUPPORT. What the arithmetic of `Machine/Arith.lean` computes: the power, the modular inverse, the
Montgomery product and the power of two in a number, each once.
-/

namespace Sys2Proof.Machine

theorem lt_two_pow_bitLen (v : Nat) : v < 2 ^ bitLen v := by
  unfold bitLen
  split
  · next h => subst h; decide
  · exact Nat.lt_log2_self

theorem bitLen_le {v w : Nat} (h : v < 2 ^ w) : bitLen v ≤ w := by
  unfold bitLen
  split
  · exact Nat.zero_le _
  · next h0 => exact (Nat.log2_lt h0).mpr h

theorem powModBits_eq (n a len b : Nat) (h : b < 2 ^ len) : powModBits n a len b = a ^ b % n := by
  induction len generalizing b with
  | zero =>
    have : b = 0 := by simpa using h
    subst this; simp [powModBits]
  | succ len ih =>
    have hb : b / 2 < 2 ^ len := by rw [Nat.div_lt_iff_lt_mul two_pos, ← pow_succ]; exact h
    have key : a ^ (b / 2) % n * (a ^ (b / 2) % n) % n = a ^ (b / 2 + b / 2) % n := by
      rw [← Nat.mul_mod, ← pow_add]
    simp only [powModBits, ih _ hb, key]
    split
    · next h1 =>
      conv_rhs => rw [show b = b / 2 + b / 2 + 1 by omega, pow_succ]
      rw [Nat.mul_mod, Nat.mod_mod, ← Nat.mul_mod]
    · next h1 => congr 2; omega

/-- MODEXP's function is the mathematical `a^b mod n` (rules R160, R161). -/
theorem modExp_eq (a b n : Nat) : modExp a b n = a ^ b % n :=
  powModBits_eq n a _ b (lt_two_pow_bitLen b)

/-- The extended Euclidean loop returns the gcd and a coefficient of it modulo `m` (rule R188). -/
theorem extEuclidLoop_spec (a m : Int) (fuel r0 r1 : Nat) (t0 t1 : Int) (hf : r1 ≤ fuel)
    (h0 : a * t0 ≡ r0 [ZMOD m]) (h1 : a * t1 ≡ r1 [ZMOD m]) :
    (extEuclidLoop fuel r0 r1 t0 t1).1 = Nat.gcd r0 r1 ∧
      a * (extEuclidLoop fuel r0 r1 t0 t1).2 ≡ (Nat.gcd r0 r1 : Nat) [ZMOD m] := by
  induction fuel generalizing r0 r1 t0 t1 with
  | zero =>
    obtain rfl : r1 = 0 := by omega
    simpa [extEuclidLoop] using h0
  | succ fuel ih =>
    unfold extEuclidLoop
    split
    · next h => subst h; simpa using h0
    · next h =>
      have hr : r0 - r0 / r1 * r1 = r0 % r1 := by
        have := Nat.div_add_mod r0 r1
        rw [mul_comm] at this; omega
      have hlt : r0 % r1 < r1 := Nat.mod_lt _ (by omega)
      have hg : Nat.gcd r0 r1 = Nat.gcd r1 (r0 % r1) := by
        rw [Nat.gcd_comm r0 r1, Nat.gcd_rec r1 r0, Nat.gcd_comm]
      rw [hr, hg]
      refine ih r1 (r0 % r1) t1 _ (by omega) h1 ?_
      have hz : ((r0 % r1 : Nat) : Int) = r0 - (r0 / r1 : Nat) * r1 := by
        have := Nat.div_add_mod r0 r1
        zify at this ⊢
        linarith
      rw [hz, mul_sub, mul_left_comm]
      exact h0.sub (h1.mul_left _)

theorem extEuclid_spec (a m : Nat) (hm : 0 < m) :
    (extEuclid a m).1 = Nat.gcd a m ∧
      (a : Int) * (extEuclid a m).2 ≡ (Nat.gcd a m : Nat) [ZMOD m] := by
  have hg : Nat.gcd m (a % m) = Nat.gcd a m := by
    rw [Nat.gcd_comm m, ← Nat.gcd_rec m a, Nat.gcd_comm]
  rw [← hg]
  refine extEuclidLoop_spec a m m m (a % m) 0 1 (Nat.mod_lt _ hm).le ?_ ?_
  · simp [Int.ModEq]
  · simp [Int.ModEq]

/-- `inv(a, m)` is below `m` (rule R189). -/
theorem inv_lt (a m : Nat) (hm : 0 < m) : inv a m < m := by
  unfold inv
  have h := Int.emod_lt_of_pos (extEuclid a m).2 (show (0 : Int) < m by exact_mod_cast hm)
  have h0 := Int.emod_nonneg (extEuclid a m).2 (show (m : Int) ≠ 0 by exact_mod_cast hm.ne')
  omega

/-- `inv(a, m)` is the inverse of a value prime to `m` (rules R13, R189). -/
theorem inv_spec {a m : Nat} (hm : 1 < m) (h : Nat.gcd a m = 1) : a * inv a m % m = 1 := by
  have hm0 : (m : Int) ≠ 0 := by exact_mod_cast (show m ≠ 0 by omega)
  have h0 := Int.emod_nonneg (extEuclid a m).2 hm0
  have hs := (extEuclid_spec a m (by omega)).2
  rw [h] at hs
  have : ((a * inv a m : Nat) : Int) ≡ ((1 : Nat) : Int) [ZMOD m] := by
    unfold inv
    push_cast [Int.toNat_of_nonneg h0]
    exact ((Int.mod_modEq _ _).mul_left _).trans (by simpa using hs)
  have h2 := Int.natCast_modEq_iff.mp this
  have h3 : a * inv a m % m = 1 % m := h2
  rwa [Nat.mod_eq_of_lt hm] at h3

theorem inv_pos {a m : Nat} (hm : 1 < m) (h : Nat.gcd a m = 1) : 1 ≤ inv a m := by
  by_contra h0
  have := inv_spec hm h
  rw [show inv a m = 0 by omega] at this
  simp at this

theorem gcd_radix {n : Nat} (width : Nat) (h : n % 2 = 1) : Nat.gcd (radix width % n) n = 1 := by
  rw [← Nat.gcd_rec, Nat.gcd_comm]
  have : Nat.Coprime 2 n := by
    rw [Nat.coprime_two_left, Nat.odd_iff]; exact h
  exact Nat.Coprime.pow_left width this

/-- `Rinv` is the inverse of the radix for an odd modulus above 1 (rule R140). -/
theorem radixInv_spec {n : Nat} (width : Nat) (h : n % 2 = 1) :
    radixInv width n * radix width % n = 1 % n := by
  unfold radixInv
  split
  · next h1 => subst h1; simp
  · next h1 =>
    have hn : 1 < n := by omega
    have := inv_spec hn (gcd_radix width h)
    rw [Nat.mul_mod, Nat.mod_mod, ← Nat.mul_mod] at this
    rw [Nat.mul_comm, this, Nat.mod_eq_of_lt hn]

theorem montProd_lt (width a b : Nat) {n : Nat} (h : 0 < n) : montProd width a b n < n :=
  Nat.mod_lt _ h

/-- The Montgomery product times the radix is the product (rules R140, R141). -/
theorem montProd_mul_radix (width a b : Nat) {n : Nat} (h : n % 2 = 1) :
    montProd width a b n * radix width % n = a * b % n := by
  unfold montProd
  rw [Nat.mul_mod, Nat.mod_mod, ← Nat.mul_mod, Nat.mul_assoc, Nat.mul_mod,
    radixInv_spec width h, ← Nat.mul_mod, Nat.mul_one]

theorem ctzWithin_spec (fuel v : Nat) (h0 : 0 < v) (h : v < 2 ^ fuel) :
    2 ^ ctzWithin fuel v ∣ v ∧ v / 2 ^ ctzWithin fuel v % 2 = 1 := by
  induction fuel generalizing v with
  | zero => simp at h; omega
  | succ fuel ih =>
    unfold ctzWithin
    split
    · next he =>
      have hlt : v / 2 < 2 ^ fuel := by rw [Nat.div_lt_iff_lt_mul two_pos, ← pow_succ]; exact h
      obtain ⟨hd, ho⟩ := ih (v / 2) (by omega) hlt
      constructor
      · obtain ⟨c, hc⟩ := hd
        refine ⟨c, ?_⟩
        calc v = 2 * (v / 2) := by omega
          _ = 2 * (2 ^ ctzWithin fuel (v / 2) * c) := by rw [← hc]
          _ = 2 ^ (ctzWithin fuel (v / 2) + 1) * c := by ring
      · rw [pow_succ, mul_comm, ← Nat.div_div_eq_div_mul]; exact ho
    · next he => simp; omega

/-- `ctz(v)` is the exact power of two in `v > 0` (rule R12). -/
theorem ctz_spec {v : Nat} (h : 0 < v) : 2 ^ ctz v ∣ v ∧ v / 2 ^ ctz v % 2 = 1 :=
  ctzWithin_spec _ v h (lt_two_pow_bitLen v)

/-- The decomposition of an odd candidate: `p - 1 = d · 2^s` with `d` odd (rule R212). -/
theorem decompose_spec {p : Nat} (h : 1 < p) :
    p - 1 = decomposeD p * 2 ^ decomposeS p ∧ decomposeD p % 2 = 1 := by
  obtain ⟨hd, ho⟩ := ctz_spec (v := p - 1) (by omega)
  exact ⟨(Nat.div_mul_cancel hd).symm, ho⟩

theorem decomposeS_pos {p : Nat} (h : 1 < p) (ho : p % 2 = 1) : 1 ≤ decomposeS p := by
  by_contra h0
  obtain ⟨he, hd⟩ := decompose_spec h
  rw [show decomposeS p = 0 by omega] at he
  simp at he; omega

end Sys2Proof.Machine
end

