-- ==== Sys2Proof/Laws/Decode.lean ====
section
/-!
SUPPORT. The opcode map as arithmetic: every mask of rule R115 fixes the low bits and the high bits
of a word and leaves the fields between them, so a word spells a row exactly when its low part is the
pattern and its high part is 0; and the number each word of a command is.
-/

namespace Sys2Proof

/-- A mask that covers the bits below `lo` and from `hi` up: the masked word is the pattern exactly
when the low part is the pattern and nothing stands above. -/
theorem and_mask_eq_iff {v mask pattern : Word} (lo hi : Nat) (hlo : lo ≤ hi) (hhi : hi ≤ 32)
    (hp : pattern.toNat < 2 ^ lo)
    (hm : ∀ i < 32, mask.getLsbD i = (decide (i < lo) || decide (hi ≤ i))) :
    v &&& mask = pattern ↔ v.toNat % 2 ^ lo = pattern.toNat ∧ v.toNat / 2 ^ hi = 0 := by
  have hv : v.toNat < 2 ^ 32 := v.isLt
  constructor
  · intro h
    have hb : ∀ i < 32, (v.getLsbD i && mask.getLsbD i) = pattern.getLsbD i := by
      intro i _; rw [← h, BitVec.getLsbD_and]
    constructor
    · apply Nat.eq_of_testBit_eq
      intro i
      rw [Nat.testBit_mod_two_pow]
      by_cases hi' : i < lo
      · have := hb i (by omega)
        rw [hm i (by omega)] at this
        simpa [hi', BitVec.getLsbD] using this
      · have : pattern.toNat.testBit i = false :=
          Nat.testBit_lt_two_pow (lt_of_lt_of_le hp (Nat.pow_le_pow_right two_pos (by omega)))
        simp [hi', this]
    · apply Nat.eq_of_testBit_eq
      intro i
      rw [Nat.testBit_div_two_pow, Nat.zero_testBit]
      by_cases hi' : hi + i < 32
      · have := hb (hi + i) hi'
        rw [hm _ hi'] at this
        have hpf : pattern.toNat.testBit (hi + i) = false :=
          Nat.testBit_lt_two_pow (lt_of_lt_of_le hp (Nat.pow_le_pow_right two_pos (by omega)))
        rw [Nat.add_comm]
        simpa [BitVec.getLsbD, hpf] using this
      · rw [Nat.add_comm]
        exact Nat.testBit_lt_two_pow
          (lt_of_lt_of_le hv (Nat.pow_le_pow_right two_pos (by omega)))
  · rintro ⟨h1, h2⟩
    apply BitVec.eq_of_getLsbD_eq
    intro i hi'
    rw [BitVec.getLsbD_and, hm i hi']
    by_cases hl : i < lo
    · have : (v.toNat % 2 ^ lo).testBit i = pattern.toNat.testBit i := by rw [h1]
      rw [Nat.testBit_mod_two_pow] at this
      simpa [hl, BitVec.getLsbD] using this
    · have hpf : pattern.toNat.testBit i = false :=
        Nat.testBit_lt_two_pow (lt_of_lt_of_le hp (Nat.pow_le_pow_right two_pos (by omega)))
      by_cases hh : hi ≤ i
      · have : (v.toNat / 2 ^ hi).testBit (i - hi) = false := by rw [h2]; simp
        rw [Nat.testBit_div_two_pow, Nat.sub_add_cancel hh] at this
        simp [BitVec.getLsbD, hpf, this]
      · simp [hl, hh, BitVec.getLsbD, hpf]

/-- A format-R word is the number its fields make (rule R111). -/
theorem toNat_packR (opc : Nat) (rd ra rb rn : Nat) (ho : opc < 2 ^ 8) (hd : rd < 8) (ha : ra < 8)
    (hb : rb < 8) (hn : rn < 8) :
    (packR opc rd ra rb rn).toNat
      = opc + 2 ^ 8 * rd + 2 ^ 11 * ra + 2 ^ 14 * rb + 2 ^ 17 * rn := by
  unfold packR
  rw [BitVec.toNat_ofNat, Nat.mod_eq_of_lt (by omega)]

/-- A format-I word is the number its fields make (rule R113). -/
theorem toNat_packI (opc : Nat) (rd imm21 : Nat) (ho : opc < 2 ^ 8) (hd : rd < 8)
    (hi : imm21 < 2 ^ 21) :
    (packI opc rd imm21).toNat = opc + 2 ^ 8 * rd + 2 ^ 11 * imm21 := by
  unfold packI
  rw [BitVec.toNat_ofNat, Nat.mod_eq_of_lt (by omega)]

/-- A field of a word whose number is known (rule R10). -/
theorem bits_eq {v : Word} {n : Nat} (h : v.toNat = n) (hi lo : Nat) :
    bits v hi lo = n / 2 ^ lo % 2 ^ (hi + 1 - lo) := by
  unfold bits; rw [h]

theorem regField_eq {v : Word} {n lo : Nat} {r : Reg} (h : v.toNat = n) (hr : n / 2 ^ lo % 8 = r.val) :
    regField v lo = r := by
  apply Fin.ext
  show bits v (lo + 2) lo = r.val
  rw [bits_eq h, show lo + 2 + 1 - lo = 3 by omega]
  exact hr

/-- The row of the opcode map that a mnemonic stands in (rule R115). -/
def rowOf : Op → Row
  | .nop => ⟨.nop, 0xFFFFFFFF#32, 0x00000000#32⟩
  | .mov => ⟨.mov, 0xFFFFC0FF#32, 0x00000001#32⟩
  | .ldi => ⟨.ldi, 0x000000FF#32, 0x00000002#32⟩
  | .cmp => ⟨.cmp, 0xFFFE07FF#32, 0x00000003#32⟩
  | .montmul => ⟨.montmul, 0xFFF000FF#32, 0x00000008#32⟩
  | .modexp => ⟨.modexp, 0xFFF000FF#32, 0x00000009#32⟩
  | .gcd => ⟨.gcd, 0xFFFE00FF#32, 0x00000010#32⟩
  | .modinv => ⟨.modinv, 0xFFFE00FF#32, 0x00000011#32⟩
  | .mrtest => ⟨.mrtest, 0xFFFFC0FF#32, 0x00000018#32⟩
  | .mrround => ⟨.mrround, 0xFFFE07FF#32, 0x00000019#32⟩

/-- The fixed bits of a row: those below the first number and from the second up (rule R115). -/
def fixedBits : Op → Nat × Nat
  | .nop => (32, 32)
  | .mov => (8, 14)
  | .ldi => (8, 32)
  | .cmp => (11, 17)
  | .montmul => (8, 20)
  | .modexp => (8, 20)
  | .gcd => (8, 17)
  | .modinv => (8, 17)
  | .mrtest => (8, 14)
  | .mrround => (11, 17)

theorem opcodeMap_eq : opcodeMap =
    [.nop, .mov, .ldi, .cmp, .montmul, .modexp, .gcd, .modinv, .mrtest, .mrround].map rowOf := rfl

/-- A word spells a row exactly when its low fixed bits are the pattern and its high fixed bits are
0 (rules R112, R115). -/
theorem spells_iff (op : Op) (v : Word) :
    (rowOf op).spells v = true ↔
      v.toNat % 2 ^ (fixedBits op).1 = (rowOf op).pattern.toNat ∧
        v.toNat / 2 ^ (fixedBits op).2 = 0 := by
  unfold Row.spells
  rw [beq_iff_eq]
  cases op <;> exact and_mask_eq_iff _ _ (by decide) (by decide) (by decide) (by decide)

end Sys2Proof
end

