-- ==== Sys2Proof/Laws/State.lean ====
section
/-!
SUPPORT. One lemma per field of the state for each update of it (`rfl`, tagged `simp`), so that no
proof unfolds a record update; and the registers after a register write.
-/

namespace Sys2Proof.Machine

/-! ### setReg -/

@[simp] theorem setReg_params (r : Reg) (v : Nat) (s : State) :
    (s.setReg r v).params = s.params := rfl
@[simp] theorem setReg_x (r : Reg) (v : Nat) (s : State) :
    (s.setReg r v).x = s.x.set r.val v := rfl
@[simp] theorem setReg_irqEn (r : Reg) (v : Nat) (s : State) :
    (s.setReg r v).irqEn = s.irqEn := rfl
@[simp] theorem setReg_mrPolicy (r : Reg) (v : Nat) (s : State) :
    (s.setReg r v).mrPolicy = s.mrPolicy := rfl
@[simp] theorem setReg_done (r : Reg) (v : Nat) (s : State) :
    (s.setReg r v).done = s.done := rfl
@[simp] theorem setReg_err (r : Reg) (v : Nat) (s : State) :
    (s.setReg r v).err = s.err := rfl
@[simp] theorem setReg_result (r : Reg) (v : Nat) (s : State) :
    (s.setReg r v).result = s.result := rfl
@[simp] theorem setReg_eq (r : Reg) (v : Nat) (s : State) :
    (s.setReg r v).eq = s.eq := rfl
@[simp] theorem setReg_lt (r : Reg) (v : Nat) (s : State) :
    (s.setReg r v).lt = s.lt := rfl
@[simp] theorem setReg_mrv (r : Reg) (v : Nat) (s : State) :
    (s.setReg r v).mrv = s.mrv := rfl
@[simp] theorem setReg_cmd (r : Reg) (v : Nat) (s : State) :
    (s.setReg r v).cmd = s.cmd := rfl
@[simp] theorem setReg_errcode (r : Reg) (v : Nat) (s : State) :
    (s.setReg r v).errcode = s.errcode := rfl
@[simp] theorem setReg_mrRounds (r : Reg) (v : Nat) (s : State) :
    (s.setReg r v).mrRounds = s.mrRounds := rfl
@[simp] theorem setReg_mrDone (r : Reg) (v : Nat) (s : State) :
    (s.setReg r v).mrDone = s.mrDone := rfl
@[simp] theorem setReg_phase (r : Reg) (v : Nat) (s : State) :
    (s.setReg r v).phase = s.phase := rfl
@[simp] theorem setReg_rst (r : Reg) (v : Nat) (s : State) :
    (s.setReg r v).rst = s.rst := rfl
@[simp] theorem setReg_rng (r : Reg) (v : Nat) (s : State) :
    (s.setReg r v).rng = s.rng := rfl
@[simp] theorem setReg_inputs (r : Reg) (v : Nat) (s : State) :
    (s.setReg r v).inputs = s.inputs := rfl
@[simp] theorem setReg_answers (r : Reg) (v : Nat) (s : State) :
    (s.setReg r v).answers = s.answers := rfl

/-! ### setCompare -/

@[simp] theorem setCompare_params (a b : Nat) (s : State) :
    (s.setCompare a b).params = s.params := rfl
@[simp] theorem setCompare_x (a b : Nat) (s : State) :
    (s.setCompare a b).x = s.x := rfl
@[simp] theorem setCompare_irqEn (a b : Nat) (s : State) :
    (s.setCompare a b).irqEn = s.irqEn := rfl
@[simp] theorem setCompare_mrPolicy (a b : Nat) (s : State) :
    (s.setCompare a b).mrPolicy = s.mrPolicy := rfl
@[simp] theorem setCompare_done (a b : Nat) (s : State) :
    (s.setCompare a b).done = s.done := rfl
@[simp] theorem setCompare_err (a b : Nat) (s : State) :
    (s.setCompare a b).err = s.err := rfl
@[simp] theorem setCompare_result (a b : Nat) (s : State) :
    (s.setCompare a b).result = s.result := rfl
@[simp] theorem setCompare_eq (a b : Nat) (s : State) :
    (s.setCompare a b).eq = decide (a = b) := rfl
@[simp] theorem setCompare_lt (a b : Nat) (s : State) :
    (s.setCompare a b).lt = decide (a < b) := rfl
@[simp] theorem setCompare_mrv (a b : Nat) (s : State) :
    (s.setCompare a b).mrv = s.mrv := rfl
@[simp] theorem setCompare_cmd (a b : Nat) (s : State) :
    (s.setCompare a b).cmd = s.cmd := rfl
@[simp] theorem setCompare_errcode (a b : Nat) (s : State) :
    (s.setCompare a b).errcode = s.errcode := rfl
@[simp] theorem setCompare_mrRounds (a b : Nat) (s : State) :
    (s.setCompare a b).mrRounds = s.mrRounds := rfl
@[simp] theorem setCompare_mrDone (a b : Nat) (s : State) :
    (s.setCompare a b).mrDone = s.mrDone := rfl
@[simp] theorem setCompare_phase (a b : Nat) (s : State) :
    (s.setCompare a b).phase = s.phase := rfl
@[simp] theorem setCompare_rst (a b : Nat) (s : State) :
    (s.setCompare a b).rst = s.rst := rfl
@[simp] theorem setCompare_rng (a b : Nat) (s : State) :
    (s.setCompare a b).rng = s.rng := rfl
@[simp] theorem setCompare_inputs (a b : Nat) (s : State) :
    (s.setCompare a b).inputs = s.inputs := rfl
@[simp] theorem setCompare_answers (a b : Nat) (s : State) :
    (s.setCompare a b).answers = s.answers := rfl

/-! ### setVerdict -/

@[simp] theorem setVerdict_params (v : Verdict) (s : State) :
    (s.setVerdict v).params = s.params := rfl
@[simp] theorem setVerdict_x (v : Verdict) (s : State) :
    (s.setVerdict v).x = s.x := rfl
@[simp] theorem setVerdict_irqEn (v : Verdict) (s : State) :
    (s.setVerdict v).irqEn = s.irqEn := rfl
@[simp] theorem setVerdict_mrPolicy (v : Verdict) (s : State) :
    (s.setVerdict v).mrPolicy = s.mrPolicy := rfl
@[simp] theorem setVerdict_done (v : Verdict) (s : State) :
    (s.setVerdict v).done = s.done := rfl
@[simp] theorem setVerdict_err (v : Verdict) (s : State) :
    (s.setVerdict v).err = s.err := rfl
@[simp] theorem setVerdict_result (v : Verdict) (s : State) :
    (s.setVerdict v).result = decide (v = .pass) := rfl
@[simp] theorem setVerdict_eq (v : Verdict) (s : State) :
    (s.setVerdict v).eq = s.eq := rfl
@[simp] theorem setVerdict_lt (v : Verdict) (s : State) :
    (s.setVerdict v).lt = s.lt := rfl
@[simp] theorem setVerdict_mrv (v : Verdict) (s : State) :
    (s.setVerdict v).mrv = v := rfl
@[simp] theorem setVerdict_cmd (v : Verdict) (s : State) :
    (s.setVerdict v).cmd = s.cmd := rfl
@[simp] theorem setVerdict_errcode (v : Verdict) (s : State) :
    (s.setVerdict v).errcode = s.errcode := rfl
@[simp] theorem setVerdict_mrRounds (v : Verdict) (s : State) :
    (s.setVerdict v).mrRounds = s.mrRounds := rfl
@[simp] theorem setVerdict_mrDone (v : Verdict) (s : State) :
    (s.setVerdict v).mrDone = s.mrDone := rfl
@[simp] theorem setVerdict_phase (v : Verdict) (s : State) :
    (s.setVerdict v).phase = s.phase := rfl
@[simp] theorem setVerdict_rst (v : Verdict) (s : State) :
    (s.setVerdict v).rst = s.rst := rfl
@[simp] theorem setVerdict_rng (v : Verdict) (s : State) :
    (s.setVerdict v).rng = s.rng := rfl
@[simp] theorem setVerdict_inputs (v : Verdict) (s : State) :
    (s.setVerdict v).inputs = s.inputs := rfl
@[simp] theorem setVerdict_answers (v : Verdict) (s : State) :
    (s.setVerdict v).answers = s.answers := rfl

/-! ### acceptAs -/

@[simp] theorem acceptAs_params (v : Word) (i : Option Instr) (s : State) :
    (s.acceptAs v i).params = s.params := rfl
@[simp] theorem acceptAs_x (v : Word) (i : Option Instr) (s : State) :
    (s.acceptAs v i).x = s.x := rfl
@[simp] theorem acceptAs_irqEn (v : Word) (i : Option Instr) (s : State) :
    (s.acceptAs v i).irqEn = s.irqEn := rfl
@[simp] theorem acceptAs_mrPolicy (v : Word) (i : Option Instr) (s : State) :
    (s.acceptAs v i).mrPolicy = s.mrPolicy := rfl
@[simp] theorem acceptAs_done (v : Word) (i : Option Instr) (s : State) :
    (s.acceptAs v i).done = false := rfl
@[simp] theorem acceptAs_err (v : Word) (i : Option Instr) (s : State) :
    (s.acceptAs v i).err = false := rfl
@[simp] theorem acceptAs_result (v : Word) (i : Option Instr) (s : State) :
    (s.acceptAs v i).result = s.result := rfl
@[simp] theorem acceptAs_eq (v : Word) (i : Option Instr) (s : State) :
    (s.acceptAs v i).eq = s.eq := rfl
@[simp] theorem acceptAs_lt (v : Word) (i : Option Instr) (s : State) :
    (s.acceptAs v i).lt = s.lt := rfl
@[simp] theorem acceptAs_mrv (v : Word) (i : Option Instr) (s : State) :
    (s.acceptAs v i).mrv = s.mrv := rfl
@[simp] theorem acceptAs_cmd (v : Word) (i : Option Instr) (s : State) :
    (s.acceptAs v i).cmd = v := rfl
@[simp] theorem acceptAs_errcode (v : Word) (i : Option Instr) (s : State) :
    (s.acceptAs v i).errcode = .none := rfl
@[simp] theorem acceptAs_mrRounds (v : Word) (i : Option Instr) (s : State) :
    (s.acceptAs v i).mrRounds = s.mrRounds := rfl
@[simp] theorem acceptAs_mrDone (v : Word) (i : Option Instr) (s : State) :
    (s.acceptAs v i).mrDone = s.mrDone := rfl
@[simp] theorem acceptAs_phase (v : Word) (i : Option Instr) (s : State) :
    (s.acceptAs v i).phase = s.start i := rfl
@[simp] theorem acceptAs_rst (v : Word) (i : Option Instr) (s : State) :
    (s.acceptAs v i).rst = s.rst := rfl
@[simp] theorem acceptAs_rng (v : Word) (i : Option Instr) (s : State) :
    (s.acceptAs v i).rng = s.rng := rfl
@[simp] theorem acceptAs_inputs (v : Word) (i : Option Instr) (s : State) :
    (s.acceptAs v i).inputs = s.inputs := rfl
@[simp] theorem acceptAs_answers (v : Word) (i : Option Instr) (s : State) :
    (s.acceptAs v i).answers = s.answers := rfl

/-! ### complete -/

@[simp] theorem complete_params (s : State) :
    (s.complete).params = s.params := rfl
@[simp] theorem complete_x (s : State) :
    (s.complete).x = s.x := rfl
@[simp] theorem complete_irqEn (s : State) :
    (s.complete).irqEn = s.irqEn := rfl
@[simp] theorem complete_mrPolicy (s : State) :
    (s.complete).mrPolicy = s.mrPolicy := rfl
@[simp] theorem complete_done (s : State) :
    (s.complete).done = true := rfl
@[simp] theorem complete_err (s : State) :
    (s.complete).err = s.err := rfl
@[simp] theorem complete_result (s : State) :
    (s.complete).result = s.result := rfl
@[simp] theorem complete_eq (s : State) :
    (s.complete).eq = s.eq := rfl
@[simp] theorem complete_lt (s : State) :
    (s.complete).lt = s.lt := rfl
@[simp] theorem complete_mrv (s : State) :
    (s.complete).mrv = s.mrv := rfl
@[simp] theorem complete_cmd (s : State) :
    (s.complete).cmd = s.cmd := rfl
@[simp] theorem complete_errcode (s : State) :
    (s.complete).errcode = s.errcode := rfl
@[simp] theorem complete_mrRounds (s : State) :
    (s.complete).mrRounds = s.mrRounds := rfl
@[simp] theorem complete_mrDone (s : State) :
    (s.complete).mrDone = s.mrDone := rfl
@[simp] theorem complete_phase (s : State) :
    (s.complete).phase = .idle := rfl
@[simp] theorem complete_rst (s : State) :
    (s.complete).rst = s.rst := rfl
@[simp] theorem complete_rng (s : State) :
    (s.complete).rng = s.rng := rfl
@[simp] theorem complete_inputs (s : State) :
    (s.complete).inputs = s.inputs := rfl
@[simp] theorem complete_answers (s : State) :
    (s.complete).answers = s.answers := rfl

/-! ### cmdError -/

@[simp] theorem cmdError_params (c : ErrCode) (s : State) :
    (s.cmdError c).params = s.params := rfl
@[simp] theorem cmdError_x (c : ErrCode) (s : State) :
    (s.cmdError c).x = s.x := rfl
@[simp] theorem cmdError_irqEn (c : ErrCode) (s : State) :
    (s.cmdError c).irqEn = s.irqEn := rfl
@[simp] theorem cmdError_mrPolicy (c : ErrCode) (s : State) :
    (s.cmdError c).mrPolicy = s.mrPolicy := rfl
@[simp] theorem cmdError_done (c : ErrCode) (s : State) :
    (s.cmdError c).done = true := rfl
@[simp] theorem cmdError_err (c : ErrCode) (s : State) :
    (s.cmdError c).err = true := rfl
@[simp] theorem cmdError_result (c : ErrCode) (s : State) :
    (s.cmdError c).result = s.result := rfl
@[simp] theorem cmdError_eq (c : ErrCode) (s : State) :
    (s.cmdError c).eq = s.eq := rfl
@[simp] theorem cmdError_lt (c : ErrCode) (s : State) :
    (s.cmdError c).lt = s.lt := rfl
@[simp] theorem cmdError_mrv (c : ErrCode) (s : State) :
    (s.cmdError c).mrv = s.mrv := rfl
@[simp] theorem cmdError_cmd (c : ErrCode) (s : State) :
    (s.cmdError c).cmd = s.cmd := rfl
@[simp] theorem cmdError_errcode (c : ErrCode) (s : State) :
    (s.cmdError c).errcode = c := rfl
@[simp] theorem cmdError_mrRounds (c : ErrCode) (s : State) :
    (s.cmdError c).mrRounds = s.mrRounds := rfl
@[simp] theorem cmdError_mrDone (c : ErrCode) (s : State) :
    (s.cmdError c).mrDone = s.mrDone := rfl
@[simp] theorem cmdError_phase (c : ErrCode) (s : State) :
    (s.cmdError c).phase = .idle := rfl
@[simp] theorem cmdError_rst (c : ErrCode) (s : State) :
    (s.cmdError c).rst = s.rst := rfl
@[simp] theorem cmdError_rng (c : ErrCode) (s : State) :
    (s.cmdError c).rng = s.rng := rfl
@[simp] theorem cmdError_inputs (c : ErrCode) (s : State) :
    (s.cmdError c).inputs = s.inputs := rfl
@[simp] theorem cmdError_answers (c : ErrCode) (s : State) :
    (s.cmdError c).answers = s.answers := rfl

/-! ### clearStatus -/

@[simp] theorem clearStatus_params (v : Word) (s : State) :
    (s.clearStatus v).params = s.params := rfl
@[simp] theorem clearStatus_x (v : Word) (s : State) :
    (s.clearStatus v).x = s.x := rfl
@[simp] theorem clearStatus_irqEn (v : Word) (s : State) :
    (s.clearStatus v).irqEn = s.irqEn := rfl
@[simp] theorem clearStatus_mrPolicy (v : Word) (s : State) :
    (s.clearStatus v).mrPolicy = s.mrPolicy := rfl
@[simp] theorem clearStatus_done (v : Word) (s : State) :
    (s.clearStatus v).done = if v.getLsbD 1 then false else s.done := rfl
@[simp] theorem clearStatus_err (v : Word) (s : State) :
    (s.clearStatus v).err = if v.getLsbD 2 then false else s.err := rfl
@[simp] theorem clearStatus_result (v : Word) (s : State) :
    (s.clearStatus v).result = s.result := rfl
@[simp] theorem clearStatus_eq (v : Word) (s : State) :
    (s.clearStatus v).eq = s.eq := rfl
@[simp] theorem clearStatus_lt (v : Word) (s : State) :
    (s.clearStatus v).lt = s.lt := rfl
@[simp] theorem clearStatus_mrv (v : Word) (s : State) :
    (s.clearStatus v).mrv = s.mrv := rfl
@[simp] theorem clearStatus_cmd (v : Word) (s : State) :
    (s.clearStatus v).cmd = s.cmd := rfl
@[simp] theorem clearStatus_errcode (v : Word) (s : State) :
    (s.clearStatus v).errcode = s.errcode := rfl
@[simp] theorem clearStatus_mrRounds (v : Word) (s : State) :
    (s.clearStatus v).mrRounds = s.mrRounds := rfl
@[simp] theorem clearStatus_mrDone (v : Word) (s : State) :
    (s.clearStatus v).mrDone = s.mrDone := rfl
@[simp] theorem clearStatus_phase (v : Word) (s : State) :
    (s.clearStatus v).phase = s.phase := rfl
@[simp] theorem clearStatus_rst (v : Word) (s : State) :
    (s.clearStatus v).rst = s.rst := rfl
@[simp] theorem clearStatus_rng (v : Word) (s : State) :
    (s.clearStatus v).rng = s.rng := rfl
@[simp] theorem clearStatus_inputs (v : Word) (s : State) :
    (s.clearStatus v).inputs = s.inputs := rfl
@[simp] theorem clearStatus_answers (v : Word) (s : State) :
    (s.clearStatus v).answers = s.answers := rfl

/-! ### resetEngine -/

@[simp] theorem resetEngine_params (s : State) :
    (s.resetEngine).params = s.params := rfl
@[simp] theorem resetEngine_x (s : State) :
    (s.resetEngine).x = Vector.replicate 8 0 := rfl
@[simp] theorem resetEngine_irqEn (s : State) :
    (s.resetEngine).irqEn = false := rfl
@[simp] theorem resetEngine_mrPolicy (s : State) :
    (s.resetEngine).mrPolicy = .classic := rfl
@[simp] theorem resetEngine_done (s : State) :
    (s.resetEngine).done = false := rfl
@[simp] theorem resetEngine_err (s : State) :
    (s.resetEngine).err = false := rfl
@[simp] theorem resetEngine_result (s : State) :
    (s.resetEngine).result = false := rfl
@[simp] theorem resetEngine_eq (s : State) :
    (s.resetEngine).eq = false := rfl
@[simp] theorem resetEngine_lt (s : State) :
    (s.resetEngine).lt = false := rfl
@[simp] theorem resetEngine_mrv (s : State) :
    (s.resetEngine).mrv = .compositeWitness := rfl
@[simp] theorem resetEngine_cmd (s : State) :
    (s.resetEngine).cmd = 0x00000000#32 := rfl
@[simp] theorem resetEngine_errcode (s : State) :
    (s.resetEngine).errcode = .none := rfl
@[simp] theorem resetEngine_mrRounds (s : State) :
    (s.resetEngine).mrRounds = roundsAtReset := rfl
@[simp] theorem resetEngine_mrDone (s : State) :
    (s.resetEngine).mrDone = 0 := rfl
@[simp] theorem resetEngine_phase (s : State) :
    (s.resetEngine).phase = .idle := rfl
@[simp] theorem resetEngine_rst (s : State) :
    (s.resetEngine).rst = s.rst := rfl
@[simp] theorem resetEngine_rng (s : State) :
    (s.resetEngine).rng = s.rng := rfl
@[simp] theorem resetEngine_inputs (s : State) :
    (s.resetEngine).inputs = s.inputs := rfl
@[simp] theorem resetEngine_answers (s : State) :
    (s.resetEngine).answers = s.answers := rfl

/-! ### accept, issue, withUnit, stepUnit: the fields they leave alone -/

@[simp] theorem accept_params (v : Word) (s : State) : (s.accept v).params = s.params := rfl
@[simp] theorem accept_x (v : Word) (s : State) : (s.accept v).x = s.x := rfl
@[simp] theorem accept_irqEn (v : Word) (s : State) : (s.accept v).irqEn = s.irqEn := rfl
@[simp] theorem accept_mrPolicy (v : Word) (s : State) : (s.accept v).mrPolicy = s.mrPolicy := rfl
@[simp] theorem accept_result (v : Word) (s : State) : (s.accept v).result = s.result := rfl
@[simp] theorem accept_eq (v : Word) (s : State) : (s.accept v).eq = s.eq := rfl
@[simp] theorem accept_lt (v : Word) (s : State) : (s.accept v).lt = s.lt := rfl
@[simp] theorem accept_mrv (v : Word) (s : State) : (s.accept v).mrv = s.mrv := rfl
@[simp] theorem accept_mrRounds (v : Word) (s : State) : (s.accept v).mrRounds = s.mrRounds := rfl
@[simp] theorem accept_mrDone (v : Word) (s : State) : (s.accept v).mrDone = s.mrDone := rfl
@[simp] theorem accept_rst (v : Word) (s : State) : (s.accept v).rst = s.rst := rfl
@[simp] theorem accept_rng (v : Word) (s : State) : (s.accept v).rng = s.rng := rfl
@[simp] theorem accept_inputs (v : Word) (s : State) : (s.accept v).inputs = s.inputs := rfl
@[simp] theorem accept_answers (v : Word) (s : State) : (s.accept v).answers = s.answers := rfl

@[simp] theorem issue_params (i : Instr) (s : State) : (s.issue i).params = s.params := by
  unfold State.issue; split <;> rfl
@[simp] theorem issue_x (i : Instr) (s : State) : (s.issue i).x = s.x := by
  unfold State.issue; split <;> rfl
@[simp] theorem issue_irqEn (i : Instr) (s : State) : (s.issue i).irqEn = s.irqEn := by
  unfold State.issue; split <;> rfl
@[simp] theorem issue_mrPolicy (i : Instr) (s : State) : (s.issue i).mrPolicy = s.mrPolicy := by
  unfold State.issue; split <;> rfl
@[simp] theorem issue_result (i : Instr) (s : State) : (s.issue i).result = s.result := by
  unfold State.issue; split <;> rfl
@[simp] theorem issue_eq (i : Instr) (s : State) : (s.issue i).eq = s.eq := by
  unfold State.issue; split <;> rfl
@[simp] theorem issue_lt (i : Instr) (s : State) : (s.issue i).lt = s.lt := by
  unfold State.issue; split <;> rfl
@[simp] theorem issue_mrv (i : Instr) (s : State) : (s.issue i).mrv = s.mrv := by
  unfold State.issue; split <;> rfl
@[simp] theorem issue_mrRounds (i : Instr) (s : State) : (s.issue i).mrRounds = s.mrRounds := by
  unfold State.issue; split <;> rfl
@[simp] theorem issue_mrDone (i : Instr) (s : State) : (s.issue i).mrDone = s.mrDone := by
  unfold State.issue; split <;> rfl
@[simp] theorem issue_rst (i : Instr) (s : State) : (s.issue i).rst = s.rst := by
  unfold State.issue; split <;> rfl
@[simp] theorem issue_rng (i : Instr) (s : State) : (s.issue i).rng = s.rng := by
  unfold State.issue; split <;> rfl
@[simp] theorem issue_inputs (i : Instr) (s : State) : (s.issue i).inputs = s.inputs := by
  unfold State.issue; split <;> rfl
@[simp] theorem issue_answers (i : Instr) (s : State) : (s.issue i).answers = s.answers := by
  unfold State.issue; split <;> rfl

@[simp] theorem withUnit_params (u : UnitRegs) (w : List Word) (s : State) : (s.withUnit u w).params = s.params := by
  unfold State.withUnit; split <;> rfl
@[simp] theorem withUnit_x (u : UnitRegs) (w : List Word) (s : State) : (s.withUnit u w).x = s.x := by
  unfold State.withUnit; split <;> rfl
@[simp] theorem withUnit_irqEn (u : UnitRegs) (w : List Word) (s : State) : (s.withUnit u w).irqEn = s.irqEn := by
  unfold State.withUnit; split <;> rfl
@[simp] theorem withUnit_mrPolicy (u : UnitRegs) (w : List Word) (s : State) : (s.withUnit u w).mrPolicy = s.mrPolicy := by
  unfold State.withUnit; split <;> rfl
@[simp] theorem withUnit_done (u : UnitRegs) (w : List Word) (s : State) : (s.withUnit u w).done = s.done := by
  unfold State.withUnit; split <;> rfl
@[simp] theorem withUnit_err (u : UnitRegs) (w : List Word) (s : State) : (s.withUnit u w).err = s.err := by
  unfold State.withUnit; split <;> rfl
@[simp] theorem withUnit_result (u : UnitRegs) (w : List Word) (s : State) : (s.withUnit u w).result = s.result := by
  unfold State.withUnit; split <;> rfl
@[simp] theorem withUnit_eq (u : UnitRegs) (w : List Word) (s : State) : (s.withUnit u w).eq = s.eq := by
  unfold State.withUnit; split <;> rfl
@[simp] theorem withUnit_lt (u : UnitRegs) (w : List Word) (s : State) : (s.withUnit u w).lt = s.lt := by
  unfold State.withUnit; split <;> rfl
@[simp] theorem withUnit_mrv (u : UnitRegs) (w : List Word) (s : State) : (s.withUnit u w).mrv = s.mrv := by
  unfold State.withUnit; split <;> rfl
@[simp] theorem withUnit_cmd (u : UnitRegs) (w : List Word) (s : State) : (s.withUnit u w).cmd = s.cmd := by
  unfold State.withUnit; split <;> rfl
@[simp] theorem withUnit_errcode (u : UnitRegs) (w : List Word) (s : State) : (s.withUnit u w).errcode = s.errcode := by
  unfold State.withUnit; split <;> rfl
@[simp] theorem withUnit_mrRounds (u : UnitRegs) (w : List Word) (s : State) : (s.withUnit u w).mrRounds = s.mrRounds := by
  unfold State.withUnit; split <;> rfl
@[simp] theorem withUnit_mrDone (u : UnitRegs) (w : List Word) (s : State) : (s.withUnit u w).mrDone = s.mrDone := by
  unfold State.withUnit; split <;> rfl
@[simp] theorem withUnit_rst (u : UnitRegs) (w : List Word) (s : State) : (s.withUnit u w).rst = s.rst := by
  unfold State.withUnit; split <;> rfl
@[simp] theorem withUnit_inputs (u : UnitRegs) (w : List Word) (s : State) : (s.withUnit u w).inputs = s.inputs := by
  unfold State.withUnit; split <;> rfl
@[simp] theorem withUnit_answers (u : UnitRegs) (w : List Word) (s : State) : (s.withUnit u w).answers = s.answers := by
  unfold State.withUnit; split <;> rfl

@[simp] theorem stepUnit_params (s : State) : (s.stepUnit).params = s.params := by
  unfold State.stepUnit; split <;> simp
@[simp] theorem stepUnit_x (s : State) : (s.stepUnit).x = s.x := by
  unfold State.stepUnit; split <;> simp
@[simp] theorem stepUnit_irqEn (s : State) : (s.stepUnit).irqEn = s.irqEn := by
  unfold State.stepUnit; split <;> simp
@[simp] theorem stepUnit_mrPolicy (s : State) : (s.stepUnit).mrPolicy = s.mrPolicy := by
  unfold State.stepUnit; split <;> simp
@[simp] theorem stepUnit_done (s : State) : (s.stepUnit).done = s.done := by
  unfold State.stepUnit; split <;> simp
@[simp] theorem stepUnit_err (s : State) : (s.stepUnit).err = s.err := by
  unfold State.stepUnit; split <;> simp
@[simp] theorem stepUnit_result (s : State) : (s.stepUnit).result = s.result := by
  unfold State.stepUnit; split <;> simp
@[simp] theorem stepUnit_eq (s : State) : (s.stepUnit).eq = s.eq := by
  unfold State.stepUnit; split <;> simp
@[simp] theorem stepUnit_lt (s : State) : (s.stepUnit).lt = s.lt := by
  unfold State.stepUnit; split <;> simp
@[simp] theorem stepUnit_mrv (s : State) : (s.stepUnit).mrv = s.mrv := by
  unfold State.stepUnit; split <;> simp
@[simp] theorem stepUnit_cmd (s : State) : (s.stepUnit).cmd = s.cmd := by
  unfold State.stepUnit; split <;> simp
@[simp] theorem stepUnit_errcode (s : State) : (s.stepUnit).errcode = s.errcode := by
  unfold State.stepUnit; split <;> simp
@[simp] theorem stepUnit_mrRounds (s : State) : (s.stepUnit).mrRounds = s.mrRounds := by
  unfold State.stepUnit; split <;> simp
@[simp] theorem stepUnit_mrDone (s : State) : (s.stepUnit).mrDone = s.mrDone := by
  unfold State.stepUnit; split <;> simp
@[simp] theorem stepUnit_rst (s : State) : (s.stepUnit).rst = s.rst := by
  unfold State.stepUnit; split <;> simp
@[simp] theorem stepUnit_inputs (s : State) : (s.stepUnit).inputs = s.inputs := by
  unfold State.stepUnit; split <;> simp
@[simp] theorem stepUnit_answers (s : State) : (s.stepUnit).answers = s.answers := by
  unfold State.stepUnit; split <;> simp

/-! ### registers -/

@[simp] theorem setReg_reg_same (r : Reg) (v : Nat) (s : State) : (s.setReg r v).reg r = v := by
  simp [State.reg]

theorem setReg_reg_ne {r r' : Reg} (v : Nat) (s : State) (h : r' ≠ r) :
    (s.setReg r v).reg r' = s.reg r' := by
  have : r.val ≠ r'.val := fun e => h (Fin.ext e.symm)
  simp [State.reg, Vector.getElem_set_ne _ _ this]

theorem setReg_reg (r r' : Reg) (v : Nat) (s : State) :
    (s.setReg r v).reg r' = if r' = r then v else s.reg r' := by
  split
  · next h => rw [h, setReg_reg_same]
  · next h => exact setReg_reg_ne v s h

theorem reg_congr {s t : State} (h : s.x = t.x) (r : Reg) : s.reg r = t.reg r := by
  simp only [State.reg, h]

@[simp] theorem issue_reg (i : Instr) (s : State) (r : Reg) : (s.issue i).reg r = s.reg r :=
  reg_congr (issue_x i s) r

/-- Two states with the same registers, policy and `rounds` give a command the same snapshot. -/
theorem sample_congr {s t : State} (hx : s.x = t.x) (hp : s.mrPolicy = t.mrPolicy)
    (hr : s.mrRounds = t.mrRounds) (i : Option Instr) : s.sample i = t.sample i := by
  unfold State.sample
  simp only [State.reg, hx, hp, hr]

/-! ### the command under way -/

/-- On an idle engine the command is accepted first. -/
theorem issue_idle {s : State} (i : Instr) (h : s.phase = .idle) :
    s.issue i = s.acceptAs (encode i) (some i) := by
  unfold State.issue; rw [h]

/-- On a busy engine the command was accepted before. -/
theorem issue_busy {s : State} {r : Running} (i : Instr) (h : s.phase = .busy r) :
    s.issue i = s := by
  unfold State.issue; rw [h]

theorem snapshot_busy {s : State} {r : Running} (h : s.phase = .busy r) : s.snapshot = r.snap := by
  unfold State.snapshot; rw [h]

@[simp] theorem snapshot_acceptAs (v : Word) (i : Option Instr) (s : State) :
    (s.acceptAs v i).snapshot = s.sample i := rfl

/-- An idle engine's command computes from the operands that stand in the state. -/
@[simp] theorem snapshot_issue_idle {s : State} (i : Instr) (h : s.phase = .idle) :
    (s.issue i).snapshot = s.sample (some i) := by
  rw [issue_idle i h]; rfl

/-- A command under way makes the engine busy. -/
theorem issue_busy_phase (i : Instr) (s : State) : ∃ r, (s.issue i).phase = .busy r := by
  unfold State.issue
  split
  · exact ⟨_, rfl⟩
  · next r h => exact ⟨r, h⟩

end Sys2Proof.Machine
end

