-- ==== Sys2Proof/Laws/Mru.lean ====
section
/-!
SUPPORT. What the Miller–Rabin unit can do: where a round leaves it, how the words it takes and the
words it leaves make up the words presented, and that a step of the unit is a part of the run.
-/

namespace Sys2Proof.Machine

/-- Where a round's verdict leaves the unit: finished, or drawing again with a round left. -/
theorem afterRound_cases (policy : Policy) (rounds : Nat) (v : Verdict) (m : Mru) :
    (∃ v', afterRound policy rounds v m = { m with stage := .finished v' }) ∨
      (m.k < rounds + 1 ∧ afterRound policy rounds v m = { m with stage := .draw 0 0 }) := by
  unfold afterRound
  split
  · exact .inl ⟨_, rfl⟩
  split
  · exact .inl ⟨_, rfl⟩
  split
  · exact .inl ⟨_, rfl⟩
  split
  · next h => exact .inr ⟨h, rfl⟩
  · exact .inl ⟨_, rfl⟩

@[simp] theorem afterRound_w (policy : Policy) (rounds : Nat) (v : Verdict) (m : Mru) :
    (afterRound policy rounds v m).w = m.w := by
  obtain ⟨_, h⟩ | ⟨_, h⟩ := afterRound_cases policy rounds v m <;> rw [h]

@[simp] theorem afterRound_k (policy : Policy) (rounds : Nat) (v : Verdict) (m : Mru) :
    (afterRound policy rounds v m).k = m.k := by
  obtain ⟨_, h⟩ | ⟨_, h⟩ := afterRound_cases policy rounds v m <;> rw [h]

/-- Finishing the round of a unit that is not squaring changes nothing. -/
theorem finishRound_eq_self (p : Nat) (policy : Policy) (rounds : Nat) {m : Mru}
    (h : ∀ y left, m.stage ≠ .square y left) : finishRound p policy rounds m = m := by
  unfold finishRound
  split
  · next y left hs => exact absurd hs (h y left)
  · rfl
  · rfl

/-- A finished round is not squaring. -/
theorem finishRound_not_square (p : Nat) (policy : Policy) (rounds : Nat) (m : Mru) (y left : Nat) :
    (finishRound p policy rounds m).stage ≠ .square y left := by
  unfold finishRound
  split
  · obtain ⟨_, h⟩ | ⟨_, h⟩ := afterRound_cases policy rounds (squareLoop p _ _) m <;> rw [h] <;> simp
  · next h => rw [h]; simp
  · next h => rw [h]; simp

/-- Finishing a round twice is finishing it once. -/
@[simp] theorem finishRound_finishRound (p : Nat) (policy : Policy) (rounds : Nat) (m : Mru) :
    finishRound p policy rounds (finishRound p policy rounds m) = finishRound p policy rounds m :=
  finishRound_eq_self _ _ _ (finishRound_not_square p policy rounds m)

/-- The run begins by finishing the round. -/
theorem runTest_finishRound (p : Nat) (policy : Policy) (rounds : Nat) (m : Mru) (ws : List Word) :
    runTest p policy rounds (finishRound p policy rounds m) ws = runTest p policy rounds m ws := by
  cases ws <;> simp [runTest]

/-- A unit that draws takes the next word. -/
theorem runTest_cons_draw {p : Nat} {policy : Policy} {rounds : Nat} {m : Mru} {t j : Nat}
    (w : Word) (ws : List Word) (h : (finishRound p policy rounds m).stage = .draw t j) :
    runTest p policy rounds m (w :: ws) =
      runTest p policy rounds
        (takeWord p policy rounds t j w (finishRound p policy rounds m)) ws := by
  simp only [runTest, h]

/-- A finished test takes no word. -/
theorem runTest_finished {p : Nat} {policy : Policy} {rounds : Nat} {m : Mru} {v : Verdict}
    (ws : List Word) (h : (finishRound p policy rounds m).stage = .finished v) :
    runTest p policy rounds m ws = (finishRound p policy rounds m, ws) := by
  cases ws with
  | nil => rfl
  | cons w ws => simp only [runTest, h]

/-- After its round a unit is drawing or finished. -/
theorem finishRound_stage (p : Nat) (policy : Policy) (rounds : Nat) (m : Mru) :
    (∃ t j, (finishRound p policy rounds m).stage = .draw t j) ∨
      ∃ v, (finishRound p policy rounds m).stage = .finished v := by
  rcases h : (finishRound p policy rounds m).stage with ⟨t, j⟩ | ⟨y, left⟩ | ⟨v⟩
  · exact .inl ⟨t, j, rfl⟩
  · exact absurd h (finishRound_not_square p policy rounds m y left)
  · exact .inr ⟨v, rfl⟩

/-- The run is never left in the middle of a round. -/
theorem runTest_not_square (p : Nat) (policy : Policy) (rounds : Nat) (m : Mru) (ws : List Word)
    (y left : Nat) : (runTest p policy rounds m ws).1.stage ≠ .square y left := by
  induction ws generalizing m with
  | nil => exact finishRound_not_square p policy rounds m y left
  | cons w ws ih =>
    obtain ⟨t, j, h⟩ | ⟨v, h⟩ := finishRound_stage p policy rounds m
    · rw [runTest_cons_draw w ws h]; exact ih _
    · rw [runTest_finished _ h]; simp [h]

/-- The words left are an end of the words presented (rule R222). -/
theorem runTest_suffix (p : Nat) (policy : Policy) (rounds : Nat) (m : Mru) (ws : List Word) :
    ∃ used, ws = used ++ (runTest p policy rounds m ws).2 := by
  induction ws generalizing m with
  | nil => exact ⟨[], rfl⟩
  | cons w ws ih =>
    obtain ⟨t, j, h⟩ | ⟨v, h⟩ := finishRound_stage p policy rounds m
    · obtain ⟨used, hu⟩ := ih (takeWord p policy rounds t j w (finishRound p policy rounds m))
      rw [runTest_cons_draw w ws h]
      exact ⟨w :: used, by rw [List.cons_append, ← hu]⟩
    · rw [runTest_finished _ h]; exact ⟨[], rfl⟩

/-- A run that is still drawing has taken every word presented (rule R96). -/
theorem runTest_draw_nil (p : Nat) (policy : Policy) (rounds : Nat) (m : Mru) (ws : List Word)
    {t j : Nat} (h : (runTest p policy rounds m ws).1.stage = .draw t j) :
    (runTest p policy rounds m ws).2 = [] := by
  induction ws generalizing m with
  | nil => rfl
  | cons w ws ih =>
    obtain ⟨t', j', hs⟩ | ⟨v, hs⟩ := finishRound_stage p policy rounds m
    · rw [runTest_cons_draw w ws hs] at h ⊢; exact ih _ h
    · rw [runTest_finished _ hs] at h; simp [hs] at h

/-- A run over more words goes on where the run over the first words waited (rules R96, R216). -/
theorem runTest_append_draw (p : Nat) (policy : Policy) (rounds : Nat) (m : Mru)
    (ws more : List Word) {t j : Nat} (h : (runTest p policy rounds m ws).1.stage = .draw t j) :
    runTest p policy rounds m (ws ++ more)
      = runTest p policy rounds (runTest p policy rounds m ws).1 more := by
  induction ws generalizing m with
  | nil => exact (runTest_finishRound p policy rounds m more).symm
  | cons w ws ih =>
    obtain ⟨t', j', hs⟩ | ⟨v, hs⟩ := finishRound_stage p policy rounds m
    · rw [runTest_cons_draw w ws hs] at h ⊢
      rw [List.cons_append, runTest_cons_draw w _ hs]
      exact ih _ h
    · rw [runTest_finished _ hs] at h; simp [hs] at h

/-- The squarings of a round, one done first (rule R213). -/
theorem squareLoop_succ (p left y : Nat) : squareLoop p (left + 1) y =
    match squareOnce p y with
    | .inl v => v
    | .inr y' => squareLoop p left y' := rfl

/-- A step of the unit is a part of its run: the run ends the same after it (rule R48). -/
theorem runTest_mruStep (p : Nat) (policy : Policy) (rounds : Nat) (m : Mru) (ws : List Word) :
    runTest p policy rounds (mruStep p policy rounds m ws).1 (mruStep p policy rounds m ws).2
      = runTest p policy rounds m ws := by
  obtain ⟨d, s, k, w, stage⟩ := m
  cases stage with
  | finished v => rfl
  | draw t j =>
    cases ws with
    | nil => rfl
    | cons x xs => rfl
  | square y left =>
    have hfin : ∀ m' : Mru, finishRound p policy rounds m'
        = finishRound p policy rounds ⟨d, s, k, w, .square y left⟩ →
        runTest p policy rounds m' ws
          = runTest p policy rounds ⟨d, s, k, w, .square y left⟩ ws := by
      intro m' h
      rw [← runTest_finishRound, h, runTest_finishRound]
    cases left with
    | zero =>
      refine hfin _ ?_
      exact finishRound_finishRound p policy rounds ⟨d, s, k, w, .square y 0⟩
    | succ left =>
      unfold mruStep
      simp only
      have hloop := squareLoop_succ p left y
      split
      · next v hv =>
        rw [hv] at hloop
        refine hfin _ ?_
        have := finishRound_finishRound p policy rounds ⟨d, s, k, w, .square y (left + 1)⟩
        simp only [finishRound, hloop] at this ⊢
        exact this
      · next y' hy =>
        rw [hy] at hloop
        refine hfin _ ?_
        simp only [finishRound, hloop]
        rfl

end Sys2Proof.Machine
end

