-- ==== Sys2Proof/Laws/Machine.lean ====
section
/-!
SUPPORT. What a command can do, said once: `exec_cases` lists every way a command ends, and the later
proofs cite it instead of unfolding the meanings. With it, the operations on the running command and
the engine's turn.
-/

namespace Sys2Proof.Machine

/-- The unit registers of a busy engine replaced. -/
theorem withUnit_busy {s : State} {r : Running} (u : UnitRegs) (rng : List Word)
    (h : s.phase = .busy r) :
    s.withUnit u rng = { s with phase := .busy { r with unit := u }, rng := rng } := by
  unfold State.withUnit; rw [h]

theorem withUnit_phase_busy {s : State} {r : Running} (u : UnitRegs) (rng : List Word)
    (h : s.phase = .busy r) : (s.withUnit u rng).phase = .busy { r with unit := u } := by
  rw [withUnit_busy u rng h]

theorem withUnit_rng_busy {s : State} {r : Running} (u : UnitRegs) (rng : List Word)
    (h : s.phase = .busy r) : (s.withUnit u rng).rng = rng := by
  rw [withUnit_busy u rng h]

@[simp] theorem completeTest_reg_same (rd : Reg) (v : Verdict) (k w : Nat) (s : State) :
    (s.completeTest rd v k w).reg rd = w := setReg_reg_same rd w _

theorem completeTest_reg_ne {rd r : Reg} (v : Verdict) (k w : Nat) (s : State) (h : r ≠ rd) :
    (s.completeTest rd v k w).reg r = s.reg r := setReg_reg_ne w _ h

/-- How a command can end: in a command error, or completed with one register written, or completed
with no register written (NOP, CMP, MRROUND), or as an MRTEST: rejected, finished with a verdict, or
waiting for an entropy word. The state a case starts from is the command under way, `s.issue i`. -/
inductive EndsAs (i : Instr) (s : State) : State → Prop
  /-- A command error (rule R275). -/
  | error (c : ErrCode) (hc : c ≠ .none) (hi : isMrtest i = false) :
    EndsAs i s ((s.issue i).cmdError c)
  /-- NOP (rule R250). -/
  | nop (hi : i = .nop) : EndsAs i s (s.issue i).complete
  /-- MOV, LDI, MONTMUL, MODEXP, GCD, MODINV (rule R31). -/
  | writes (rd : Reg) (v : Nat) (hd : destination i = some rd) (hi : isMrtest i = false) :
    EndsAs i s ((s.issue i).setReg rd v).complete
  /-- CMP (rule R253). -/
  | compare (ra rb : Reg) (a b : Nat) (hi : i = .cmp ra rb) :
    EndsAs i s ((s.issue i).setCompare a b).complete
  /-- MRROUND without error (rule R214). -/
  | verdict (ra rb : Reg) (v : Verdict) (hi : i = .mrround ra rb) :
    EndsAs i s ((s.issue i).setVerdict v).complete
  /-- MRTEST of a rejected candidate (rule R215). -/
  | rejected (rd ra : Reg) (hi : i = .mrtest rd ra)
    (hp : preReject (s.issue i).snapshot.a = true) :
    EndsAs i s ((s.issue i).completeTest rd .rejected 0 0)
  /-- MRTEST with its verdict (rule R215). -/
  | tested (rd ra : Reg) (v : Verdict) (hi : i = .mrtest rd ra)
    (hp : preReject (s.issue i).snapshot.a = false)
    (hv : (runTest (s.issue i).snapshot.a (s.issue i).snapshot.policy
      (s.issue i).snapshot.rounds.toNat (s.issue i).mruUnit (s.issue i).rng).1.stage
        = .finished v) :
    EndsAs i s (((s.issue i).withUnit
      (.mru (runTest (s.issue i).snapshot.a (s.issue i).snapshot.policy
        (s.issue i).snapshot.rounds.toNat (s.issue i).mruUnit (s.issue i).rng).1)
      (runTest (s.issue i).snapshot.a (s.issue i).snapshot.policy
        (s.issue i).snapshot.rounds.toNat (s.issue i).mruUnit (s.issue i).rng).2).completeTest rd v
      (runTest (s.issue i).snapshot.a (s.issue i).snapshot.policy
        (s.issue i).snapshot.rounds.toNat (s.issue i).mruUnit (s.issue i).rng).1.k
      (runTest (s.issue i).snapshot.a (s.issue i).snapshot.policy
        (s.issue i).snapshot.rounds.toNat (s.issue i).mruUnit (s.issue i).rng).1.w)
  /-- MRTEST waiting (rules R96, R293). -/
  | waiting (rd ra : Reg) (t j : Nat) (hi : i = .mrtest rd ra)
    (hp : preReject (s.issue i).snapshot.a = false)
    (hs : (runTest (s.issue i).snapshot.a (s.issue i).snapshot.policy
      (s.issue i).snapshot.rounds.toNat (s.issue i).mruUnit (s.issue i).rng).1.stage = .draw t j) :
    EndsAs i s ((s.issue i).withUnit
      (.mru (runTest (s.issue i).snapshot.a (s.issue i).snapshot.policy
        (s.issue i).snapshot.rounds.toNat (s.issue i).mruUnit (s.issue i).rng).1) [])

/-- Every command answers a next state, and ends in one of the listed ways. -/
theorem exec_cases (i : Instr) (s : State) : ∃ t, exec i s = .next t ∧ EndsAs i s t := by
  cases i with
  | nop => exact ⟨_, rfl, .nop rfl⟩
  | mov rd ra => exact ⟨_, rfl, .writes rd _ rfl rfl⟩
  | ldi rd imm => exact ⟨_, rfl, .writes rd _ rfl rfl⟩
  | cmp ra rb => exact ⟨_, rfl, .compare ra rb _ _ rfl⟩
  | montmul rd ra rb rn =>
    simp only [exec, execMontmul]
    split
    · exact ⟨_, rfl, .error _ (by decide) rfl⟩
    split
    · exact ⟨_, rfl, .error _ (by decide) rfl⟩
    · exact ⟨_, rfl, .writes rd _ rfl rfl⟩
  | modexp rd ra rb rn =>
    simp only [exec, execModexp]
    split
    · exact ⟨_, rfl, .error _ (by decide) rfl⟩
    split
    · exact ⟨_, rfl, .error _ (by decide) rfl⟩
    · exact ⟨_, rfl, .writes rd _ rfl rfl⟩
  | gcd rd ra rb => exact ⟨_, rfl, .writes rd _ rfl rfl⟩
  | modinv rd ra rb =>
    simp only [exec, execModinv]
    split
    · exact ⟨_, rfl, .error _ (by decide) rfl⟩
    split
    · exact ⟨_, rfl, .error _ (by decide) rfl⟩
    · exact ⟨_, rfl, .writes rd _ rfl rfl⟩
  | mrround ra rb =>
    simp only [exec, execMrround]
    split
    · exact ⟨_, rfl, .verdict ra rb _ rfl⟩
    split
    · exact ⟨_, rfl, .error _ (by decide) rfl⟩
    · exact ⟨_, rfl, .verdict ra rb _ rfl⟩
  | mrtest rd ra =>
    simp only [exec, execMrtest]
    split
    · next h => exact ⟨_, rfl, .rejected rd ra rfl h⟩
    next h =>
    have hp : preReject (s.issue (.mrtest rd ra)).snapshot.a = false := by simpa using h
    split
    · next v hv => exact ⟨_, rfl, .tested rd ra v rfl hp hv⟩
    · next t j hs =>
      refine ⟨_, rfl, ?_⟩
      rw [runTest_draw_nil _ _ _ _ _ hs]
      exact .waiting rd ra t j rfl hp hs
    · next y left hs => exact absurd hs (runTest_not_square _ _ _ _ _ _ _)

/-- The state a command answers is one of the listed ends. -/
theorem exec_ends {i : Instr} {s t : State} (h : exec i s = .next t) : EndsAs i s t := by
  obtain ⟨u, hu, he⟩ := exec_cases i s
  rw [hu] at h
  cases h
  exact he

/-- The engine's turn on a running command is that command (rule R122). -/
theorem engineTurn_running {s : State} {r : Running} {i : Instr} (hr : s.rst = false)
    (hp : s.phase = .busy r) (hi : r.instr = some i) : engineTurn s = exec i s := by
  unfold engineTurn
  rw [hr, hp]
  simp only [Bool.false_eq_true, if_false, hi]

/-- The engine's turn on an illegal word (rule R116). -/
theorem engineTurn_illegal {s : State} {r : Running} (hr : s.rst = false)
    (hp : s.phase = .busy r) (hi : r.instr = none) :
    engineTurn s = .next (s.cmdError .illegalCmd) := by
  unfold engineTurn
  rw [hr, hp]
  simp only [Bool.false_eq_true, if_false, hi]

/-- An idle engine does nothing on its turn (rule R291). -/
theorem engineTurn_idle {s : State} (hp : s.phase = .idle) : engineTurn s = .next s := by
  unfold engineTurn
  rw [hp]
  split <;> rfl

/-- An engine held in reset does nothing on its turn (rule R311). -/
theorem engineTurn_inReset {s : State} (hr : s.rst = true) : engineTurn s = .next s := by
  unfold engineTurn
  rw [if_pos hr]

theorem step_nil {s : State} (h : s.inputs = []) : step s = engineTurn s := by
  unfold step turn; rw [h]

theorem step_cons {s : State} {e : Event} {rest : List Event} (h : s.inputs = e :: rest) :
    step s = eventTurn e { s with inputs := rest } := by
  unfold step turn; rw [h]

end Sys2Proof.Machine
end

