-- ==== Sys2Proof/Laws/PerInstr.lean ====
section
/-!
SUPPORT. Statements about every command as syntax, one lemma per constructor: the word the encoder
writes for a well-formed command spells the row of its mnemonic (rules R111 to R115).
-/

namespace Sys2Proof.Laws

/-- The mnemonic of a command. -/
def opOf : Instr → Op
  | .nop => .nop
  | .mov _ _ => .mov
  | .ldi _ _ => .ldi
  | .cmp _ _ => .cmp
  | .montmul _ _ _ _ => .montmul
  | .modexp _ _ _ _ => .modexp
  | .gcd _ _ _ => .gcd
  | .modinv _ _ _ => .modinv
  | .mrtest _ _ => .mrtest
  | .mrround _ _ => .mrround

/-- The encoder's word spells the command's row. -/
def EncodeSpellsItsRow.Statement (i : Instr) : Prop :=
  i.wellFormed = true → (rowOf (opOf i)).spells (encode i) = true

namespace EncodeSpellsItsRow

theorem nop : Statement .nop := fun _ => by decide

theorem mov (rd ra : Reg) : Statement (.mov rd ra) := fun _ => by
  rw [spells_iff, encode, toNat_packR _ _ _ _ _ (by decide) rd.isLt ra.isLt (by decide) (by decide)]
  have := rd.isLt; have := ra.isLt
  simp only [opOf, fixedBits, rowOf, BitVec.toNat_ofNat]; omega

theorem ldi (rd : Reg) (imm21 : Nat) : Statement (.ldi rd imm21) := fun h => by
  have hi : imm21 < 2 ^ 21 := by simpa [Instr.wellFormed] using h
  rw [spells_iff, encode, toNat_packI _ _ _ (by decide) rd.isLt hi]
  have := rd.isLt
  simp only [opOf, fixedBits, rowOf, BitVec.toNat_ofNat]; omega

theorem cmp (ra rb : Reg) : Statement (.cmp ra rb) := fun _ => by
  rw [spells_iff, encode, toNat_packR _ _ _ _ _ (by decide) (by decide) ra.isLt rb.isLt (by decide)]
  have := ra.isLt; have := rb.isLt
  simp only [opOf, fixedBits, rowOf, BitVec.toNat_ofNat]; omega

theorem montmul (rd ra rb rn : Reg) : Statement (.montmul rd ra rb rn) := fun _ => by
  rw [spells_iff, encode, toNat_packR _ _ _ _ _ (by decide) rd.isLt ra.isLt rb.isLt rn.isLt]
  have := rd.isLt; have := ra.isLt; have := rb.isLt; have := rn.isLt
  simp only [opOf, fixedBits, rowOf, BitVec.toNat_ofNat]; omega

theorem modexp (rd ra rb rn : Reg) : Statement (.modexp rd ra rb rn) := fun _ => by
  rw [spells_iff, encode, toNat_packR _ _ _ _ _ (by decide) rd.isLt ra.isLt rb.isLt rn.isLt]
  have := rd.isLt; have := ra.isLt; have := rb.isLt; have := rn.isLt
  simp only [opOf, fixedBits, rowOf, BitVec.toNat_ofNat]; omega

theorem gcd (rd ra rb : Reg) : Statement (.gcd rd ra rb) := fun _ => by
  rw [spells_iff, encode, toNat_packR _ _ _ _ _ (by decide) rd.isLt ra.isLt rb.isLt (by decide)]
  have := rd.isLt; have := ra.isLt; have := rb.isLt
  simp only [opOf, fixedBits, rowOf, BitVec.toNat_ofNat]; omega

theorem modinv (rd ra rb : Reg) : Statement (.modinv rd ra rb) := fun _ => by
  rw [spells_iff, encode, toNat_packR _ _ _ _ _ (by decide) rd.isLt ra.isLt rb.isLt (by decide)]
  have := rd.isLt; have := ra.isLt; have := rb.isLt
  simp only [opOf, fixedBits, rowOf, BitVec.toNat_ofNat]; omega

theorem mrtest (rd ra : Reg) : Statement (.mrtest rd ra) := fun _ => by
  rw [spells_iff, encode, toNat_packR _ _ _ _ _ (by decide) rd.isLt ra.isLt (by decide) (by decide)]
  have := rd.isLt; have := ra.isLt
  simp only [opOf, fixedBits, rowOf, BitVec.toNat_ofNat]; omega

theorem mrround (ra rb : Reg) : Statement (.mrround ra rb) := fun _ => by
  rw [spells_iff, encode, toNat_packR _ _ _ _ _ (by decide) (by decide) ra.isLt rb.isLt (by decide)]
  have := ra.isLt; have := rb.isLt
  simp only [opOf, fixedBits, rowOf, BitVec.toNat_ofNat]; omega

end EncodeSpellsItsRow

end Sys2Proof.Laws
end

