-- ==== Sys2Proof/Laws/Port.lean ====
section
/-!
SUPPORT. The host port, said once: what stands at each address, when an access is refused and what
an access does otherwise; and the words of an operand register.
-/

namespace Sys2Proof.Machine

/-- An aligned word access out of reset reaches what the map has at its address (rules R84, R85). -/
theorem reach_eq {s : State} {addr : Addr} (hr : s.rst = false) (ha : addr.toNat % 4 = 0) :
    s.reach .word addr =
      match placeAt s.params.nw addr with
      | some p => .ok p
      | none => .error .unmapped := by
  unfold State.reach
  exact (if_neg (by simp [hr])).trans (if_pos (by simp [alignedWord, ha]))

/-- An access that is not an aligned word access is refused (rules R87, R311). -/
theorem reach_not_aligned (s : State) {size : AccessSize} {addr : Addr}
    (h : size ≠ .word ∨ addr.toNat % 4 ≠ 0) : ∃ e, s.reach size addr = .error e := by
  unfold State.reach
  split
  · exact ⟨_, rfl⟩
  · have : alignedWord size addr = false := by
      unfold alignedWord
      rcases h with h | h <;> simp [h]
    simp [this]

/-- In reset every access is refused (rule R311). -/
theorem reach_inReset {s : State} (size : AccessSize) (addr : Addr) (h : s.rst = true) :
    s.reach size addr = .error .inReset := by
  unfold State.reach; rw [if_pos h]

/-- A read of a mapped place (rule R84). -/
theorem port_read {s : State} {addr : Addr} {p : Place} (hr : s.rst = false)
    (ha : addr.toNat % 4 = 0) (hp : placeAt s.params.nw addr = some p) :
    s.port (.read .word addr) =
      if s.busy && !busyReadable p then (.error, s) else (.readOkay (s.readPlace p), s) := by
  simp only [State.port, State.busRead, reach_eq hr ha, hp]
  split <;> rename_i h <;> split at h <;> simp_all

/-- A write of a mapped place (rule R85). -/
theorem port_write {s : State} {addr : Addr} {p : Place} (v : Word) (hr : s.rst = false)
    (ha : addr.toNat % 4 = 0) (hp : placeAt s.params.nw addr = some p) :
    s.port (.write .word addr v) =
      if s.busy && !busyWritable v p then (.error, s) else (.writeOkay, s.writePlace v p) := by
  simp only [State.port, State.busWrite, reach_eq hr ha, hp]
  split <;> rename_i h <;> split at h <;> simp_all

/-- The answer of the port is *error* exactly when there is a bus error, which changes nothing
(rule R280). -/
theorem port_error_iff (s : State) (a : Access) :
    (s.port a).1 = .error ↔ ∃ e, s.busError a = some e := by
  cases a with
  | read size addr =>
    simp only [State.port, State.busError]
    split <;> simp
  | write size addr v =>
    simp only [State.port, State.busError]
    split <;> simp

theorem port_error_state {s : State} {a : Access} (h : (s.port a).1 = .error) :
    s.port a = (.error, s) := by
  cases a with
  | read size addr =>
    simp only [State.port] at h ⊢
    split at h
    · cases h
    · rfl
  | write size addr v =>
    simp only [State.port] at h ⊢
    split at h
    · cases h
    · rfl

/-- Word `j` of `r` stands in the window at its offset (rule R83). -/
theorem placeAt_window {nw : Nat} (r : Reg) {j : Nat} (hn : nw ≤ 128) (hj : j < nw) :
    placeAt nw (BitVec.ofNat 16 (0x1000 + 0x200 * r.val + 4 * j)) = some (.window r j) := by
  have hr := r.isLt
  have ha : (BitVec.ofNat 16 (0x1000 + 0x200 * r.val + 4 * j)).toNat
      = 0x1000 + 0x200 * r.val + 4 * j := by
    rw [BitVec.toNat_ofNat, Nat.mod_eq_of_lt (by omega)]
  have hc : controlRegAt (0x1000 + 0x200 * r.val + 4 * j) = none := by
    unfold controlRegAt
    split <;> first | omega | rfl
  have h1 : (0x1000 + 0x200 * r.val + 4 * j - 0x1000) / 0x200 = r.val := by omega
  have h2 : (0x1000 + 0x200 * r.val + 4 * j - 0x1000) % 0x200 / 4 = j := by omega
  unfold placeAt
  rw [ha, hc]
  simp only [windowAt, h2]
  rw [dif_pos (by omega), if_pos hj]
  congr 2
  exact Fin.ext h1

/-- The word just written is the word read (rule R85). -/
theorem wordOf_replaceWord_same (v j : Nat) (w : Word) : wordOf (replaceWord v j w) j = w := by
  unfold wordOf replaceWord
  apply BitVec.eq_of_toNat_eq
  rw [BitVec.toNat_ofNat]
  have hw : w.toNat < 2 ^ 32 := w.isLt
  have hlow : v % 2 ^ (32 * j) < 2 ^ (32 * j) := Nat.mod_lt _ (Nat.two_pow_pos _)
  have hsplit : v / 2 ^ (32 * (j + 1)) * 2 ^ (32 * (j + 1)) + w.toNat * 2 ^ (32 * j)
      + v % 2 ^ (32 * j)
      = 2 ^ (32 * j) * (v / 2 ^ (32 * (j + 1)) * 2 ^ 32 + w.toNat) + v % 2 ^ (32 * j) := by
    rw [show 32 * (j + 1) = 32 * j + 32 by ring, pow_add]; ring
  rw [hsplit, Nat.mul_add_div (Nat.two_pow_pos _), Nat.div_eq_of_lt hlow, Nat.add_zero,
    Nat.mul_add_mod', Nat.mod_eq_of_lt hw]

/-- Bit `k` of an operand with word `j` replaced (rule R85). -/
theorem testBit_replaceWord (v j : Nat) (w : Word) (k : Nat) :
    (replaceWord v j w).testBit k =
      if 32 * j ≤ k ∧ k < 32 * (j + 1) then w.getLsbD (k - 32 * j) else v.testBit k := by
  have hw : w.toNat < 2 ^ 32 := w.isLt
  have hlow : v % 2 ^ (32 * j) < 2 ^ (32 * j) := Nat.mod_lt _ (Nat.two_pow_pos _)
  have hmid : w.toNat * 2 ^ (32 * j) + v % 2 ^ (32 * j) < 2 ^ (32 * (j + 1)) := by
    rw [show 32 * (j + 1) = 32 * j + 32 by ring, pow_add]
    nlinarith [Nat.two_pow_pos (32 * j)]
  have e : replaceWord v j w = 2 ^ (32 * (j + 1)) * (v / 2 ^ (32 * (j + 1)))
      + (2 ^ (32 * j) * w.toNat + v % 2 ^ (32 * j)) := by
    unfold replaceWord; ring
  rw [e, Nat.testBit_two_pow_mul_add _ (by rw [mul_comm (2 ^ (32 * j))]; exact hmid)]
  by_cases h1 : k < 32 * (j + 1)
  · rw [if_pos h1, Nat.testBit_two_pow_mul_add _ hlow]
    by_cases h2 : 32 * j ≤ k
    · rw [if_neg (by omega), if_pos ⟨h2, h1⟩]; rfl
    · rw [if_pos (by omega), if_neg (by omega), Nat.testBit_mod_two_pow]
      simp [show k < 32 * j by omega]
  · rw [if_neg h1, if_neg (by omega), Nat.testBit_div_two_pow]
    congr 1; omega

/-- The other words of the operand keep their value (rule R85). -/
theorem wordOf_replaceWord_ne (v j j' : Nat) (w : Word) (h : j' ≠ j) :
    wordOf (replaceWord v j w) j' = wordOf v j' := by
  apply BitVec.eq_of_getLsbD_eq
  intro i hi
  unfold wordOf
  rw [BitVec.getLsbD_ofNat, BitVec.getLsbD_ofNat, Nat.testBit_div_two_pow,
    Nat.testBit_div_two_pow, testBit_replaceWord]
  rw [if_neg (by omega)]

/-- A window write keeps the operand within its width (rule R30). -/
theorem replaceWord_lt {v nw j : Nat} (w : Word) (hv : v < 2 ^ (32 * nw)) (hj : j < nw) :
    replaceWord v j w < 2 ^ (32 * nw) := by
  apply Nat.lt_pow_two_of_testBit
  intro k hk
  rw [testBit_replaceWord, if_neg (by omega)]
  exact Nat.testBit_lt_two_pow (lt_of_lt_of_le hv (Nat.pow_le_pow_right two_pos hk))

end Sys2Proof.Machine
end

