-- ==== Sys2Proof/Tests/Slice0.lean ====
section
/-!
SUPPORT. Small tests on single commands and single transactions, with expected results from
spec/95_test_vectors.md, and for every statement that has hypotheses a state and operands that meet
them. Nothing here is a statement for the provers.
-/

namespace Sys2Proof.Tests

open Sys2Proof.Machine

/-- The reset state with the values `a`, `b`, `n` in `r0`, `r1`, `r2`. -/
def loaded (a b n : Nat) : State := { State.reset with x := #v[a, b, n, 0, 0, 0, 0, 0] }

/-- What a step's next state shows; nothing if the step does not answer one. -/
def shown {α : Type} (f : State → α) : Outcome → Option α
  | .next t => some (f t)
  | .fault _ => none
  | .refused _ => none

/-- A field after a command on the reset state with `r0`, `r1`, `r2` loaded. -/
def after {α : Type} (f : State → α) (i : Instr) (a b n : Nat) : Option α :=
  shown f (exec i (loaded a b n))

/-- A field after an MRTEST r3, r0 with these settings and entropy words. -/
def afterTest {α : Type} (f : State → α) (p : Nat) (policy : Policy) (rounds : Byte)
    (words : List Word) : Option α :=
  shown f (exec (.mrtest 3 0)
    { loaded p 0 0 with mrPolicy := policy, mrRounds := rounds, rng := words })

/-- STATUS and ERRCODE. -/
def report (t : State) : Nat × Nat := (t.statusWord.toNat, t.errcodeWord.toNat)

/-! ### Well-formedness -/

/-- LDI's immediate must fit 21 bits (rule R113). -/
theorem test_ldi_immediate_too_wide_is_ill_formed : (Instr.ldi 0 (2 ^ 21)).wellFormed = false := by
  decide

theorem test_largest_ldi_immediate_is_well_formed :
    (Instr.ldi 7 2097151).wellFormed = true := by decide

/-! ### Decoding: words written out from the patterns of rule R115 (V-EN1 to V-EN17) -/

theorem test_decode_support_words :
    decode 0b00000000000000000000000000000000#32 = .ok .nop ∧
    decode 0b00000000000000000001010100000001#32 = .ok (.mov 5 2) ∧
    decode 0b00001000000000000000100100000010#32 = .ok (.ldi 1 65537) ∧
    decode 0b00000000000000001110100000000011#32 = .ok (.cmp 5 3) := by decide

theorem test_decode_montgomery_words :
    decode 0b00000000000010010010010000001000#32 = .ok (.montmul 4 4 4 4) ∧
    decode 0b00000000000000000101110000001001#32 = .ok (.modexp 4 3 1 0) ∧
    decode 0b00000000000001100101101100001001#32 = .ok (.modexp 3 3 1 3) := by decide

theorem test_decode_gcd_words :
    decode 0b00000000000000000000101000010000#32 = .ok (.gcd 2 1 0) ∧
    decode 0b00000000000000000000101100010001#32 = .ok (.modinv 3 1 0) := by decide

theorem test_decode_primality_words :
    decode 0b00000000000000000011111100011000#32 = .ok (.mrtest 7 7) ∧
    decode 0b00000000000000000100000000011001#32 = .ok (.mrround 0 1) := by decide

/-- Each illegal word is rejected for the reason rule R116 gives. -/
theorem test_illegal_words_are_named :
    decode 0x00000100#32 = .error (.nonzeroFixedField 0) ∧
    decode 0x00100009#32 = .error (.nonzeroFixedField 9) ∧
    decode 0x00000004#32 = .error (.unassignedOpcode 4) ∧
    decode 0x000000FF#32 = .error (.unassignedOpcode 255) ∧
    decode 0x00020A10#32 = .error (.nonzeroFixedField 16) := by decide

theorem test_lanes_are_little_endian :
    decodeLanes [0x02#8, 0x09#8, 0x00#8, 0x08#8] = .ok (.ldi 1 65537) ∧
    decodeLanes [0x02#8, 0x09#8] = .error (.notOneWord 2) := by decide

theorem test_encode_worked_words :
    encode (.ldi 1 65537) = 0x08000902#32 ∧ encode (.modexp 4 3 1 0) = 0x00005C09#32 ∧
    encode (.cmp 6 5) = 0x00017003#32 ∧ encode (.mrround 0 1) = 0x00004019#32 := by decide

/-- The lines of rule R120's examples. -/
theorem test_assemble_lines :
    assembleLine "MODEXP r3, r0, r1, r2 ; power".toList = some (.modexp 3 0 1 2) ∧
    assembleLine "LDI r1, 65537".toList = some (.ldi 1 65537) ∧
    assembleLine "LDI r1, 0x10001".toList = some (.ldi 1 65537) ∧
    assembleLine "NOP".toList = some .nop ∧
    assembleLine "LDI r1, 2097152".toList = none := by decide

/-! ### The commands -/

/-- V-SU1: NOP clears ERR and ERRCODE and sets DONE. -/
theorem test_nop_clears_error :
    shown report (exec .nop { State.reset with done := true, err := true, errcode := .noInv })
      = some (2, 0) := by decide

/-- V-SU2. -/
theorem test_mov_copies : after (fun t => (t.reg 5, t.reg 2)) (.mov 5 2) 0 0 3233
    = some (3233, 3233) := by decide

/-- V-SU4: the upper bits are cleared. -/
theorem test_ldi_clears_upper_bits : after (fun t => t.reg 0) (.ldi 0 62) (2 ^ 1024 - 1) 0 0
    = some 62 := by decide +kernel

/-- V-SU6, V-SU9: equal values; the comparison is unsigned. -/
theorem test_cmp_flags :
    after (fun t => (t.eq, t.lt)) (.cmp 0 1) 62 62 0 = some (true, false) ∧
    after (fun t => (t.eq, t.lt)) (.cmp 0 1) (2 ^ 1024 - 1) 0 0 = some (false, false) := by
  decide +kernel

/-- V-SU7. -/
theorem test_cmp_less : after (fun t => (t.eq, t.lt)) (.cmp 0 1) 62 2971 0
    = some (false, true) := by decide

/-- V-MM1, V-MM10, V-MM15. -/
theorem test_montmul_results :
    after (fun t => t.reg 3) (.montmul 3 0 1 2) 3 5 7 = some 4 ∧
    after (fun t => t.reg 3) (.montmul 3 0 1 2) 3232 3232 3233 = some 2360 ∧
    after (fun t => t.reg 3) (.montmul 3 0 1 2) (2 ^ 1024 - 2) 1 (2 ^ 1024 - 1)
      = some (2 ^ 1024 - 2) := by decide +kernel

/-- V-MM17, V-MM18: the even modulus is checked before the range. -/
theorem test_montmul_errors :
    after report (.montmul 3 0 1 2) 9 9 0 = some (6, 2) ∧
    after report (.montmul 3 0 1 2) 7 1 7 = some (6, 3) := by decide

/-- V-ME1, V-ME5, V-ME12, V-ME14. -/
theorem test_modexp_results :
    after (fun t => t.reg 3) (.modexp 3 0 1 2) 62 65537 3233 = some 2502 ∧
    after (fun t => t.reg 3) (.modexp 3 0 1 2) 0 0 7 = some 1 ∧
    after (fun t => t.reg 3) (.modexp 3 0 1 2) 0 0 1 = some 0 ∧
    after (fun t => t.reg 3) (.modexp 3 0 1 2) 5 (2 ^ 1024 - 1) 7 = some 6 := by decide +kernel

/-- V-ME20, V-ME22. -/
theorem test_modexp_errors :
    after report (.modexp 3 0 1 2) 3233 65537 3233 = some (6, 3) ∧
    after report (.modexp 3 0 1 2) 428 65537 400 = some (6, 2) := by decide

/-- V-GC1, V-GC2, V-GC3, V-GC4, V-GC10. -/
theorem test_gcd_results :
    after (fun t => t.reg 3) (.gcd 3 0 1) 0 0 0 = some 0 ∧
    after (fun t => t.reg 3) (.gcd 3 0 1) 0 12 0 = some 12 ∧
    after (fun t => t.reg 3) (.gcd 3 0 1) 12 0 0 = some 12 ∧
    after (fun t => t.reg 3) (.gcd 3 0 1) 12 18 0 = some 6 ∧
    after (fun t => t.reg 3) (.gcd 3 0 1) (2 ^ 1024 - 2) (2 ^ 1023) 0 = some 2 := by decide +kernel

/-- V-MI2, V-MI5, V-MI9, V-MI12. -/
theorem test_modinv_results :
    after (fun t => t.reg 3) (.modinv 3 0 1) 65537 3120 0 = some 2753 ∧
    after (fun t => t.reg 3) (.modinv 3 0 1) 5 3 0 = some 2 ∧
    after (fun t => t.reg 3) (.modinv 3 0 1) 65537 131072 0 = some 65537 ∧
    after (fun t => t.reg 3) (.modinv 3 0 1) 3 2 0 = some 1 := by decide +kernel

/-- V-MI14, V-MI17, V-MI18. -/
theorem test_modinv_errors :
    after report (.modinv 3 0 1) 0 7 0 = some (6, 5) ∧
    after report (.modinv 3 0 1) 65537 1 0 = some (6, 4) ∧
    after report (.modinv 3 0 1) 0 0 0 = some (6, 4) := by decide

/-- V-MR9, V-MR12, V-MR14, V-MR20, V-MR26. -/
theorem test_mrround_verdicts :
    after (fun t => (t.mrv, t.result)) (.mrround 0 1) 97 5 0 = some (.pass, true) ∧
    after (fun t => (t.mrv, t.result)) (.mrround 0 1) 561 2 0 = some (.compositeWitness, false) ∧
    after (fun t => (t.mrv, t.result)) (.mrround 0 1) 561 5 0 = some (.inconclusive, false) ∧
    after (fun t => (t.mrv, t.result)) (.mrround 0 1) 9 3 0 = some (.compositeGcd, false) ∧
    after (fun t => (t.mrv, t.result)) (.mrround 0 1) 2 0 0 = some (.rejected, false) := by
  decide +kernel

/-- V-MR25. -/
theorem test_mrround_witness_range :
    after report (.mrround 0 1) 97 1 0 = some (6, 3) ∧
    after report (.mrround 0 1) 97 97 0 = some (6, 3) := by decide

/-- V-MT6, V-MT8, V-MT9: the draws 2, 4, 8 and 8, 8, 8 and 2, 4 for 9 (`L = 3`, so a word `w - 2`
draws `w`). -/
theorem test_mrtest_policies :
    afterTest (fun t => (t.result, t.mrv, t.mrDone, t.reg 3)) 9 .earlyExit 40#8
      [0#32, 2#32, 6#32, 77#32] = some (true, .pass, 3, 8) ∧
    afterTest (fun t => (t.result, t.mrv, t.mrDone, t.reg 3)) 9 .classic 2#8
      [6#32, 6#32, 6#32] = some (true, .pass, 3, 8) ∧
    afterTest (fun t => (t.result, t.mrv, t.mrDone, t.reg 3)) 9 .earlyExit 1#8
      [0#32, 2#32] = some (false, .inconclusive, 2, 4) := by decide +kernel

/-- V-DW3: two rejected words, and the fourth word stays at the port; and with the words run out the
test stays busy (rule R96). -/
theorem test_mrtest_takes_its_words :
    afterTest (fun t => (t.reg 3, t.rng)) 97 .earlyExit 40#8
      [0xFFFFFFFF#32, 0x12345678#32, 0x00000080#32, 5#32] = some (2, [5#32]) ∧
    afterTest (fun t => (t.busy, t.rngReady)) 97 .earlyExit 40#8 [0xFFFFFFFF#32]
      = some (true, true) := by decide +kernel

/-- V-DW5, V-DW6: a draw of two words. -/
theorem test_draw_of_two_words :
    drawWitness (2 ^ 40 + 15) 0 0 [0x5#32, 0x100#32] = some (2 ^ 40 + 7, []) ∧
    drawWitness (2 ^ 40 + 15) 0 0 [0x5#32, 0xFFFFFFFF#32, 0#32, 0#32] = some (2, []) := by
  decide +kernel

/-! ### The port, the interrupt and the resets -/

/-- V-HI2, V-HI4, V-HI6, V-HI8. -/
theorem test_port_reads :
    State.reset.port (.read .word 0x0004#16) = (.readOkay 0x00080020#32, State.reset) ∧
    State.reset.busError (.read .word 0x0020#16) = some .unmapped ∧
    State.reset.busError (.read .word 0x1080#16) = some .unmapped ∧
    State.reset.busError (.read .word 0x0002#16) = some .notAlignedWord := by decide

/-- V-HI10, its two nonzero words. -/
theorem test_operand_words :
    wordOf 0x0123456789ABCDEF 0 = 0x89ABCDEF#32 ∧ wordOf 0x0123456789ABCDEF 1 = 0x01234567#32 ∧
    replaceWord 0x0123456789ABCDEF 1 0xFFFFFFFF#32 = 0xFFFFFFFF89ABCDEF := by decide

/-- V-HI13, V-HI14, V-HI16. -/
theorem test_register_writes :
    (State.reset.port (.write .word 0x0008#16 0x7FFFFFFC#32)).2.ctrlWord = 0#32 ∧
    (State.reset.port (.write .word 0x0018#16 0x000001FF#32)).2.mrRoundsWord = 0xFF#32 ∧
    (({ State.reset with done := true, err := true } : State).port
      (.write .word 0x000C#16 0x2#32)).2.statusWord = 4#32 := by decide

/-- V-HI18, V-HI19, V-HI22: the interlock, and the soft reset that ends a running command. -/
theorem test_busy_port :
    (State.reset.accept 0x00000000#32).busError (.read .word 0x1000#16) = some .busy ∧
    (State.reset.accept 0x00000000#32).busError (.write .word 0x0010#16 0#32) = some .busy ∧
    (State.reset.accept 0x00000000#32).port (.write .word 0x0008#16 0x80000000#32)
      = (.writeOkay, State.reset) := by decide

/-- V-HI23: a STATUS read after a CMD write may come before the engine's turn or after it. -/
theorem test_status_before_and_after_the_turn :
    shown (·.answers) (Host.Core.run core 2
      { State.reset with inputs := [cmdWrite .nop, rd 0x00C] })
      = some [.readOkay 1#32, .writeOkay] ∧
    shown (·.answers) (Host.Core.run core 3
      { State.reset with inputs := cmdWrite .nop :: waitDone })
      = some [.readOkay 2#32, .writeOkay] := by decide

/-- V-IR1, V-IR5. -/
theorem test_interrupt_after_commands :
    shown (·.irq) (exec .nop { State.reset with irqEn := true }) = some true ∧
    shown (fun t => (t.irq, t.err)) (exec (.montmul 3 0 1 2) { loaded 7 1 7 with irqEn := true })
      = some (true, true) := by decide

/-- V-RS3, V-RS4: commands on a freshly reset engine, placed as its next step. -/
theorem test_placed_commands_run_after_reset :
    shown report (step (State.reset.withFetchWord 32 0x00064809)) = some (6, 2) ∧
    shown report (step (State.reset.withFetchWord 32 0x00000818)) = some (0x402, 0) := by decide

/-! ### The units -/

/-- The trace of the source's formula for V-MI2 ends in 2753; a pair that is not coprime has no
value. -/
theorem test_source_inverse :
    sourceInverse 65537 3120 = some 2753 ∧ sourceInverse 4 6 = none := by decide +kernel

/-- One step of the running gcd's unit: BinGcd(12, 18) starts from 3, 18 and `k = 1` and goes on with
3 and 6 (rule R182). -/
theorem test_gcd_unit_step :
    (match ((loaded 12 18 0).accept (encode (.gcd 2 0 1))).stepUnit.phase with
      | .idle => none
      | .busy r => some r.unit) = some (.gcdu 3 6 1) := by decide

/-! ### Witnesses: states and operands that meet the hypotheses of the statements -/

/-- A narrow engine (`W = 64`) with `a`, `b`, `n` in `r0`, `r1`, `r2`. -/
def narrow (a b n : Nat) : State :=
  { State.resetFor ⟨2⟩ with x := #v[a, b, n, 0, 0, 0, 0, 0] }

/-- An MRTEST of 5 under way on the narrow engine, with one word presented. -/
def testing : State := { (narrow 5 0 0).accept (encode (.mrtest 3 0)) with rng := [3#32] }

/-- The running command of `testing`. -/
def testingRun : Running :=
  ⟨some (.mrtest 3 0), ⟨5, 0, 0, .classic, 40#8⟩, .mru ⟨1, 2, 0, 0, .draw 0 0⟩⟩

theorem testing_phase : testing.phase = .busy testingRun := by decide

theorem narrow_inv {a b n : Nat} (ha : a < 2 ^ 64) (hb : b < 2 ^ 64) (hn : n < 2 ^ 64) :
    (narrow a b n).Inv where
  width := rfl
  registers r := by
    have hw : (narrow a b n).params.width = 64 := rfl
    rw [hw]
    fin_cases r <;>
      first
        | exact ha
        | exact hb
        | exact hn
        | exact Nat.two_pow_pos 64
  count := Nat.zero_le _
  compare := by rintro ⟨h, _⟩; cases h
  verdict h := by cases h
  error h := by cases h
  busyStatus h := by cases h
  running _ h := by cases h
  inReset h := by cases h

theorem testing_inv : testing.Inv where
  width := by decide
  registers r := by
    have hw : testing.params.width = 64 := rfl
    rw [hw]
    fin_cases r <;> decide
  count := by decide
  compare := by rintro ⟨h, _⟩; cases h
  verdict h := by cases h
  error h := by cases h
  busyStatus _ := by decide
  running r h := by
    rw [testing_phase] at h
    cases h
    refine ⟨by decide, by decide, ?_⟩
    intro m hm
    cases hm
    exact ⟨by decide, rfl, rfl, by decide, by decide, by simp [testingRun], by simp, by simp⟩
  inReset h := by cases h

/-- The boundary of the one checked operand. -/
theorem witness_DecodeEncodeRoundTrip : (Instr.ldi 7 (2 ^ 21 - 1)).wellFormed = true := by decide

theorem witness_OpcodeMapIsComplete :
    decode 0xFFFFFF02#32 = .ok (.ldi 7 2097151) ∧ 2097151 < 2 ^ 21 ∧
    (0xFFFFFF02#32).toNat = 0x02 + 2 ^ 8 * 7 + 2 ^ 11 * 2097151 := by decide

theorem witness_AtMostOneRowSpellsAWord :
    ∃ r ∈ opcodeMap, r.spells 0x00003F18#32 = true :=
  ⟨⟨.mrtest, 0xFFFFC0FF#32, 0x00000018#32⟩, by decide, by decide⟩

/-- The edges of the unassigned opcodes, and a nonzero fixed field on an idle engine. -/
theorem witness_IllegalWordCompletesWithIllegalCmd :
    State.reset.phase = .idle ∧ State.reset.rst = false ∧ decoded 0x00000100#32 = none ∧
    [0x03#32, 0x04#32, 0x07#32, 0x08#32, 0x09#32, 0x0A#32, 0x0F#32, 0x10#32, 0x11#32, 0x12#32,
      0x17#32, 0x18#32, 0x19#32, 0x1A#32, 0xFF#32].map (fun v => (decoded v).isNone)
      = [false, true, true, false, false, true, true, false, false, true, true, false, false, true,
        true] := by decide

/-- An idle and a busy engine, out of reset. -/
theorem witness_CommandWriteIsAccepted :
    State.reset.rst = false ∧ State.reset.phase = .idle ∧
    testing.rst = false ∧ testing.phase = .busy testingRun := by decide

/-- Both clauses: no event left, and the engine's turn next. -/
theorem witness_StepRunsTheRunningCommand :
    testing.rst = false ∧ testing.phase = .busy testingRun ∧
    testingRun.instr = some (.mrtest 3 0) ∧ testing.inputs = [] ∧
    ({ testing with inputs := [.engine] } : State).phase = .busy testingRun ∧
    ({ testing with inputs := [.engine] } : State).inputs = .engine :: [] := by decide

theorem witness_PlacedCommandRunsNext :
    0xFFFFFF02 < 2 ^ 32 ∧ decodeTableWord 32 0xFFFFFF02 = some (.ldi 7 2097151) := by decide

theorem witness_AcceptedCommandEndsAsAtomicCommand :
    State.reset.phase = .idle ∧ (Instr.mrtest 7 7).wellFormed = true := by decide

/-- An idle engine with its flags 0, for the last clause too. -/
theorem witness_NopOnlyCompletes :
    State.reset.phase = .idle ∧ State.reset.result = false ∧ State.reset.eq = false ∧
    State.reset.lt = false ∧ State.reset.mrv = .compositeWitness := by decide

theorem witness_MovCopiesRegister : (loaded 0 0 3233).phase = .idle := by decide

theorem witness_CmpSetsEqAndLt : (loaded 62 2971 0).phase = .idle := by decide

theorem witness_LdiLoadsImmediate :
    (0xFFFFFF02#32).toNat % 256 = 0x02 ∧ State.reset.phase = .idle ∧ 2097151 < 2 ^ 21 := by decide

/-- The three clauses at their boundaries: `n = 0`; `a = n` and `b = n`; `a = b = n - 1`. -/
theorem witness_MontmulRule :
    (∀ a b n, (loaded a b n).phase = .idle) ∧
    (loaded 9 9 0).reg 2 % 2 = 0 ∧
    ((loaded 7 1 7).reg 2 % 2 = 1 ∧ (loaded 7 1 7).reg 2 ≤ (loaded 7 1 7).reg 0) ∧
    ((loaded 1 7 7).reg 2 % 2 = 1 ∧ (loaded 1 7 7).reg 2 ≤ (loaded 1 7 7).reg 1) ∧
    ((loaded 6 6 7).reg 2 % 2 = 1 ∧ (loaded 6 6 7).reg 0 < (loaded 6 6 7).reg 2 ∧
      (loaded 6 6 7).reg 1 < (loaded 6 6 7).reg 2) :=
  ⟨fun _ _ _ => rfl, by decide⟩

/-- `n = 0`; `a = n`; `a = n - 1`, and `n = 1`. -/
theorem witness_ModexpRule :
    (∀ a b n, (loaded a b n).phase = .idle) ∧
    (loaded 5 3 0).reg 2 % 2 = 0 ∧
    ((loaded 1 0 1).reg 2 % 2 = 1 ∧ (loaded 1 0 1).reg 2 ≤ (loaded 1 0 1).reg 0) ∧
    ((loaded 6 3 7).reg 2 % 2 = 1 ∧ (loaded 6 3 7).reg 0 < (loaded 6 3 7).reg 2) ∧
    ((loaded 0 0 1).reg 2 % 2 = 1 ∧ (loaded 0 0 1).reg 0 < (loaded 0 0 1).reg 2) :=
  ⟨fun _ _ _ => rfl, by decide⟩

/-- Its two clauses about zero operands. -/
theorem witness_GcdRule :
    (loaded 0 12 0).phase = .idle ∧ (loaded 0 12 0).reg 0 = 0 ∧
    (loaded 12 0 0).phase = .idle ∧ (loaded 12 0 0).reg 1 = 0 := by decide

/-- `m = 1`; `m = 2` with an even value; `m = 2` with an odd one. -/
theorem witness_ModinvRule :
    (∀ a m, (loaded a m 0).phase = .idle) ∧
    (loaded 65537 1 0).reg 1 ≤ 1 ∧
    (1 < (loaded 4 2 0).reg 1 ∧ ¬ Nat.Coprime ((loaded 4 2 0).reg 0) ((loaded 4 2 0).reg 1)) ∧
    (1 < (loaded 3 2 0).reg 1 ∧ Nat.Coprime ((loaded 3 2 0).reg 0) ((loaded 3 2 0).reg 1)) :=
  ⟨fun _ _ => rfl, by decide⟩

/-- `p = 3` and `p = 4`; `p = 5` with the witnesses 1 and 5; and with 2 and 4. -/
theorem witness_MrroundRule :
    (∀ p w, (loaded p w 0).phase = .idle) ∧
    (loaded 3 2 0).reg 0 ≤ 3 ∧ (loaded 4 2 0).reg 0 % 2 = 0 ∧
    (3 < (loaded 5 1 0).reg 0 ∧ (loaded 5 1 0).reg 0 % 2 = 1 ∧ (loaded 5 1 0).reg 1 < 2) ∧
    (3 < (loaded 5 5 0).reg 0 ∧ (loaded 5 5 0).reg 0 - 1 < (loaded 5 5 0).reg 1) ∧
    (3 < (loaded 5 2 0).reg 0 ∧ 2 ≤ (loaded 5 2 0).reg 1 ∧
      (loaded 5 2 0).reg 1 ≤ (loaded 5 2 0).reg 0 - 1) ∧
    ((loaded 5 4 0).reg 1 ≤ (loaded 5 4 0).reg 0 - 1) :=
  ⟨fun _ _ => rfl, by decide⟩

theorem witness_RoundByPowers :
    3 < 5 ∧ 5 % 2 = 1 ∧ 2 ≤ 4 ∧ 4 ≤ 5 - 1 ∧ 5 - 1 = 1 * 2 ^ 2 ∧ 1 % 2 = 1 := by decide

theorem witness_DecompositionOfCandidate : 3 < 5 ∧ 5 % 2 = 1 := by decide

/-- A rejected candidate, and a test of 5 whose words let it end (`ROUNDS = 0`, the draw 4). -/
theorem witness_MrtestRule :
    (loaded 3 0 0).phase = .idle ∧ (loaded 3 0 0).reg 0 ≤ 3 ∧ (loaded 4 0 0).reg 0 % 2 = 0 ∧
    3 < (loaded 5 0 0).reg 0 ∧ (loaded 5 0 0).reg 0 % 2 = 1 ∧
    testOver 5 0 .classic 0 (drawsFrom 5 0 0 [3#32, 2#32]) = some (.pass, 1, 4) := by decide

/-- A test of 5 with no word presented, and with one that is rejected. -/
theorem witness_MrtestWaitsForEntropy :
    (loaded 5 0 0).phase = .idle ∧ (loaded 5 0 0).rst = false ∧ 3 < (loaded 5 0 0).reg 0 ∧
    (loaded 5 0 0).reg 0 % 2 = 1 ∧
    testOver 5 40 .classic 0 (drawsFrom 5 0 0 []) = none ∧
    testOver 5 40 .classic 0 (drawsFrom 5 0 0 [3#32]) = none := by decide

/-- The smallest candidate, `L = 2` and one word: the largest accepted value 2 and the rejected 3. -/
theorem witness_DrawWitnessByRejection :
    3 < 5 ∧ 5 % 2 = 1 ∧ 2 ^ (2 - 1) ≤ 5 - 3 ∧ 5 - 3 < 2 ^ 2 ∧
    [2#32].length = (2 + 31) / 32 ∧
    Nat.ofDigits (2 ^ 32) ([2#32].map BitVec.toNat) % 2 ^ 2 ≤ 5 - 3 ∧
    5 - 3 < Nat.ofDigits (2 ^ 32) ([3#32].map BitVec.toNat) % 2 ^ 2 := by decide

theorem witness_DrawsCoverExactlyTheWitnesses :
    3 < 5 ∧ 5 % 2 = 1 ∧ drawWitness 5 0 0 [3#32, 2#32] = some (4, []) ∧ 2 ≤ 4 ∧ 4 ≤ 5 - 1 := by
  decide

theorem witness_MrroundPassesPrimes :
    (loaded 5 4 0).phase = .idle ∧ ((loaded 5 4 0).reg 0).Prime ∧ 3 < (loaded 5 4 0).reg 0 ∧
    2 ≤ (loaded 5 4 0).reg 1 ∧ (loaded 5 4 0).reg 1 ≤ (loaded 5 4 0).reg 0 - 1 :=
  ⟨by decide, by norm_num [State.reg, loaded], by decide, by decide, by decide⟩

/-- Under CLASSIC with `ROUNDS = 0` and under EARLY_EXIT, one draw each. -/
theorem witness_MrtestAcceptsPrimes :
    Nat.Prime 5 ∧ 0 + 1 ≤ (drawsFrom 5 0 0 [2#32]).length ∧
    (∀ policy, ({ loaded 5 0 0 with mrPolicy := policy, mrRounds := 0#8, rng := [2#32] } : State).phase
      = .idle) :=
  ⟨by norm_num, by decide, fun _ => rfl⟩

/-- A command that meets the frames' hypotheses on an idle and on a busy engine. -/
theorem witness_ArithmeticCommandsFrame :
    (∃ t, exec (.montmul 3 0 1 2) (loaded 3 5 7) = .next t) ∧
    (∃ t, exec (.gcd 2 0 1) ((loaded 12 18 0).accept (encode (.gcd 2 0 1))) = .next t) ∧
    (∀ ra rb, Instr.montmul 3 0 1 2 ≠ .cmp ra rb) ∧
    (∀ rd ra, Instr.montmul 3 0 1 2 ≠ .mrtest rd ra) ∧
    (∀ ra rb, Instr.montmul 3 0 1 2 ≠ .mrround ra rb) := by
  refine ⟨?_, ?_, by decide, by decide, by decide⟩
  · obtain ⟨t, h, _⟩ := exec_cases (.montmul 3 0 1 2) (loaded 3 5 7); exact ⟨t, h⟩
  · obtain ⟨t, h, _⟩ := exec_cases (.gcd 2 0 1) ((loaded 12 18 0).accept (encode (.gcd 2 0 1)))
    exact ⟨t, h⟩

theorem witness_CompareFrame : ∃ t, exec (.cmp 0 1) (loaded 62 62 0) = .next t := ⟨_, rfl⟩

theorem witness_MillerRabinFrame :
    (∃ t, exec (.mrround 0 1) (loaded 9 3 0) = .next t) ∧
    (∃ t, exec (.mrtest 3 0) testing = .next t) := by
  constructor
  · obtain ⟨t, h, _⟩ := exec_cases (.mrround 0 1) (loaded 9 3 0); exact ⟨t, h⟩
  · obtain ⟨t, h, _⟩ := exec_cases (.mrtest 3 0) testing; exact ⟨t, h⟩

theorem witness_CommandErrorsArePrecise :
    (loaded 0 0 0).phase = .idle ∧
    (∃ t, exec (.modinv 3 0 1) (loaded 0 0 0) = .next t ∧ t.err = true) ∧
    ∃ r, (State.reset.accept 0x00000100#32).rst = false ∧
      (State.reset.accept 0x00000100#32).phase = .busy r ∧ r.instr = none :=
  ⟨by decide, ⟨_, rfl, rfl⟩, _, rfl, rfl, by decide⟩

theorem witness_CommandsButMrtestComplete : isMrtest (.mrround 0 1) = false := by decide

theorem witness_UnitStepsNeverShow :
    testing.Inv ∧ testing.phase = .busy testingRun ∧ testingRun.instr = some (.mrtest 3 0) :=
  ⟨testing_inv, testing_phase, rfl⟩

/-- The first and the last word of a register, and another word of the same register. -/
theorem witness_WindowWordsReadBack :
    State.reset.phase = .idle ∧ State.reset.rst = false ∧ State.reset.params.legal = true ∧
    0 < State.reset.params.nw ∧ 31 < State.reset.params.nw ∧ (31 ≠ 0 ∨ (7 : Reg) ≠ 0) := by decide

theorem witness_LoadwLoadsTheOperand :
    (narrow 0 0 0).Inv ∧ (narrow 0 0 0).phase = .idle ∧ (narrow 0 0 0).rst = false ∧
    2 ^ 64 - 1 < 2 ^ (narrow 0 0 0).params.width :=
  ⟨narrow_inv (by decide) (by decide) (by decide), rfl, rfl, by decide⟩

/-- A byte access at an aligned address, and a word access at a misaligned one. -/
theorem witness_NarrowOrMisalignedAccessIsBusError :
    AccessSize.byte ≠ .word ∧ (0x0002#16).toNat % 4 ≠ 0 := by decide

/-- An address on each side of each border of the map (`W = 1024`). -/
theorem witness_UnmappedAccessIsBusError :
    State.reset.phase = .idle ∧ State.reset.rst = false ∧
    [0x001C#16, 0x0020#16, 0x0FFC#16, 0x1000#16, 0x107C#16, 0x1080#16, 0x1E7C#16, 0x1FFC#16,
      0x2000#16, 0xFFFC#16].map (fun a => (a.toNat % 4, (State.reset.port (.read .word a)).1 == .error))
      = [(0, false), (0, true), (0, true), (0, false), (0, false), (0, true), (0, false), (0, true),
        (0, true), (0, true)] := by decide

/-- A busy engine and both kinds of CTRL write. -/
theorem witness_BusyInterlock :
    testing.phase = .busy testingRun ∧ testing.rst = false ∧ testing.params.legal = true ∧
    1 < testing.params.nw ∧ (0x80000000#32).getLsbD 31 = true ∧ (0x7FFFFFFF#32).getLsbD 31 = false ∧
    testing.done = false ∧ testing.err = false := by decide

/-- Busy and idle. -/
theorem witness_StatusWriteClearsDoneAndErr :
    testing.rst = false ∧ ({ State.reset with done := true, err := true } : State).rst = false := by
  decide

theorem witness_ControlWritesTakeTheirFields :
    State.reset.phase = .idle ∧ State.reset.rst = false ∧
    (0x7FFFFFFF#32).getLsbD 31 = false := by decide

theorem witness_OtherControlWords : (narrow 1 2 3).Inv ∧ (narrow 1 2 3).rst = false :=
  ⟨narrow_inv (by decide) (by decide) (by decide), rfl⟩

/-- An access that is refused and one that is answered. -/
theorem witness_AccessesAreAnsweredOrFault :
    (State.reset.port (.read .byte 0x0000#16)).1 = .error ∧
    (State.reset.port (.read .word 0x0000#16)).1 ≠ .error := by decide

theorem witness_InterruptFollowsCompletion :
    (loaded 0 0 0).phase = .idle ∧
    (∃ t, exec .nop (loaded 0 0 0) = .next t ∧ t.phase = .idle ∧ t.done = true) ∧
    (0x2#32).getLsbD 1 = true ∧ (0x1#32).getLsbD 31 = false :=
  ⟨rfl, ⟨_, rfl, rfl, rfl⟩, by decide, by decide⟩

theorem witness_ResetValues : testing.params.legal = true ∧
    testing.resetEngine.phase = .idle ∧ (testing.clockReset true).rst = true := by decide

theorem witness_SoftResetRestoresResetState :
    testing.rst = false ∧ (0x80000003#32).getLsbD 31 = true := by decide

/-- A state that meets the invariant, busy in the middle of a test, and its step. -/
theorem witness_StepKeepsInvariant : testing.Inv ∧ ∃ t, step testing = .next t := by
  refine ⟨testing_inv, ?_⟩
  obtain ⟨t, h, _⟩ := exec_cases (.mrtest 3 0) testing
  exact ⟨t, by rw [step_nil rfl, engineTurn_running rfl testing_phase rfl, h]⟩

/-- A step that changes a register in each of the three ways: a window write, a command, a reset. -/
theorem witness_RegistersChangeOnlyAsTold :
    shown (fun t => t.reg 1) (step { narrow 1 2 3 with inputs := [wr (windowOffset 1 0) 9#32] })
      = some 9 ∧
    shown (fun t => t.reg 1) (step ((narrow 1 2 3).withFetchWord 32 0x00000102)) = some 0 ∧
    shown (fun t => t.reg 1) (step { narrow 1 2 3 with inputs := [.rst true] }) = some 0 := by decide

theorem witness_FlagsChangeOnlyByTheirCommands :
    shown (fun t => t.lt) (step ((narrow 1 2 3).withFetchWord 32 0x00004003)) = some true ∧
    shown (fun t => t.mrv) (step ((narrow 1 2 3).withFetchWord 32 0x00004019)) = some .rejected ∧
    shown (fun t => t.mrDone) (step ((narrow 1 2 3).withFetchWord 32 0x00000018)) = some 0 := by
  decide

/-- The smallest modulus and an ordinary one. -/
theorem witness_MontgomeryDatapathIsCorrect :
    (1 % 2 = 1 ∧ 0 < 1) ∧ (7 % 2 = 1 ∧ 6 < 7 ∧ 6 < 2 ^ 1024) := by decide +kernel

theorem witness_ModExpDatapathIsCorrect :
    (1 % 2 = 1 ∧ 0 < 1 ∧ 0 < 2 ^ 64) ∧ (7 % 2 = 1 ∧ 6 < 7 ∧ 2 ^ 64 - 1 < 2 ^ 64) := by decide

theorem witness_SourceFormulaAgreesWithModinv :
    1 < 2 ∧ 1 ≤ 3 ∧ Nat.Coprime 3 2 ∧ ¬ Nat.Coprime 4 2 := by decide

theorem witness_MontgomeryDomainIdentities : 3 % 2 = 1 ∧ 1 < 3 ∧ 2 < 3 := by decide

/-- Key A of spec/95_test_vectors.md, `n = 61 · 53`, with `e = 17` and `d = 2753`. -/
theorem witness_RsaRoundTrip :
    ∃ s : State, s.phase = .idle ∧ Nat.Prime 61 ∧ Nat.Prime 53 ∧ 61 ≠ 53 ∧ 61 % 2 = 1 ∧
      53 % 2 = 1 ∧ 17 * 2753 % ((61 - 1) * (53 - 1)) = 1 ∧ s.reg 2 = 61 * 53 ∧ s.reg 1 = 17 ∧
      s.reg 3 = 2753 ∧ s.reg 0 < 61 * 53 ∧ (4 : Reg) ≠ 2 ∧ (4 : Reg) ≠ 3 :=
  ⟨{ State.reset with x := #v[62, 17, 3233, 2753, 0, 0, 0, 0] }, rfl, by norm_num, by norm_num,
    by decide⟩

theorem witness_VerifySetsEq :
    (loaded 428 65537 3233).phase = .idle ∧ (loaded 428 65537 3233).reg 2 % 2 = 1 ∧
    (loaded 428 65537 3233).reg 0 < (loaded 428 65537 3233).reg 2 ∧ (4 : Reg) ≠ 5 := by decide

end Sys2Proof.Tests
end

/-!
## What a command and a step can do

`EndsAs` (`Laws/Machine.lean`) lists how a command ends; below it is read off once, field by field.
`StepsTo` lists how a step ends, and the statements about every step are case analyses of it.
-/

namespace Sys2Proof.Machine

/-! ### Registers and CMD of the command under way -/

@[simp] theorem stepUnit_reg (s : State) (r : Reg) : s.stepUnit.reg r = s.reg r :=
  reg_congr (stepUnit_x s) r
@[simp] theorem resetEngine_reg (s : State) (r : Reg) : s.resetEngine.reg r = 0 := by
  simp [State.reg]

/-- CMD holds the word of the command under way (rule R39). -/
theorem issue_cmd (i : Instr) (s : State) :
    (s.issue i).cmd = if s.busy then s.cmd else encode i := by
  unfold State.issue State.busy
  split <;> next h => simp [h, Phase.isBusy]

/-! ### What each way to end leaves unchanged -/

/-- No command touches CTRL, MR_ROUNDS, the width, `rst` or the agents' events and answers
(rules R31, R46). -/
theorem EndsAs.keeps {i : Instr} {s t : State} (h : EndsAs i s t) :
    t.irqEn = s.irqEn ∧ t.mrPolicy = s.mrPolicy ∧ t.mrRounds = s.mrRounds ∧
      t.params = s.params ∧ t.rst = s.rst ∧ t.inputs = s.inputs ∧ t.answers = s.answers ∧
      t.cmd = (s.issue i).cmd := by
  cases h <;> simp [State.completeTest]

/-- A command writes no register, or its destination at its completion (rule R31). -/
theorem EndsAs.x_cases {i : Instr} {s t : State} (h : EndsAs i s t) :
    t.x = s.x ∨ ∃ (rd : Reg) (v : Nat), destination i = some rd ∧ t.x = s.x.set rd.val v ∧
      t.phase = .idle ∧ t.done = true := by
  cases h with
  | error c hc hi => exact .inl (by simp)
  | nop hi => exact .inl (by simp)
  | writes rd v hd hi => exact .inr ⟨rd, v, hd, by simp, rfl, rfl⟩
  | compare ra rb a b hi => exact .inl (by simp)
  | verdict ra rb v hi => exact .inl (by simp)
  | rejected rd ra hi hp =>
    exact .inr ⟨rd, 0, by rw [hi]; rfl, by simp [State.completeTest], rfl, rfl⟩
  | tested rd ra v hi hp hv =>
    exact .inr ⟨rd, _, by rw [hi]; rfl, by simp [State.completeTest]; rfl, rfl, rfl⟩
  | waiting rd ra t j hi hp hs => exact .inl (by simp)

/-- A register that a command changes is its destination, and the command has completed
(rule R32). -/
theorem EndsAs.destination_of_reg_ne {i : Instr} {s t : State} {r : Reg} (h : EndsAs i s t)
    (hr : t.reg r ≠ s.reg r) : destination i = some r ∧ t.phase = .idle ∧ t.done = true := by
  obtain hx | ⟨rd, v, hd, hx, hp, hdone⟩ := h.x_cases
  · exact absurd (reg_congr hx r) hr
  · have hset : t.reg r = (s.setReg rd v).reg r := reg_congr hx r
    by_cases e : r = rd
    · exact ⟨by rw [hd, e], hp, hdone⟩
    · exact absurd (hset.trans (setReg_reg_ne v s e)) hr

theorem EndsAs.reg_eq {i : Instr} {s t : State} {r : Reg} (h : EndsAs i s t)
    (hd : destination i ≠ some r) : t.reg r = s.reg r := by
  by_contra hr
  exact hd (h.destination_of_reg_ne hr).1

/-- A command without a destination writes no register (rule R31). -/
theorem EndsAs.x_eq {i : Instr} {s t : State} (h : EndsAs i s t) (hd : destination i = none) :
    t.x = s.x := by
  obtain hx | ⟨rd, v, hrd, _⟩ := h.x_cases
  · exact hx
  · rw [hd] at hrd; cases hrd

/-- Only CMP writes EQ and LT (rule R37). -/
theorem EndsAs.compare_flags {i : Instr} {s t : State} (h : EndsAs i s t)
    (hc : ∀ ra rb, i ≠ .cmp ra rb) : t.eq = s.eq ∧ t.lt = s.lt := by
  cases h with
  | compare ra rb a b hi => exact absurd hi (hc ra rb)
  | _ => simp [State.completeTest]

/-- Only MRROUND and MRTEST write RESULT and MRV (rule R37). -/
theorem EndsAs.verdict_flags {i : Instr} {s t : State} (h : EndsAs i s t)
    (hr : ∀ ra rb, i ≠ .mrround ra rb) (ht : ∀ rd ra, i ≠ .mrtest rd ra) :
    t.result = s.result ∧ t.mrv = s.mrv := by
  cases h with
  | verdict ra rb v hi => exact absurd hi (hr ra rb)
  | rejected rd ra hi => exact absurd hi (ht rd ra)
  | tested rd ra v hi => exact absurd hi (ht rd ra)
  | waiting rd ra t j hi => exact absurd hi (ht rd ra)
  | _ => simp

/-- Only MRTEST writes MR_DONE and takes entropy words (rules R43, R222). -/
theorem EndsAs.test_count {i : Instr} {s t : State} (h : EndsAs i s t)
    (ht : ∀ rd ra, i ≠ .mrtest rd ra) : t.mrDone = s.mrDone ∧ t.rng = s.rng := by
  cases h with
  | rejected rd ra hi => exact absurd hi (ht rd ra)
  | tested rd ra v hi => exact absurd hi (ht rd ra)
  | waiting rd ra t j hi => exact absurd hi (ht rd ra)
  | _ => simp

/-! ### What a step can do -/

/-- An access reaches a place only out of reset, as a word access, by the address map (rules R82, R87,
R311). -/
theorem reach_ok {s : State} {size : AccessSize} {addr : Addr} {p : Place}
    (h : s.reach size addr = .ok p) :
    s.rst = false ∧ size = .word ∧ placeAt s.params.nw addr = some p := by
  have hr : s.rst = false := by
    by_contra hn
    rw [reach_inReset size addr (by simpa using hn)] at h
    cases h
  by_cases ha : size = .word ∧ addr.toNat % 4 = 0
  · obtain ⟨rfl, ha⟩ := ha
    rw [reach_eq hr ha] at h
    split at h
    · next q hq => cases h; exact ⟨hr, rfl, hq⟩
    · cases h
  · obtain ⟨e, he⟩ := reach_not_aligned s (size := size) (addr := addr) (by tauto)
    rw [he] at h
    cases h

/-- An access leaves the engine as it is, or is a write that the port lets through (rules R84,
R85, R91, R280). -/
theorem port_cases (s : State) (a : Access) :
    (s.port a).2 = s ∨ ∃ addr v p, a = .write .word addr v ∧ s.rst = false ∧
      placeAt s.params.nw addr = some p ∧ (s.busy = true → busyWritable v p = true) ∧
      (s.port a).2 = s.writePlace v p := by
  cases a with
  | read size addr =>
    refine .inl ?_
    simp only [State.port]
    split <;> rfl
  | write size addr v =>
    simp only [State.port]
    split
    · next s' hw =>
      refine .inr ?_
      unfold State.busWrite at hw
      split at hw
      · cases hw
      next p hp =>
      split at hw
      · cases hw
      next hb =>
      cases hw
      obtain ⟨hr, rfl, hplace⟩ := reach_ok hp
      exact ⟨addr, v, p, rfl, hr, hplace, by simpa using hb, rfl⟩
    · exact .inl rfl

/-- How a step can end: the running command or an illegal word is run; or only what the outside
agents hold changes; or a write the port lets through is performed; or the clock takes `rst`; or the
unit at work takes a hidden step. `rest` is what the step leaves of the events. -/
inductive StepsTo (s : State) : State → Prop
  /-- The engine's turn with a decoded command running (rule R122). -/
  | command {t : State} (run : Running) (i : Instr) (rest : List Event) (hr : s.rst = false)
    (hp : s.phase = .busy run) (hi : run.instr = some i)
    (he : exec i { s with inputs := rest } = .next t) : StepsTo s t
  /-- The engine's turn with an illegal word running (rule R116). -/
  | illegal (run : Running) (rest : List Event) (hr : s.rst = false) (hp : s.phase = .busy run)
    (hi : run.instr = none) :
    StepsTo s (({ s with inputs := rest } : State).cmdError .illegalCmd)
  /-- A turn with nothing to do, a read or a word presented (rules R91, R96, R291). -/
  | quiet (ws : List Word) (rest : List Event) (answers : List Response) :
    StepsTo s { s with rng := ws, inputs := rest, answers := answers }
  /-- A write (rule R85). -/
  | write (addr : Addr) (v : Word) (p : Place) (rest : List Event) (answers : List Response)
    (hin : s.inputs = .access (.write .word addr v) :: rest) (hr : s.rst = false)
    (hp : placeAt s.params.nw addr = some p) (hb : s.busy = true → busyWritable v p = true) :
    StepsTo s { ({ s with inputs := rest } : State).writePlace v p with answers := answers }
  /-- A clock edge (rule R311). -/
  | clock (level : Bool) (rest : List Event) (hin : s.inputs = .rst level :: rest) :
    StepsTo s (({ s with inputs := rest } : State).clockReset level)
  /-- A hidden step of the unit at work (rule R48). -/
  | unit (rest : List Event) : StepsTo s ({ s with inputs := rest } : State).stepUnit

theorem engineTurn_stepsTo {s t : State} (rest : List Event)
    (h : engineTurn { s with inputs := rest } = .next t) : StepsTo s t := by
  cases hr : s.rst with
  | true =>
    rw [engineTurn_inReset (by exact hr)] at h
    cases h
    exact .quiet s.rng rest s.answers
  | false =>
    rcases hp : s.phase with _ | run
    · rw [engineTurn_idle (by exact hp)] at h
      cases h
      exact .quiet s.rng rest s.answers
    rcases hi : run.instr with _ | i
    · rw [engineTurn_illegal (by exact hr) (by exact hp) hi] at h
      cases h
      exact .illegal run rest hr hp hi
    · rw [engineTurn_running (by exact hr) (by exact hp) hi] at h
      exact .command run i rest hr hp hi h

theorem accessTurn_stepsTo {s t : State} {a : Access} {rest : List Event}
    (hin : s.inputs = .access a :: rest)
    (h : accessTurn a { s with inputs := rest } = .next t) : StepsTo s t := by
  unfold accessTurn at h
  split at h
  · cases h
  cases h
  obtain hs | ⟨addr, v, p, rfl, hr, hp, hb, hs⟩ := port_cases { s with inputs := rest } a
  · rw [hs]
    exact .quiet s.rng rest _
  · rw [hs]
    exact .write addr v p rest _ hin hr hp hb

/-- Every next state of a step is one of the listed ones. -/
theorem step_stepsTo {s t : State} (h : step s = .next t) : StepsTo s t := by
  rcases hin : s.inputs with _ | ⟨e, rest⟩
  · rw [step_nil hin] at h
    refine engineTurn_stepsTo [] ?_
    rw [← hin]
    exact h
  rw [step_cons hin] at h
  cases e with
  | access a => exact accessTurn_stepsTo hin h
  | entropy w => cases h; exact .quiet _ rest s.answers
  | rst level => cases h; exact .clock level rest hin
  | unitStep =>
    simp only [eventTurn] at h
    split at h
    · cases h; exact .quiet s.rng rest s.answers
    · cases h; exact .unit rest
  | engine => exact engineTurn_stepsTo rest h

end Sys2Proof.Machine

/-!
## The control registers at the port, the resets and the decoder

Every control register has one address, so an access to it is one of two lemmas; the words it reads
as are numbers of flag bits. The encoder's word decodes to its command, and a decoded command is
well formed.
-/

namespace Sys2Proof.Machine

/-! ### The address of a control register -/

/-- The address of a control or status register (rule R34). -/
def controlAddr : ControlReg → Addr
  | .id => 0x0000#16
  | .param => 0x0004#16
  | .ctrl => 0x0008#16
  | .status => 0x000C#16
  | .cmd => 0x0010#16
  | .errcode => 0x0014#16
  | .mrRounds => 0x0018#16
  | .mrDone => 0x001C#16

theorem placeAt_controlAddr (nw : Nat) (r : ControlReg) :
    placeAt nw (controlAddr r) = some (.control r) := by
  cases r <;> rfl

/-- A control register stands at its own address only (rule R82). -/
theorem eq_controlAddr_of_placeAt {nw : Nat} {addr : Addr} {r : ControlReg}
    (h : placeAt nw addr = some (.control r)) : addr = controlAddr r := by
  unfold placeAt at h
  split at h
  · next r' hr =>
    cases h
    apply BitVec.eq_of_toNat_eq
    unfold controlRegAt at hr
    split at hr <;> cases hr <;> assumption
  · unfold windowAt at h
    split at h
    · split at h <;> cases h
    · cases h

/-- A window word at an address exists (rule R83). -/
theorem lt_nw_of_placeAt_window {nw j : Nat} {addr : Addr} {r : Reg}
    (h : placeAt nw addr = some (.window r j)) : j < nw := by
  unfold placeAt at h
  split at h
  · cases h
  · unfold windowAt at h
    split at h
    · split at h
      · next hj => cases h; exact hj
      · cases h
    · cases h

/-- Every control register can be read, busy or idle (rule R89 (a)). -/
theorem port_read_control {s : State} (r : ControlReg) (hr : s.rst = false) :
    s.port (.read .word (controlAddr r)) = (.readOkay (s.readControl r), s) := by
  rw [port_read hr (by cases r <;> rfl) (placeAt_controlAddr _ r)]
  simp [busyReadable, State.readPlace]

/-- A write to a control register that the interlock lets through (rules R85, R89). -/
theorem port_write_control {s : State} (r : ControlReg) (v : Word) (hr : s.rst = false)
    (hb : s.busy = true → busyWritable v (.control r) = true) :
    s.port (.write .word (controlAddr r) v) = (.writeOkay, s.writePlace v (.control r)) := by
  rw [port_write v hr (by cases r <;> rfl) (placeAt_controlAddr _ r)]
  cases hbusy : s.busy with
  | false => simp
  | true => simp [hb hbusy]

/-- A write to a control register that the interlock refuses (rule R89). -/
theorem port_write_control_busy {s : State} (r : ControlReg) (v : Word) (hr : s.rst = false)
    (hbusy : s.busy = true) (hb : busyWritable v (.control r) = false) :
    s.port (.write .word (controlAddr r) v) = (.error, s) := by
  rw [port_write v hr (by cases r <;> rfl) (placeAt_controlAddr _ r)]
  simp [hbusy, hb]

theorem busy_of_idle {s : State} (h : s.phase = .idle) : s.busy = false := by
  unfold State.busy; rw [h]; rfl

theorem busy_of_busy {s : State} {r : Running} (h : s.phase = .busy r) : s.busy = true := by
  unfold State.busy; rw [h]; rfl

theorem phase_idle_of_not_busy {s : State} (h : ¬ s.busy = true) : s.phase = .idle := by
  cases hp : s.phase with
  | idle => rfl
  | busy r => exact absurd (busy_of_busy hp) h

/-! ### The words of the control registers -/

theorem flagBit_lt (b : Bool) : flagBit b < 2 := by cases b <;> decide

theorem verdictCode_lt (v : Verdict) : verdictCode v < 8 := by cases v <;> decide

/-- A bit of a word is the flag that stands at its place in the number. -/
theorem getLsbD_ofNat_eq_flag {n k : Nat} {b : Bool} (hk : k < 32)
    (h : n / 2 ^ k % 2 = flagBit b) : (BitVec.ofNat 32 n).getLsbD k = b := by
  rw [BitVec.getLsbD_ofNat, Nat.testBit_eq_decide_div_mod_eq, h]
  cases b <;> simp [hk, flagBit]

theorem getLsbD_ofNat_eq_false {n m k : Nat} (hn : n < 2 ^ m) (hk : m ≤ k) :
    (BitVec.ofNat 32 n).getLsbD k = false := by
  rw [BitVec.getLsbD_ofNat,
    Nat.testBit_lt_two_pow (lt_of_lt_of_le hn (Nat.pow_le_pow_right two_pos hk)), Bool.and_false]

/-- A legal width is from 64 to 4096 bits (rule R5). -/
theorem width_bounds {p : Params} (h : p.legal = true) : 64 ≤ p.width ∧ p.width ≤ 4096 := by
  simpa [Params.legal] using h

/-- PARAM holds `NW = W / 32` and `NREG` (rule R42). -/
theorem paramWord_toNat {s : State} (h : s.params.legal = true) :
    s.paramWord.toNat = s.params.width / 32 + 2 ^ 16 * 8 := by
  have hw := width_bounds h
  unfold Params.width at hw
  unfold State.paramWord Params.width
  rw [BitVec.toNat_ofNat, Nat.mod_eq_of_lt (by simp only [nreg]; omega)]
  simp only [nreg]
  omega

theorem errcodeWord_toNat (s : State) : s.errcodeWord.toNat = errorNumber s.errcode := by
  unfold State.errcodeWord
  cases s.errcode <;> rfl

theorem mrRoundsWord_toNat (s : State) : s.mrRoundsWord.toNat = s.mrRounds.toNat := by
  have := s.mrRounds.isLt
  unfold State.mrRoundsWord
  rw [BitVec.toNat_ofNat, Nat.mod_eq_of_lt (by omega)]

theorem mrDoneWord_toNat {s : State} (h : s.mrDone ≤ 256) : s.mrDoneWord.toNat = s.mrDone := by
  unfold State.mrDoneWord
  rw [BitVec.toNat_ofNat, Nat.mod_eq_of_lt (by omega)]

/-! ### The decoder and the encoder -/

/-- Every row fixes the whole opcode (the last paragraph of rule R122). -/
theorem opcode_of_spells {op : Op} {v : Word} (h : (rowOf op).spells v = true) :
    v.toNat % 2 ^ 8 = (rowOf op).pattern.toNat % 2 ^ 8 := by
  rw [← ((spells_iff op v).mp h).1]
  exact (Nat.mod_mod_of_dvd _ (pow_dvd_pow 2 (by cases op <;> decide))).symm

theorem op_eq_of_opcode_eq {op op' : Op}
    (h : (rowOf op).pattern.toNat % 2 ^ 8 = (rowOf op').pattern.toNat % 2 ^ 8) : op = op' := by
  revert h
  cases op <;> cases op' <;> decide

theorem mem_opcodeMap {r : Row} : r ∈ opcodeMap ↔ ∃ op, r = rowOf op := by
  rw [opcodeMap_eq]
  constructor
  · intro h
    obtain ⟨op, _, rfl⟩ := List.mem_map.mp h
    exact ⟨op, rfl⟩
  · rintro ⟨op, rfl⟩
    exact List.mem_map.mpr ⟨op, by cases op <;> decide, rfl⟩

/-- A word that spells a row decodes by that row (rules R112, R122). -/
theorem decode_of_spells {op : Op} {v : Word} (h : (rowOf op).spells v = true) :
    decode v = .ok (assemble op v) := by
  unfold decode
  split
  · next r hr =>
    obtain ⟨op', rfl⟩ := mem_opcodeMap.mp (List.mem_of_find?_eq_some hr)
    have hs : (rowOf op').spells v = true := List.find?_some (p := fun r : Row => r.spells v) hr
    obtain rfl : op' = op :=
      op_eq_of_opcode_eq ((opcode_of_spells hs).symm.trans (opcode_of_spells h))
    cases op' <;> rfl
  · next hr => exact absurd h (List.find?_eq_none.mp hr _ (mem_opcodeMap.mpr ⟨op, rfl⟩))

/-- The encoder's word spells the row of its command (rules R111 to R115). -/
theorem encode_spells {i : Instr} (h : i.wellFormed = true) :
    (rowOf (Laws.opOf i)).spells (encode i) = true := by
  cases i with
  | nop => exact Laws.EncodeSpellsItsRow.nop h
  | mov rd ra => exact Laws.EncodeSpellsItsRow.mov rd ra h
  | ldi rd imm => exact Laws.EncodeSpellsItsRow.ldi rd imm h
  | cmp ra rb => exact Laws.EncodeSpellsItsRow.cmp ra rb h
  | montmul rd ra rb rn => exact Laws.EncodeSpellsItsRow.montmul rd ra rb rn h
  | modexp rd ra rb rn => exact Laws.EncodeSpellsItsRow.modexp rd ra rb rn h
  | gcd rd ra rb => exact Laws.EncodeSpellsItsRow.gcd rd ra rb h
  | modinv rd ra rb => exact Laws.EncodeSpellsItsRow.modinv rd ra rb h
  | mrtest rd ra => exact Laws.EncodeSpellsItsRow.mrtest rd ra h
  | mrround ra rb => exact Laws.EncodeSpellsItsRow.mrround ra rb h

/-- The fields of a format-R word are the numbers it was made of (rule R111). -/
theorem fields_packR {opc : Nat} (ho : opc < 2 ^ 8) (rd ra rb rn : Reg) :
    rdField (packR opc rd ra rb rn) = rd ∧ raField (packR opc rd ra rb rn) = ra ∧
      rbField (packR opc rd ra rb rn) = rb ∧ rnField (packR opc rd ra rb rn) = rn := by
  have hn := toNat_packR opc rd ra rb rn ho rd.isLt ra.isLt rb.isLt rn.isLt
  have hd := rd.isLt; have ha := ra.isLt; have hb := rb.isLt; have hr := rn.isLt
  exact ⟨regField_eq hn (by omega), regField_eq hn (by omega), regField_eq hn (by omega),
    regField_eq hn (by omega)⟩

theorem fields_packI {opc imm : Nat} (ho : opc < 2 ^ 8) (hi : imm < 2 ^ 21) (rd : Reg) :
    rdField (packI opc rd imm) = rd ∧ immField (packI opc rd imm) = imm := by
  have hn := toNat_packI opc rd imm ho rd.isLt hi
  have hd := rd.isLt
  refine ⟨regField_eq hn (by omega), ?_⟩
  unfold immField
  rw [bits_eq hn]
  omega

/-- The operands of a well-formed command come back out of its word (rules R111, R113). -/
theorem assemble_encode {i : Instr} (h : i.wellFormed = true) :
    assemble (Laws.opOf i) (encode i) = i := by
  cases i with
  | nop => rfl
  | ldi rd imm =>
    obtain ⟨h1, h2⟩ := fields_packI (opc := 2) (by decide) (by simpa [Instr.wellFormed] using h) rd
    simp [assemble, Laws.opOf, encode, h1, h2]
  | mov rd ra =>
    have := fields_packR (opc := 0x01) (by decide) rd ra 0 0
    simp_all [assemble, Laws.opOf, encode]
  | cmp ra rb =>
    have := fields_packR (opc := 0x03) (by decide) 0 ra rb 0
    simp_all [assemble, Laws.opOf, encode]
  | montmul rd ra rb rn =>
    have := fields_packR (opc := 0x08) (by decide) rd ra rb rn
    simp_all [assemble, Laws.opOf, encode]
  | modexp rd ra rb rn =>
    have := fields_packR (opc := 0x09) (by decide) rd ra rb rn
    simp_all [assemble, Laws.opOf, encode]
  | gcd rd ra rb =>
    have := fields_packR (opc := 0x10) (by decide) rd ra rb 0
    simp_all [assemble, Laws.opOf, encode]
  | modinv rd ra rb =>
    have := fields_packR (opc := 0x11) (by decide) rd ra rb 0
    simp_all [assemble, Laws.opOf, encode]
  | mrtest rd ra =>
    have := fields_packR (opc := 0x18) (by decide) rd ra 0 0
    simp_all [assemble, Laws.opOf, encode]
  | mrround ra rb =>
    have := fields_packR (opc := 0x19) (by decide) 0 ra rb 0
    simp_all [assemble, Laws.opOf, encode]

/-- Decoding after encoding gives the command back. -/
theorem decode_encode {i : Instr} (h : i.wellFormed = true) : decode (encode i) = .ok i := by
  rw [decode_of_spells (encode_spells h), assemble_encode h]

theorem decoded_encode {i : Instr} (h : i.wellFormed = true) : decoded (encode i) = some i := by
  unfold decoded; rw [decode_encode h]

/-- What the decoder answers is well formed: LDI's immediate fits its field (rule R113). -/
theorem wellFormed_of_decoded {v : Word} {i : Instr} (h : decoded v = some i) :
    i.wellFormed = true := by
  unfold decoded decode at h
  split at h
  · next j hj =>
    cases h
    split at hj
    · next r hr =>
      cases hj
      cases r.op with
      | ldi => exact decide_eq_true (bits_lt v 31 11)
      | _ => rfl
    · split at hj <;> cases hj
  · cases h

end Sys2Proof.Machine

/-!
## The units of a running command

The meanings read the operand snapshot; only MRTEST reads its unit. So a hidden step of a unit
matters to MRTEST alone, and there it is a part of the run (`runTest_mruStep`).
-/

namespace Sys2Proof.Machine

/-- A hidden step of the Miller–Rabin unit, or of a unit that takes no entropy word and stays of its
kind (rules R48, R96). -/
theorem unitStep_cases (width : Nat) (snap : Snapshot) (u : UnitRegs) (ws : List Word) :
    (∃ m, u = .mru m ∧ unitStep width snap u ws =
      (.mru (mruStep snap.a snap.policy snap.rounds.toNat m ws).1,
        (mruStep snap.a snap.policy snap.rounds.toNat m ws).2)) ∨
    ((∀ m, u ≠ .mru m) ∧ ∃ u', unitStep width snap u ws = (u', ws) ∧ ∀ m, u' ≠ .mru m) := by
  cases u with
  | mru m => exact .inl ⟨m, rfl, rfl⟩
  | unused => exact .inr ⟨by simp, _, rfl, by simp⟩
  | mmu t i => exact .inr ⟨by simp, _, rfl, by split <;> simp⟩
  | exp r2 am acc left => cases left <;> exact .inr ⟨by simp, _, rfl, by simp⟩
  | gcdu a b k => exact .inr ⟨by simp, _, rfl, by split <;> simp⟩
  | inverse r0 r1 t0 t1 => exact .inr ⟨by simp, _, rfl, by split <;> simp⟩

theorem stepUnit_busy {s : State} {r : Running} (h : s.phase = .busy r) :
    s.stepUnit = s.withUnit (unitStep s.params.width r.snap r.unit s.rng).1
      (unitStep s.params.width r.snap r.unit s.rng).2 := by
  unfold State.stepUnit; rw [h]

theorem stepUnit_idle {s : State} (h : s.phase = .idle) : s.stepUnit = s := by
  unfold State.stepUnit; rw [h]

theorem mruUnit_mru {s : State} {r : Running} {m : Mru} (h : s.phase = .busy r)
    (hu : r.unit = .mru m) : s.mruUnit = m := by
  obtain ⟨i, snap, u⟩ := r
  cases hu
  unfold State.mruUnit
  rw [h]

/-- A test whose unit is not at work is at its start (rule R215). -/
theorem mruUnit_start {s : State} {r : Running} (h : s.phase = .busy r)
    (hu : ∀ m, r.unit ≠ .mru m) : s.mruUnit = mruStart r.snap.a := by
  obtain ⟨i, snap, u⟩ := r
  unfold State.mruUnit
  rw [h]
  cases u with
  | mru m => exact absurd rfl (hu m)
  | _ => rfl

/-- A unit that is not drawing takes no entropy word (rule R96). -/
theorem mruStep_rng {p rounds : Nat} {policy : Policy} {m : Mru} (ws : List Word)
    (h : ∀ t j, m.stage ≠ .draw t j) : (mruStep p policy rounds m ws).2 = ws := by
  unfold mruStep
  split
  · rfl
  · rfl
  · split <;> rfl
  · next t j hs => exact absurd hs (h t j)

/-- No command but MRTEST reads the unit: its end is computed from the snapshot (rule R118), and the
unit is discarded at the end (rule R48). -/
theorem exec_withUnit {s : State} {r : Running} {i : Instr} (h : s.phase = .busy r)
    (hi : isMrtest i = false) (u : UnitRegs) : exec i (s.withUnit u s.rng) = exec i s := by
  rw [withUnit_busy u s.rng h]
  obtain ⟨s₀, rfl⟩ : ∃ s₀ : State, s = { s₀ with phase := .busy r } := ⟨s, by rw [← h]⟩
  cases i with
  | mrtest rd ra => cases hi
  | _ => rfl

/-- MRTEST ends the same from two units with the same run, a rejected candidate aside, which takes
no word (rule R215). -/
theorem exec_mrtest_withUnit {s : State} {r : Running} (rd ra : Reg) (h : s.phase = .busy r)
    (u : UnitRegs) (ws : List Word) (hrej : preReject r.snap.a = true → ws = s.rng)
    (hrun : runTest r.snap.a r.snap.policy r.snap.rounds.toNat (s.withUnit u ws).mruUnit ws
      = runTest r.snap.a r.snap.policy r.snap.rounds.toNat s.mruUnit s.rng) :
    exec (.mrtest rd ra) (s.withUnit u ws) = exec (.mrtest rd ra) s := by
  have hp := withUnit_phase_busy u ws h
  have hcollapse : ∀ u' ws', (s.withUnit u ws).withUnit u' ws' = s.withUnit u' ws' := by
    intro u' ws'
    rw [withUnit_busy u' ws' hp, withUnit_busy u' ws' h, withUnit_busy u ws h]
  simp only [exec, execMrtest, issue_busy _ h, issue_busy _ hp, snapshot_busy h, snapshot_busy hp,
    withUnit_rng_busy u ws h, hrun, hcollapse]
  by_cases hpre : preReject r.snap.a = true
  · rw [if_pos hpre, if_pos hpre, hrej hpre, withUnit_busy u s.rng h]
    rfl
  · rw [if_neg hpre, if_neg hpre]

/-- The unit of an MRTEST belongs to a candidate that is not rejected, and stands inside its test. -/
theorem unitFits_mrtest {r : Running} {m : Mru} {rd ra : Reg} (h : r.unitFits)
    (hu : r.unit = .mru m) (hi : r.instr = some (.mrtest rd ra)) :
    preReject r.snap.a = false ∧ m.InTest r.snap.a r.snap.rounds.toNat := by
  have := h m hu
  rwa [hi] at this

/-- The unit of an MRROUND has begun its round and does not draw. -/
theorem unitFits_mrround {r : Running} {m : Mru} {ra rb : Reg} (h : r.unitFits)
    (hu : r.unit = .mru m) (hi : r.instr = some (.mrround ra rb)) :
    1 ≤ m.k ∧ ∀ t j, m.stage ≠ .draw t j := by
  have := h m hu
  rwa [hi] at this

/-- The Miller–Rabin unit works for MRTEST and MRROUND only (rules R48, R96). -/
theorem instr_of_unitFits {r : Running} {m : Mru} (h : r.unitFits) (hu : r.unit = .mru m) :
    (∃ rd ra, r.instr = some (.mrtest rd ra)) ∨ ∃ ra rb, r.instr = some (.mrround ra rb) := by
  have := h m hu
  split at this
  · next rd ra hi => exact .inl ⟨rd, ra, hi⟩
  · next ra rb hi => exact .inr ⟨ra, rb, hi⟩
  · exact this.elim

/-- Settles O33: a unit other than the Miller–Rabin unit is read by no command, MRROUND's takes no
word, and a step of MRTEST's is a part of its run. -/
theorem unitStepsNeverShow : Obligations.UnitStepsNeverShow := by
  intro s r i hinv hp hi
  obtain ⟨_, _, hfits⟩ := hinv.running r hp
  rw [stepUnit_busy hp]
  obtain ⟨m, hm, he⟩ | ⟨hu, u', he, hu'⟩ := unitStep_cases s.params.width r.snap r.unit s.rng
  · rw [he]
    obtain ⟨rd, ra, hrun⟩ | ⟨ra, rb, hrun⟩ := instr_of_unitFits hfits hm
    · obtain rfl : i = .mrtest rd ra := Option.some.inj (hi.symm.trans hrun)
      obtain ⟨hpre, _⟩ := unitFits_mrtest hfits hm hrun
      refine exec_mrtest_withUnit rd ra hp _ _ (by simp [hpre]) ?_
      rw [mruUnit_mru (withUnit_phase_busy _ _ hp) rfl, mruUnit_mru hp hm]
      exact runTest_mruStep _ _ _ m s.rng
    · obtain rfl : i = .mrround ra rb := Option.some.inj (hi.symm.trans hrun)
      obtain ⟨_, hdraw⟩ := unitFits_mrround hfits hm hrun
      rw [mruStep_rng s.rng hdraw]
      exact exec_withUnit hp rfl _
  · rw [he]
    cases hmr : isMrtest i with
    | false => exact exec_withUnit hp hmr u'
    | true =>
      cases i with
      | mrtest rd ra =>
        refine exec_mrtest_withUnit rd ra hp u' s.rng (fun _ => rfl) ?_
        rw [mruUnit_start (withUnit_phase_busy u' s.rng hp) hu', mruUnit_start hp hu]
      | _ => cases hmr

end Sys2Proof.Machine

/-!
## The Miller–Rabin unit stays inside its test

`Mru.InRound` is what holds once a round is begun; a round's verdict, its first power and its
squarings then leave the unit `InTest`.
-/

namespace Sys2Proof.Machine

/-- A round of the test has begun: `Mru.InTest` without what it says of the stage. -/
structure Mru.InRound (p rounds : Nat) (m : Mru) : Prop where
  oddPart : m.d = decomposeD p
  twoPart : m.s = decomposeS p
  witness : m.w ≤ p - 1
  begun : 1 ≤ m.k
  count : m.k ≤ rounds + 1

theorem Mru.InRound.inTest_square {p rounds : Nat} {m : Mru} (h : m.InRound p rounds)
    (y left : Nat) : ({ m with stage := .square y left } : Mru).InTest p rounds :=
  ⟨h.oddPart, h.twoPart, h.witness, h.count, by simp, fun _ _ _ => h.begun, fun _ _ => h.begun⟩

theorem Mru.InRound.inTest_afterRound {p rounds : Nat} {m : Mru} (h : m.InRound p rounds)
    (policy : Policy) (v : Verdict) : (afterRound policy rounds v m).InTest p rounds := by
  obtain ⟨v', e⟩ | ⟨hk, e⟩ := afterRound_cases policy rounds v m <;> rw [e]
  · exact ⟨h.oddPart, h.twoPart, h.witness, h.count, by simp, fun _ _ _ => h.begun,
      fun _ _ => h.begun⟩
  · exact ⟨h.oddPart, h.twoPart, h.witness, h.count, fun _ _ _ => Nat.le_of_lt_succ hk, by simp,
      by simp⟩

/-- A unit that squares has begun its round. -/
theorem Mru.InTest.inRound_of_square {p rounds y left : Nat} {m : Mru} (h : m.InTest p rounds)
    (hs : m.stage = .square y left) : m.InRound p rounds :=
  ⟨h.oddPart, h.twoPart, h.witness, h.begun y left hs, h.count⟩

/-- A unit that draws may begin a round on any witness below the candidate. -/
theorem Mru.InTest.inRound_of_draw {p rounds t j w : Nat} {m : Mru} (h : m.InTest p rounds)
    (hs : m.stage = .draw t j) (hw : w ≤ p - 1) :
    ({ m with w := w, k := m.k + 1 } : Mru).InRound p rounds :=
  ⟨h.oddPart, h.twoPart, hw, Nat.succ_pos _, Nat.succ_le_succ (h.drawing t j hs)⟩

/-- The unit at the start of a test. -/
theorem mruStart_inTest (p rounds : Nat) : (mruStart p).InTest p rounds :=
  ⟨rfl, rfl, Nat.zero_le _, Nat.zero_le _, fun _ _ _ => Nat.zero_le _, by simp [mruStart],
    by simp [mruStart]⟩

theorem beginRound_inTest {p rounds w : Nat} {m : Mru} (policy : Policy)
    (h : ({ m with w := w, k := m.k + 1 } : Mru).InRound p rounds) :
    (beginRound p policy rounds w m).InTest p rounds := by
  simp only [beginRound]
  split
  · exact h.inTest_afterRound policy _
  split
  · exact h.inTest_afterRound policy _
  · exact h.inTest_square _ _

/-- A draw returns a value in `[2, p - 1]` (rule R216). -/
theorem drawWord_witness_le {p t j w : Nat} {word : Word} (hp : 3 < p)
    (h : drawWord p t j word = .witness w) : w ≤ p - 1 := by
  simp only [drawWord] at h
  split at h
  · cases h
  split at h
  · cases h; omega
  · cases h

/-- A candidate that is not rejected is odd and above 3 (rule R211). -/
theorem preReject_eq_false {p : Nat} : preReject p = false ↔ 3 < p ∧ p % 2 = 1 := by
  simp only [preReject, Bool.or_eq_false_iff, decide_eq_false_iff_not]
  omega

theorem takeWord_inTest {p rounds t j : Nat} {m : Mru} (hp : 3 < p) (policy : Policy)
    (word : Word) (h : m.InTest p rounds) (hs : m.stage = .draw t j) :
    (takeWord p policy rounds t j word m).InTest p rounds := by
  unfold takeWord
  split
  · exact ⟨h.oddPart, h.twoPart, h.witness, h.count, fun _ _ _ => h.drawing t j hs, by simp,
      by simp⟩
  · next w hw =>
    exact beginRound_inTest policy (h.inRound_of_draw hs (drawWord_witness_le hp hw))

theorem finishRound_inTest {p rounds : Nat} {m : Mru} (policy : Policy) (h : m.InTest p rounds) :
    (finishRound p policy rounds m).InTest p rounds := by
  unfold finishRound
  split
  · next hs => exact (h.inRound_of_square hs).inTest_afterRound policy _
  · exact h
  · exact h

theorem runTest_inTest {p rounds : Nat} {m : Mru} (hp : 3 < p) (policy : Policy) (ws : List Word)
    (h : m.InTest p rounds) : (runTest p policy rounds m ws).1.InTest p rounds := by
  induction ws generalizing m with
  | nil => exact finishRound_inTest policy h
  | cons w ws ih =>
    have hf := finishRound_inTest policy h
    obtain ⟨t, j, hs⟩ | ⟨v, hs⟩ := finishRound_stage p policy rounds m
    · rw [runTest_cons_draw w ws hs]
      exact ih (takeWord_inTest hp policy w hf hs)
    · rw [runTest_finished _ hs]
      exact hf

theorem mruStep_inTest {p rounds : Nat} {m : Mru} (hp : 3 < p) (policy : Policy) (ws : List Word)
    (h : m.InTest p rounds) : (mruStep p policy rounds m ws).1.InTest p rounds := by
  unfold mruStep
  split
  · exact h
  · next hs => exact (h.inRound_of_square hs).inTest_afterRound policy .inconclusive
  · next y left hs =>
    have hr := h.inRound_of_square hs
    split
    · exact hr.inTest_afterRound policy _
    · exact hr.inTest_square _ _
  · next t j hs =>
    split
    · exact h
    · exact takeWord_inTest hp policy _ h hs

/-- With no round left, a verdict ends the test (rule R215). -/
theorem afterRound_not_draw {rounds : Nat} {m : Mru} (policy : Policy) (v : Verdict)
    (hk : rounds + 1 ≤ m.k) (t j : Nat) : (afterRound policy rounds v m).stage ≠ .draw t j := by
  obtain ⟨v', e⟩ | ⟨hk', e⟩ := afterRound_cases policy rounds v m
  · rw [e]; simp
  · omega

/-- A round begun on a unit at its start is the only one when `rounds` is 0, as for MRROUND. -/
theorem beginRound_not_draw {p w : Nat} (policy : Policy) (m : Mru) :
    1 ≤ (beginRound p policy 0 w m).k ∧
      ∀ t j, (beginRound p policy 0 w m).stage ≠ .draw t j := by
  simp only [beginRound]
  split
  · exact ⟨by simp, afterRound_not_draw _ _ (by simp)⟩
  split
  · exact ⟨by simp, afterRound_not_draw _ _ (by simp)⟩
  · exact ⟨by simp, by simp⟩

/-- A unit that does not draw and has no round left does not come to draw. -/
theorem mruStep_not_draw {p : Nat} {m : Mru} (policy : Policy) (ws : List Word) (hk : 1 ≤ m.k)
    (hd : ∀ t j, m.stage ≠ .draw t j) :
    1 ≤ (mruStep p policy 0 m ws).1.k ∧ ∀ t j, (mruStep p policy 0 m ws).1.stage ≠ .draw t j := by
  unfold mruStep
  split
  · exact ⟨hk, hd⟩
  · exact ⟨by simpa using hk, afterRound_not_draw _ _ (by omega)⟩
  · split
    · exact ⟨by simpa using hk, afterRound_not_draw _ _ (by omega)⟩
    · exact ⟨hk, by simp⟩
  · next t j hs => exact absurd hs (hd t j)

/-- The registers of the unit at the start of a command belong to it (rules R48, R118). -/
theorem start_unitFits (width : Nat) (i : Option Instr) (s : State) :
    (⟨i, s.sample i, startUnit width i (s.sample i)⟩ : Running).unitFits := by
  intro m hm
  rcases i with _ | i
  · cases hm
  cases i with
  | nop => cases hm
  | mov rd ra => cases hm
  | ldi rd imm => cases hm
  | cmp ra rb => cases hm
  | montmul rd ra rb rn => simp only [startUnit] at hm; split at hm <;> cases hm
  | modexp rd ra rb rn => simp only [startUnit] at hm; split at hm <;> cases hm
  | gcd rd ra rb => simp only [startUnit] at hm; split at hm <;> cases hm
  | modinv rd ra rb => simp only [startUnit] at hm; split at hm <;> cases hm
  | mrtest rd ra =>
    simp only [startUnit] at hm
    split at hm
    · cases hm
    · next hp => cases hm; exact ⟨by simpa using hp, mruStart_inTest _ _⟩
  | mrround ra rb =>
    simp only [startUnit] at hm
    split at hm
    · cases hm
    · cases hm; exact beginRound_not_draw _ _

/-- A hidden step of the unit leaves its registers the running command's (rule R48). -/
theorem unitStep_unitFits {r : Running} {s : State} (width : Nat) (ws : List Word)
    (hsnap : r.snap = s.sample r.instr) (h : r.unitFits) :
    ({ r with unit := (unitStep width r.snap r.unit ws).1 } : Running).unitFits := by
  intro m hm
  obtain ⟨m', hm', he⟩ | ⟨_, u', he, hu'⟩ := unitStep_cases width r.snap r.unit ws
  · rw [he] at hm
    cases hm
    obtain ⟨rd, ra, hi⟩ | ⟨ra, rb, hi⟩ := instr_of_unitFits h hm'
    · obtain ⟨hpre, ht⟩ := unitFits_mrtest h hm' hi
      simp only [hi]
      exact ⟨hpre, mruStep_inTest (preReject_eq_false.mp hpre).1 _ ws ht⟩
    · obtain ⟨hk, hd⟩ := unitFits_mrround h hm' hi
      have hrounds : r.snap.rounds.toNat = 0 := by rw [hsnap, hi]; rfl
      simp only [hi, hrounds]
      exact mruStep_not_draw _ ws hk hd
  · rw [he] at hm
    exact absurd hm (hu' m)

end Sys2Proof.Machine

/-!
## Every step keeps the invariant

One lemma per way a step can end (`StepsTo`): the agents' lists are free, a completed command, a
waiting test, a write, a reset and a hidden step each keep `State.Inv`.
-/

namespace Sys2Proof.Machine

/-! ### The operand registers stay within their width -/

theorem setReg_reg_lt {s : State} {B v : Nat} (h : ∀ q, s.reg q < B) (hv : v < B) (rd q : Reg) :
    (s.setReg rd v).reg q < B := by
  rw [setReg_reg]
  split
  · exact hv
  · exact h q

/-- A snapshot holds register values and zeros (rule R118). -/
theorem sample_lt {s : State} {B : Nat} (hB : 0 < B) (h : ∀ q, s.reg q < B) (i : Option Instr) :
    (s.sample i).a < B ∧ (s.sample i).b < B ∧ (s.sample i).n < B := by
  rcases i with _ | i
  · exact ⟨hB, hB, hB⟩
  · cases i <;> simp [State.sample, Snapshot.empty, h, hB]

/-- No result is wider than the operands: a modular result is below its modulus, a gcd is not above
an operand (rules R145, R164, R184, R189). -/
theorem exec_registers_lt {s t : State} {r : Running} {i : Instr} {B : Nat}
    (hp : s.phase = .busy r) (hmr : isMrtest i = false)
    (himm : ∀ rd imm, i = .ldi rd imm → imm < B) (hreg : ∀ q, s.reg q < B)
    (ha : r.snap.a < B) (hb : r.snap.b < B) (hn : r.snap.n < B) (he : exec i s = .next t)
    (q : Reg) : t.reg q < B := by
  cases i with
  | nop =>
    simp only [exec, execNop, issue_busy _ hp] at he
    cases he
    exact hreg q
  | mov rd ra =>
    simp only [exec, execMov, issue_busy _ hp, snapshot_busy hp] at he
    cases he
    exact setReg_reg_lt hreg ha rd q
  | ldi rd imm =>
    simp only [exec, execLdi, issue_busy _ hp] at he
    cases he
    exact setReg_reg_lt hreg (himm rd imm rfl) rd q
  | cmp ra rb =>
    simp only [exec, execCmp, issue_busy _ hp] at he
    cases he
    exact hreg q
  | montmul rd ra rb rn =>
    simp only [exec, execMontmul, issue_busy _ hp, snapshot_busy hp] at he
    split at he
    · cases he; exact hreg q
    next hodd =>
    split at he
    · cases he; exact hreg q
    · cases he
      exact setReg_reg_lt hreg ((montProd_lt _ _ _ (by omega)).trans hn) rd q
  | modexp rd ra rb rn =>
    simp only [exec, execModexp, issue_busy _ hp, snapshot_busy hp, modExp_eq] at he
    split at he
    · cases he; exact hreg q
    next hodd =>
    split at he
    · cases he; exact hreg q
    · cases he
      exact setReg_reg_lt hreg ((Nat.mod_lt _ (by omega)).trans hn) rd q
  | gcd rd ra rb =>
    simp only [exec, execGcd, issue_busy _ hp, snapshot_busy hp] at he
    cases he
    refine setReg_reg_lt hreg ?_ rd q
    rcases Nat.eq_zero_or_pos r.snap.a with h0 | h0
    · rwa [h0, Nat.gcd_zero_left]
    · exact (Nat.gcd_le_left _ h0).trans_lt ha
  | modinv rd ra rb =>
    simp only [exec, execModinv, issue_busy _ hp, snapshot_busy hp] at he
    split at he
    · cases he; exact hreg q
    next hm =>
    split at he
    · cases he; exact hreg q
    · cases he
      exact setReg_reg_lt hreg ((inv_lt _ _ (by omega)).trans hb) rd q
  | mrtest rd ra => cases hmr
  | mrround ra rb =>
    simp only [exec, execMrround, issue_busy _ hp] at he
    split at he
    · cases he; exact hreg q
    split at he <;> cases he <;> exact hreg q

/-! ### The parts of a step -/

/-- The invariant speaks of the engine only: what the agents hold is free (rule R49). -/
theorem State.Inv.withAgents {s : State} (h : s.Inv) (ws : List Word) (inputs : List Event)
    (answers : List Response) :
    ({ s with rng := ws, inputs := inputs, answers := answers } : State).Inv where
  width := h.width
  registers := h.registers
  count := h.count
  compare := h.compare
  verdict := h.verdict
  error := h.error
  busyStatus := h.busyStatus
  running r hp := by
    obtain ⟨hi, hs, hf⟩ := h.running r hp
    exact ⟨hi, hs.trans (sample_congr rfl rfl rfl _), hf⟩
  inReset hr := by
    have := h.inReset hr
    conv_rhs => rw [← this]
    rfl

/-- The state right after reset meets the invariant, for every legal width (rule R50). -/
theorem inv_resetFor {p : Params} (hp : p.legal = true) : (State.resetFor p).Inv where
  width := hp
  registers r := by
    rw [show (State.resetFor p).reg r = 0 by simp [State.reg, State.resetFor]]
    exact Nat.two_pow_pos _
  count := Nat.zero_le _
  compare := by simp [State.resetFor]
  verdict h := by cases h
  error h := by cases h
  busyStatus h := by cases h
  running _ h := by cases h
  inReset h := by cases h

/-- A clock edge with `rst = 1` holds the reset state (rule R311). -/
theorem inv_clockReset_true {s : State} (h : s.Inv) : (s.clockReset true).Inv :=
  { (inv_resetFor h.width).withAgents s.rng s.inputs s.answers with inReset := fun _ => rfl }

/-- A clock edge with `rst = 0` lets the engine go on (rule R311). -/
theorem inv_clockReset_false {s : State} (h : s.Inv) : (s.clockReset false).Inv :=
  { h with
    inReset := fun hr => by cases hr
    running := fun r hp => by
      obtain ⟨hi, hs, hf⟩ := h.running r hp
      exact ⟨hi, hs.trans (sample_congr rfl rfl rfl _), hf⟩ }

theorem inv_resetEngine {s : State} (h : s.Inv) (hr : s.rst = false) : s.resetEngine.Inv :=
  { (inv_resetFor h.width).withAgents s.rng s.inputs s.answers with
    inReset := fun hr' => by rw [resetEngine_rst, hr] at hr'; cases hr' }

/-- A running command means that the engine is not held in reset (rule R311). -/
theorem State.Inv.rst_of_busy {s : State} {r : Running} (h : s.Inv) (hp : s.phase = .busy r) :
    s.rst = false := by
  by_contra hr
  have := h.inReset (by simpa using hr)
  rw [← this, resetEngine_phase] at hp
  cases hp

/-- An idle engine out of reset meets the invariant when its registers and its status do. -/
theorem State.Inv.of_idle {s t : State} (h : s.Inv) (hparams : t.params = s.params)
    (hidle : t.phase = .idle) (hr : t.rst = false)
    (registers : ∀ q, t.reg q < 2 ^ s.params.width) (count : t.mrDone ≤ 256)
    (compare : ¬ (t.eq = true ∧ t.lt = true)) (verdict : t.result = true → t.mrv = .pass)
    (error : t.err = true → t.errcode ≠ .none) : t.Inv where
  width := by rw [hparams]; exact h.width
  registers := by rw [hparams]; exact registers
  count := count
  compare := compare
  verdict := verdict
  error := error
  busyStatus hb := by rw [busy_of_idle hidle] at hb; cases hb
  running r hp := by rw [hidle] at hp; cases hp
  inReset hr' := by rw [hr] at hr'; cases hr'

/-- New unit registers that fit the running command keep the invariant (rule R48). -/
theorem inv_withUnit {s : State} {r : Running} (h : s.Inv) (hp : s.phase = .busy r) (u : UnitRegs)
    (ws : List Word) (hu : ({ r with unit := u } : Running).unitFits) : (s.withUnit u ws).Inv := by
  obtain ⟨hi, hs, _⟩ := h.running r hp
  rw [withUnit_busy u ws hp]
  exact { h with
    busyStatus := fun _ => h.busyStatus (busy_of_busy hp)
    running := fun r' hp' => by
      cases hp'
      exact ⟨hi, hs.trans (sample_congr rfl rfl rfl _), hu⟩
    inReset := fun hr => absurd (h.rst_of_busy hp) (by simpa using hr) }

theorem inv_stepUnit {s : State} (h : s.Inv) : s.stepUnit.Inv := by
  cases hp : s.phase with
  | idle => rwa [stepUnit_idle hp]
  | busy r =>
    obtain ⟨_, hs, hf⟩ := h.running r hp
    rw [stepUnit_busy hp]
    exact inv_withUnit h hp _ _ (unitStep_unitFits _ _ hs hf)

/-- The acceptance of a word on an idle engine (rules R36, R118, R122). -/
theorem inv_accept {s : State} (h : s.Inv) (hr : s.rst = false) (v : Word) : (s.accept v).Inv where
  width := h.width
  registers := h.registers
  count := h.count
  compare := h.compare
  verdict := h.verdict
  error he := by cases he
  busyStatus _ := ⟨rfl, rfl, rfl⟩
  running r hp := by
    cases hp
    exact ⟨rfl, sample_congr rfl rfl rfl _, start_unitFits _ _ s⟩
  inReset hr' := by rw [accept_rst, hr] at hr'; cases hr'

/-- The host's write to STATUS, busy or idle (rule R36). -/
theorem inv_clearStatus {s : State} (h : s.Inv) (hr : s.rst = false) (v : Word) :
    (s.clearStatus v).Inv :=
  { h with
    error := fun he => h.error (by rw [clearStatus_err] at he; split at he <;> simp_all)
    busyStatus := fun hb => by
      obtain ⟨hd, he, hc⟩ := h.busyStatus hb
      exact ⟨by simp [hd], by simp [he], hc⟩
    running := fun r hp => by
      obtain ⟨hi, hs, hf⟩ := h.running r hp
      exact ⟨hi, hs.trans (sample_congr rfl rfl rfl _), hf⟩
    inReset := fun hr' => by rw [clearStatus_rst, hr] at hr'; cases hr' }

/-- Every write the port lets through (rules R85, R89). -/
theorem inv_writePlace {s : State} {v : Word} {addr : Addr} {p : Place} (h : s.Inv)
    (hr : s.rst = false) (hplace : placeAt s.params.nw addr = some p)
    (hb : s.busy = true → busyWritable v p = true) : (s.writePlace v p).Inv := by
  have hidle : busyWritable v p = false → s.phase = .idle := fun hw =>
    phase_idle_of_not_busy fun hbusy => by rw [hb hbusy] at hw; cases hw
  cases p with
  | window r j =>
    exact h.of_idle rfl (hidle rfl) hr
      (setReg_reg_lt h.registers
        (replaceWord_lt v (h.registers r) (lt_nw_of_placeAt_window hplace)) r)
      h.count h.compare h.verdict h.error
  | control r =>
    cases r with
    | ctrl =>
      simp only [State.writePlace, State.writeCtrl]
      split
      · exact inv_resetEngine h hr
      · next h31 =>
        exact h.of_idle rfl (hidle (by simpa [busyWritable] using h31)) hr h.registers h.count
          h.compare h.verdict h.error
    | status => exact inv_clearStatus h hr v
    | cmd => exact inv_accept h hr v
    | mrRounds =>
      exact h.of_idle rfl (hidle rfl) hr h.registers h.count h.compare h.verdict h.error
    | id => exact h
    | param => exact h
    | errcode => exact h
    | mrDone => exact h

/-- `RESULT = 1` comes with the verdict PASS (rule R37). -/
theorem completeTest_verdict {rd : Reg} {v : Verdict} {k w : Nat} {s : State}
    (h : (s.completeTest rd v k w).result = true) : (s.completeTest rd v k w).mrv = .pass :=
  of_decide_eq_true (p := v = .pass) h

@[simp] theorem completeTest_mrDone (rd : Reg) (v : Verdict) (k w : Nat) (s : State) :
    (s.completeTest rd v k w).mrDone = k := rfl

/-- The run of an MRTEST under way stands inside its test (rules R215, R219). -/
theorem State.Inv.run_inTest {s : State} {r : Running} {rd ra : Reg} (h : s.Inv)
    (hp : s.phase = .busy r) (hi : r.instr = some (.mrtest rd ra))
    (hpre : preReject r.snap.a = false) :
    (runTest r.snap.a r.snap.policy r.snap.rounds.toNat s.mruUnit s.rng).1.InTest
      r.snap.a r.snap.rounds.toNat := by
  obtain ⟨_, _, hf⟩ := h.running r hp
  refine runTest_inTest (preReject_eq_false.mp hpre).1 _ _ ?_
  by_cases hu : ∃ m, r.unit = .mru m
  · obtain ⟨m, hm⟩ := hu
    rw [mruUnit_mru hp hm]
    exact (unitFits_mrtest hf hm hi).2
  · rw [mruUnit_start hp (by simpa using hu)]
    exact mruStart_inTest _ _

/-- The running command, completed or waiting for a word (rules R145, R164, R184, R219). -/
theorem inv_exec {s t : State} {r : Running} {i : Instr} (h : s.Inv) (hp : s.phase = .busy r)
    (hi : r.instr = some i) (he : exec i s = .next t) : t.Inv := by
  obtain ⟨hdec, hsnap, hf⟩ := h.running r hp
  obtain ⟨ha, hb, hn⟩ := sample_lt (Nat.two_pow_pos s.params.width) h.registers r.instr
  rw [← hsnap] at ha hb hn
  have hr := h.rst_of_busy hp
  have ends := exec_ends he
  have hissue := issue_busy i hp
  have hsn := snapshot_busy hp
  cases ends with
  | error c hc hmr =>
    rw [hissue]
    exact h.of_idle rfl rfl hr h.registers h.count h.compare h.verdict fun _ => hc
  | nop hnop =>
    rw [hissue]
    exact h.of_idle rfl rfl hr h.registers h.count h.compare h.verdict h.error
  | writes rd v hd hmr =>
    have himm : ∀ rd imm, i = .ldi rd imm → imm < 2 ^ s.params.width := by
      rintro rd imm rfl
      have hwf := wellFormed_of_decoded (hdec.symm.trans hi)
      have hw := (width_bounds h.width).1
      exact (of_decide_eq_true hwf).trans_le (Nat.pow_le_pow_right two_pos (by omega))
    have hreg := exec_registers_lt hp hmr himm h.registers ha hb hn he
    rw [hissue] at hreg ⊢
    exact h.of_idle rfl rfl hr hreg h.count h.compare h.verdict h.error
  | compare ra rb a b hcmp =>
    rw [hissue]
    refine h.of_idle rfl rfl hr h.registers h.count ?_ h.verdict h.error
    simp only [complete_eq, setCompare_eq, complete_lt, setCompare_lt, decide_eq_true_eq]
    omega
  | verdict ra rb v hrd =>
    rw [hissue]
    exact h.of_idle rfl rfl hr h.registers h.count h.compare of_decide_eq_true h.error
  | rejected rd ra hmr hpre =>
    rw [hissue]
    exact h.of_idle rfl rfl hr (setReg_reg_lt h.registers (Nat.two_pow_pos _) rd) (Nat.zero_le _)
      h.compare completeTest_verdict h.error
  | tested rd ra v hmr hpre hv =>
    subst hmr
    rw [hissue, hsn] at hpre ⊢
    have hrun := h.run_inTest hp hi hpre
    have hrounds := r.snap.rounds.isLt
    have hcount := hrun.count
    have hwit := hrun.witness
    rw [withUnit_busy _ _ hp]
    exact h.of_idle rfl rfl hr
      (setReg_reg_lt h.registers (hwit.trans_lt (lt_of_le_of_lt (Nat.sub_le _ _) ha)) rd)
      (by rw [completeTest_mrDone]; omega) h.compare completeTest_verdict h.error
  | waiting rd ra t j hmr hpre hs =>
    subst hmr
    rw [hissue, hsn] at hpre ⊢
    refine inv_withUnit h hp _ [] ?_
    intro m hm
    cases hm
    simp only [hi]
    exact ⟨hpre, h.run_inTest hp hi hpre⟩

/-- Settles O49: every way a step can end (`StepsTo`) keeps the invariant. -/
theorem stepKeepsInvariant : Obligations.StepKeepsInvariant := by
  intro s t hinv hstep
  cases step_stepsTo hstep with
  | command run i rest hr hp hi he =>
    exact inv_exec (hinv.withAgents s.rng rest s.answers) hp hi he
  | illegal run rest hr hp hi =>
    exact hinv.of_idle rfl rfl hr hinv.registers hinv.count hinv.compare hinv.verdict
      fun _ => by simp
  | quiet ws rest answers => exact hinv.withAgents ws rest answers
  | write addr v p rest answers hin hr hp hb =>
    exact (inv_writePlace (hinv.withAgents s.rng rest s.answers) hr hp hb).withAgents _ _ answers
  | clock level rest hin =>
    have h := hinv.withAgents s.rng rest s.answers
    cases level with
    | true => exact inv_clockReset_true h
    | false => exact inv_clockReset_false h
  | unit rest => exact inv_stepUnit (hinv.withAgents s.rng rest s.answers)

end Sys2Proof.Machine

/-!
## What a step changes for software

A step shows as the running command's end, as a reset, or as a change of at most one operand
register by a window write.
-/

namespace Sys2Proof.Machine

/-- The next event resets the engine: an edge with `rst = 1`, or a CTRL write with bit 31 set
(rules R311, R312). -/
def State.ResetNext (s : State) : Prop :=
  s.inputs.head? = some (.rst true) ∨ ∃ v, v.getLsbD 31 = true ∧
    s.inputs.head? = some (.access (.write .word 0x0008#16 v))

/-- EQ, LT, RESULT, MRV and MR_DONE are the same. -/
def State.SameFlags (s t : State) : Prop :=
  t.eq = s.eq ∧ t.lt = s.lt ∧ t.result = s.result ∧ t.mrv = s.mrv ∧ t.mrDone = s.mrDone

/-- A write to a control register resets the engine, or writes no operand register and no flag
(rules R85, R312). -/
theorem writePlace_control_cases (v : Word) (r : ControlReg) (s : State) :
    (r = .ctrl ∧ v.getLsbD 31 = true ∧ s.writePlace v (.control r) = s.resetEngine) ∨
      ((s.writePlace v (.control r)).x = s.x ∧ s.SameFlags (s.writePlace v (.control r))) := by
  cases r with
  | ctrl =>
    by_cases h : v.getLsbD 31 = true
    · exact .inl ⟨rfl, h, if_pos h⟩
    · have e : s.writePlace v (.control .ctrl) =
          { s with irqEn := v.getLsbD 0, mrPolicy := policyOfBit (v.getLsbD 1) } := if_neg h
      rw [e]
      exact .inr ⟨rfl, rfl, rfl, rfl, rfl, rfl⟩
  | _ => exact .inr ⟨rfl, rfl, rfl, rfl, rfl, rfl⟩

/-- How a step shows: a command ends, or the engine is reset, or no flag changes and no operand
register but the one whose window word the host writes (rules R32, R46). -/
theorem StepsTo.shows {s t : State} (h : StepsTo s t) :
    (∃ run i rest, s.phase = .busy run ∧ run.instr = some i ∧
        EndsAs i { s with inputs := rest } t) ∨
      (s.ResetNext ∧ (∀ r, t.reg r = 0) ∧ t.phase = .idle ∧ t.done = false) ∨
      (s.SameFlags t ∧ ∀ r, t.reg r ≠ s.reg r → ∃ addr v rest j,
        s.inputs = .access (.write .word addr v) :: rest ∧
          placeAt s.params.nw addr = some (.window r j)) := by
  cases h with
  | command run i rest hr hp hi he => exact .inl ⟨run, i, rest, hp, hi, exec_ends he⟩
  | illegal run rest hr hp hi =>
    exact .inr (.inr ⟨⟨rfl, rfl, rfl, rfl, rfl⟩, fun r hne => absurd rfl hne⟩)
  | quiet ws rest answers =>
    exact .inr (.inr ⟨⟨rfl, rfl, rfl, rfl, rfl⟩, fun r hne => absurd rfl hne⟩)
  | unit rest =>
    exact .inr (.inr ⟨by simp [State.SameFlags], fun r hne => absurd (stepUnit_reg _ r) hne⟩)
  | clock level rest hin =>
    cases level with
    | true => exact .inr (.inl ⟨.inl (by simp [hin]), resetEngine_reg s, rfl, rfl⟩)
    | false => exact .inr (.inr ⟨⟨rfl, rfl, rfl, rfl, rfl⟩, fun r hne => absurd rfl hne⟩)
  | write addr v p rest answers hin hr hp hb =>
    cases p with
    | window r j =>
      refine .inr (.inr ⟨⟨rfl, rfl, rfl, rfl, rfl⟩, fun r' hne => ⟨addr, v, rest, j, hin, ?_⟩⟩)
      obtain rfl : r' = r := by
        by_contra hr'
        exact hne (setReg_reg_ne _ _ hr')
      exact hp
    | control r =>
      obtain ⟨rfl, hv, hreset⟩ | ⟨hx, hflags⟩ :=
        writePlace_control_cases v r { s with inputs := rest }
      · obtain rfl := eq_controlAddr_of_placeAt hp
        rw [hreset]
        exact .inr (.inl ⟨.inr ⟨v, hv, by rw [hin]; rfl⟩, resetEngine_reg s, rfl, rfl⟩)
      · exact .inr (.inr ⟨hflags, fun r hne => absurd (reg_congr hx r) hne⟩)

/-- Settles O50: of the ways a step shows, only these three change a register. -/
theorem registersChangeOnlyAsTold : Obligations.RegistersChangeOnlyAsTold := by
  intro s t r hstep hne
  obtain ⟨run, i, rest, hp, hi, he⟩ | ⟨hreset, hzero, hidle, hdone⟩ | ⟨_, hwrite⟩ :=
    (step_stepsTo hstep).shows
  · obtain ⟨hd, hidle, hdone⟩ := he.destination_of_reg_ne hne
    exact .inr (.inl ⟨run, i, hp, hi, hd, hidle, hdone⟩)
  · exact .inr (.inr ⟨hzero, hidle, hdone, hreset⟩)
  · obtain ⟨addr, v, rest, j, hin, hplace⟩ := hwrite r hne
    exact .inl ⟨.word, addr, v, rest, j, hin, hplace⟩

/-- Settles O51: of the ways a step shows, a command's end is the one that writes flags without a
reset, and `EndsAs` says which command writes which. -/
theorem flagsChangeOnlyByTheirCommands : Obligations.FlagsChangeOnlyByTheirCommands := by
  intro s t hstep
  obtain ⟨run, i, rest, hp, hi, he⟩ | ⟨hreset, _⟩ | ⟨⟨heq, hlt, hresult, hmrv, hdone⟩, _⟩ :=
    (step_stepsTo hstep).shows
  · refine ⟨?_, ?_, ?_⟩
    · by_cases hc : ∃ ra rb, i = .cmp ra rb
      · obtain ⟨ra, rb, rfl⟩ := hc
        exact .inl ⟨run, ra, rb, hp, hi⟩
      · exact .inr (.inr (he.compare_flags (by simpa using hc)))
    · by_cases hm : ∃ ra rb, i = .mrround ra rb ∨ i = .mrtest ra rb
      · obtain ⟨ra, rb, hm⟩ := hm
        exact .inl ⟨run, ra, rb, hp, by rw [hi]; simpa using hm⟩
      · push Not at hm
        exact .inr (.inr (he.verdict_flags (fun a b => (hm a b).1) fun a b => (hm a b).2))
    · by_cases ht : ∃ rd ra, i = .mrtest rd ra
      · obtain ⟨rd, ra, rfl⟩ := ht
        exact .inl ⟨run, rd, ra, hp, hi⟩
      · exact .inr (.inr (he.test_count (by simpa using ht)).1)
  · exact ⟨.inr (.inl hreset), .inr (.inl hreset), .inr (.inl hreset)⟩
  · exact ⟨.inr (.inr ⟨heq, hlt⟩), .inr (.inr ⟨hresult, hmrv⟩), .inr (.inr hdone)⟩

/-! ### The frames of the commands -/

/-- Settles O28, from what each way to end leaves unchanged. -/
theorem arithmeticCommandsFrame : Obligations.ArithmeticCommandsFrame := by
  intro i s t hc ht hr h
  have he := exec_ends h
  obtain ⟨hirq, hpol, hrounds, hparams, hrst, hin, hans, hcmd⟩ := he.keeps
  obtain ⟨heq, hlt⟩ := he.compare_flags hc
  obtain ⟨hresult, hmrv⟩ := he.verdict_flags hr ht
  obtain ⟨hdone, hrng⟩ := he.test_count ht
  exact ⟨fun r hd => he.reg_eq hd, hresult, heq, hlt, hmrv, hirq, hpol, hrounds, hdone, hparams,
    hrst, hrng, hin, hans, hcmd.trans (issue_cmd i s)⟩

/-- Settles O29, from what each way to end leaves unchanged. -/
theorem compareFrame : Obligations.CompareFrame := by
  intro ra rb s t h
  have he := exec_ends h
  obtain ⟨hirq, hpol, hrounds, hparams, hrst, hin, hans, hcmd⟩ := he.keeps
  obtain ⟨hresult, hmrv⟩ := he.verdict_flags (by simp) (by simp)
  obtain ⟨hdone, hrng⟩ := he.test_count (by simp)
  exact ⟨he.x_eq rfl, hresult, hmrv, hirq, hpol, hrounds, hdone, hparams, hrst, hrng, hin, hans,
    hcmd.trans (issue_cmd _ s)⟩

/-! ### Acceptance and completion -/

/-- A command's meaning starts from the command under way. -/
theorem exec_congr_issue {i : Instr} {s t : State} (h : s.issue i = t.issue i) :
    exec i s = exec i t := by
  cases i with
  | nop => simp only [exec, execNop, h]
  | mov rd ra => simp only [exec, execMov, h]
  | ldi rd imm => simp only [exec, execLdi, h]
  | cmp ra rb => simp only [exec, execCmp, h]
  | montmul rd ra rb rn => simp only [exec, execMontmul, h]
  | modexp rd ra rb rn => simp only [exec, execModexp, h]
  | gcd rd ra rb => simp only [exec, execGcd, h]
  | modinv rd ra rb => simp only [exec, execModinv, h]
  | mrtest rd ra => simp only [exec, execMrtest, h]
  | mrround ra rb => simp only [exec, execMrround, h]

/-- Settles O10: the accepted word decodes to the command, so both are the same command under way. -/
theorem acceptedCommandEndsAsAtomicCommand : Obligations.AcceptedCommandEndsAsAtomicCommand := by
  intro s i hp hi
  apply exec_congr_issue
  have haccept : s.accept (encode i) = s.acceptAs (encode i) (some i) := by
    rw [State.accept, decoded_encode hi]
  rw [issue_idle i hp, haccept]
  rfl

/-- Settles O7: the snapshot is read off `State.sample`. -/
theorem snapshotHoldsTheOperandsRead : Obligations.SnapshotHoldsTheOperandsRead := by
  intro s rd ra rb rn imm
  exact ⟨rfl, rfl, rfl, rfl, rfl, rfl, rfl, rfl, rfl, rfl⟩

/-- Settles O6, by the access to the control register CMD. -/
theorem commandWriteIsAccepted : Obligations.CommandWriteIsAccepted := by
  refine ⟨rfl, fun s v hr => ⟨fun hp => ?_, fun r hp => ?_, port_read_control .cmd hr⟩⟩
  · have hidle : s.busy = true → busyWritable v (.control .cmd) = true := by
      simp [busy_of_idle hp]
    exact ⟨⟨decoded v, s.sample (decoded v), _⟩, port_write_control .cmd v hr hidle, rfl, rfl⟩
  · exact port_write_control_busy .cmd v hr (busy_of_busy hp) rfl

/-! ### The control registers -/

/-- Settles O39: the write reaches `State.clearStatus`, busy or idle. -/
theorem statusWriteClearsDoneAndErr : Obligations.StatusWriteClearsDoneAndErr := by
  intro s v hr
  have hclear : s.clearStatus v
      = { s with done := s.done && !v.getLsbD 1, err := s.err && !v.getLsbD 2 } := by
    unfold State.clearStatus
    cases v.getLsbD 1 <;> cases v.getLsbD 2 <;> simp
  rw [← hclear]
  exact port_write_control .status v hr fun _ => rfl

/-- Settles O41: each bit is the flag at its place in the number that the word is. -/
theorem statusAndCtrlWordsBitByBit : Obligations.StatusAndCtrlWordsBitByBit := by
  intro s
  have hbusy := flagBit_lt s.busy
  have hdone := flagBit_lt s.done
  have herr := flagBit_lt s.err
  have hresult := flagBit_lt s.result
  have heq := flagBit_lt s.eq
  have hlt := flagBit_lt s.lt
  have hmrv := verdictCode_lt s.mrv
  have hirq := flagBit_lt s.irqEn
  have hzero : flagBit false = 0 := rfl
  have hpol : policyBit s.mrPolicy = flagBit (decide (s.mrPolicy = .earlyExit)) := by
    cases s.mrPolicy <;> rfl
  have hpol' := flagBit_lt (decide (s.mrPolicy = .earlyExit))
  refine ⟨?_, ?_, ?_, ?_, ?_, ?_, ?_, ?_, ?_, ?_, ?_, ?_, ?_⟩
  · exact getLsbD_ofNat_eq_flag (by omega) (by omega)
  · exact getLsbD_ofNat_eq_flag (by omega) (by omega)
  · exact getLsbD_ofNat_eq_flag (by omega) (by omega)
  · exact getLsbD_ofNat_eq_flag (by omega) (by omega)
  · exact getLsbD_ofNat_eq_flag (by omega) (by omega)
  · exact getLsbD_ofNat_eq_flag (by omega) (by omega)
  · exact getLsbD_ofNat_eq_flag (by omega) (by omega)
  · exact getLsbD_ofNat_eq_flag (by omega) (by omega)
  · have hcode : s.statusWord.toNat / 2 ^ 8 % 8 = verdictCode s.mrv := by
      unfold State.statusWord
      rw [BitVec.toNat_ofNat, Nat.mod_eq_of_lt (by omega)]
      omega
    rw [hcode]
    cases s.mrv <;> rfl
  · exact fun k hk => getLsbD_ofNat_eq_false (by omega) hk
  · exact getLsbD_ofNat_eq_flag (by omega) (by omega)
  · have hbit : s.ctrlWord.getLsbD 1 = decide (s.mrPolicy = .earlyExit) :=
      getLsbD_ofNat_eq_flag (by omega) (by omega)
    rw [hbit, decide_eq_true_eq]
  · exact fun k hk => getLsbD_ofNat_eq_false (by omega) hk

theorem flagBit_getLsbD (v : Word) (k : Nat) : flagBit (v.getLsbD k) = v.toNat / 2 ^ k % 2 := by
  rw [BitVec.getLsbD, Nat.testBit_eq_decide_div_mod_eq]
  rcases Nat.mod_two_eq_zero_or_one (v.toNat / 2 ^ k) with h | h <;> simp [h, flagBit]

/-- CTRL reads back the two bits written to it (rules R38, R45). -/
theorem ctrlWord_writeCtrl {s : State} {v : Word} (h : v.getLsbD 31 = false) :
    (s.writeCtrl v).ctrlWord = v &&& 3#32 := by
  have hpol : policyBit (policyOfBit (v.getLsbD 1)) = flagBit (v.getLsbD 1) := by
    cases v.getLsbD 1 <;> rfl
  unfold State.writeCtrl State.ctrlWord
  simp only [h, Bool.false_eq_true, if_false, hpol, flagBit_getLsbD]
  apply BitVec.eq_of_toNat_eq
  have hand : (v &&& 3#32).toNat = v.toNat % 2 ^ 2 := Nat.and_two_pow_sub_one_eq_mod v.toNat 2
  rw [hand, BitVec.toNat_ofNat]
  omega

/-- MR_ROUNDS takes the low byte of what is written to it (rule R44). -/
theorem ofNat_bits_low_byte (v : Word) : BitVec.ofNat 8 (bits v 7 0) = v.setWidth 8 := by
  apply BitVec.eq_of_toNat_eq
  simp [bits]

/-- MR_ROUNDS reads back that byte (rules R44, R45). -/
theorem ofNat_setWidth_eq_and (v : Word) :
    BitVec.ofNat 32 (v.setWidth 8).toNat = v &&& 0xFF#32 := by
  apply BitVec.eq_of_toNat_eq
  have hand : (v &&& 0xFF#32).toNat = v.toNat % 2 ^ 8 := Nat.and_two_pow_sub_one_eq_mod v.toNat 8
  rw [hand, BitVec.toNat_ofNat, BitVec.toNat_setWidth]
  omega

/-- Settles O40, by the access to each control register. -/
theorem controlWritesTakeTheirFields : Obligations.ControlWritesTakeTheirFields := by
  intro s v hp hr
  have hidle : ∀ p, s.busy = true → busyWritable v p = true := by simp [busy_of_idle hp]
  refine ⟨fun h31 => ⟨s.writeCtrl v, port_write_control .ctrl v hr (hidle _), ?_, ?_⟩,
    ⟨{ s with mrRounds := v.setWidth 8 }, ?_, rfl, ?_⟩, ?_⟩
  · simp only [State.writeCtrl, h31, Bool.false_eq_true, if_false, policyOfBit]
  · rw [← ctrlWord_writeCtrl (s := s) h31]
    refine port_read_control .ctrl ?_
    simp only [State.writeCtrl, h31, Bool.false_eq_true, if_false, hr]
  · rw [← ofNat_bits_low_byte]
    exact port_write_control .mrRounds v hr (hidle _)
  · rw [← ofNat_setWidth_eq_and]
    exact port_read_control .mrRounds hr
  · intro addr haddr
    simp only [List.mem_cons, List.not_mem_nil, or_false] at haddr
    rcases haddr with rfl | rfl | rfl | rfl
    · exact port_write_control .id v hr (hidle _)
    · exact port_write_control .param v hr (hidle _)
    · exact port_write_control .errcode v hr (hidle _)
    · exact port_write_control .mrDone v hr (hidle _)

/-- Settles O42: each register is read at its address, and the invariant bounds what it holds. -/
theorem otherControlWords : Obligations.OtherControlWords := by
  intro s hinv hr
  have hdone := mrDoneWord_toNat hinv.count
  refine ⟨port_read_control .id hr,
    ⟨s.paramWord, port_read_control .param hr, paramWord_toNat hinv.width⟩,
    ⟨s.errcodeWord, port_read_control .errcode hr, ?_⟩,
    ⟨s.mrRoundsWord, port_read_control .mrRounds hr, mrRoundsWord_toNat s⟩,
    ⟨s.mrDoneWord, port_read_control .mrDone hr, hdone, hdone.trans_le hinv.count⟩⟩
  rw [errcodeWord_toNat]
  cases s.errcode <;> rfl

/-! ### Reset -/

/-- Settles O45: a soft and a hard reset put the reset state, but for the level of `rst`. -/
theorem resetValues : Obligations.ResetValues := by
  refine ⟨fun s t hlegal ht => ?_, rfl, rfl, rfl⟩
  obtain ⟨level, rfl⟩ : ∃ level, t = { s.resetEngine with rst := level } := by
    obtain rfl | rfl := ht
    · exact ⟨s.rst, rfl⟩
    · exact ⟨true, rfl⟩
  have hparam := paramWord_toNat (s := s) hlegal
  exact ⟨resetEngine_reg s, rfl, hparam, rfl, rfl, rfl, rfl, rfl, rfl, rfl, rfl, rfl⟩

/-- Settles O48, as every legal width's reset state meets the invariant. -/
theorem invariantHoldsAtReset : Obligations.InvariantHoldsAtReset :=
  inv_resetFor (by decide)

end Sys2Proof.Machine

/-!
## The host port, address by address

What is refused before the interlock, what the address map leaves empty, and the operand window of
an idle and of a busy engine.
-/

namespace Sys2Proof.Machine

/-! ### Accesses refused before the interlock -/

/-- An access refused before the interlock, a read or a write, is answered with that bus error and
changes nothing (rule R280). -/
theorem port_refused {s : State} {size : AccessSize} {addr : Addr} {e : BusError}
    (h : s.reach size addr = .error e) (v : Word) :
    ∀ a ∈ [Access.read size addr, Access.write size addr v],
      s.port a = (.error, s) ∧ s.busError a = some e := by
  have hread : s.busRead size addr = .error e := by simp only [State.busRead, h]
  have hwrite : s.busWrite size addr v = .error e := by simp only [State.busWrite, h]
  intro a ha
  simp only [List.mem_cons, List.not_mem_nil, or_false] at ha
  rcases ha with rfl | rfl
  · simp only [State.port, State.busError, hread, and_self]
  · simp only [State.port, State.busError, hwrite, and_self]

/-- The step that performs a refused access is a fault of the host (rule R280). -/
theorem step_access_refused {s : State} {a : Access} {e : BusError} {rest : List Event}
    (h : ({ s with inputs := rest } : State).busError a = some e) :
    step { s with inputs := .access a :: rest } = .fault (.busError a e) := by
  rw [step_cons rfl]
  simp only [eventTurn, accessTurn, h]

/-- Settles O36: such an access reaches no place, whatever events are still to come. -/
theorem narrowOrMisalignedAccessIsBusError : Obligations.NarrowOrMisalignedAccessIsBusError := by
  intro s size addr v h a ha
  obtain ⟨e, he⟩ := reach_not_aligned s h
  refine ⟨(port_refused he v a ha).1, e, fun rest => step_access_refused ?_⟩
  have hrest : ({ s with inputs := rest } : State).reach size addr = .error e := he
  exact (port_refused hrest v a ha).2

/-! ### The address map -/

/-- The addresses at which the map has nothing, as rules R82, R83 and R88 list them. -/
def Unmapped (nw : Nat) (addr : Addr) : Prop :=
  (0x20 ≤ addr.toNat ∧ addr.toNat < 0x1000) ∨ 0x2000 ≤ addr.toNat ∨
    (0x1000 ≤ addr.toNat ∧ nw ≤ addr.toNat % 0x200 / 4)

theorem controlRegAt_eq_none {offset : Nat} (h : 0x20 ≤ offset) : controlRegAt offset = none := by
  unfold controlRegAt
  split
  case h_9 => rfl
  all_goals omega

/-- The eight words from offset 0 are the control and status registers (rule R34). -/
theorem exists_controlRegAt {offset : Nat} (h : offset < 0x20) (ha : offset % 4 = 0) :
    ∃ r, controlRegAt offset = some r := by
  obtain ⟨k, rfl⟩ := Nat.dvd_of_mod_eq_zero ha
  have hk : k < 8 := by omega
  interval_cases k <;> exact ⟨_, rfl⟩

/-- The window has a word exactly at the offsets of the words `j < NW` (rule R83). -/
theorem windowAt_eq_none_iff {nw offset : Nat} : windowAt nw offset = none ↔
    ¬ (0x1000 ≤ offset ∧ offset < 0x2000 ∧ offset % 0x200 / 4 < nw) := by
  unfold windowAt
  split
  · split
    · simp only [reduceCtorEq, false_iff, not_not]; omega
    · simp only [true_iff]; omega
  · simp only [true_iff]; omega

theorem placeAt_of_unmapped {nw : Nat} {addr : Addr} (h : Unmapped nw addr) :
    placeAt nw addr = none := by
  unfold Unmapped at h
  unfold placeAt
  rw [controlRegAt_eq_none (by omega)]
  exact windowAt_eq_none_iff.mpr (by omega)

/-- Every other word-aligned address is mapped (rule R82). -/
theorem exists_placeAt {nw : Nat} {addr : Addr} (ha : addr.toNat % 4 = 0)
    (h : ¬ Unmapped nw addr) : ∃ p, placeAt nw addr = some p := by
  unfold Unmapped at h
  unfold placeAt
  by_cases hlow : addr.toNat < 0x20
  · obtain ⟨r, hr⟩ := exists_controlRegAt hlow ha
    exact ⟨.control r, by rw [hr]⟩
  · rw [controlRegAt_eq_none (by omega)]
    refine Option.ne_none_iff_exists'.mp fun hnone => ?_
    exact windowAt_eq_none_iff.mp hnone (by omega)

/-- An access to an unmapped address is refused, whatever its size (rules R87, R88, R311). -/
theorem reach_unmapped {s : State} {addr : Addr} (size : AccessSize)
    (h : Unmapped s.params.nw addr) : ∃ e, s.reach size addr = .error e := by
  rcases hreach : s.reach size addr with e | p
  · exact ⟨e, rfl⟩
  · obtain ⟨-, -, hp⟩ := reach_ok hreach
    rw [placeAt_of_unmapped h] at hp
    cases hp

/-! ### An idle engine -/

/-- An idle engine reads every place of the map (rule R84). -/
theorem port_read_idle {s : State} {addr : Addr} {p : Place} (hi : s.phase = .idle)
    (hr : s.rst = false) (ha : addr.toNat % 4 = 0) (hp : placeAt s.params.nw addr = some p) :
    s.port (.read .word addr) = (.readOkay (s.readPlace p), s) := by
  rw [port_read hr ha hp, busy_of_idle hi]
  rfl

/-- An idle engine takes a write to every place of the map (rule R85). -/
theorem port_write_idle {s : State} {addr : Addr} {p : Place} (v : Word) (hi : s.phase = .idle)
    (hr : s.rst = false) (ha : addr.toNat % 4 = 0) (hp : placeAt s.params.nw addr = some p) :
    s.port (.write .word addr v) = (.writeOkay, s.writePlace v p) := by
  rw [port_write v hr ha hp, busy_of_idle hi]
  rfl

/-- Settles O37: an unmapped address is reached by no access, and every other aligned one is a place
of the map, which an idle engine reads and writes. -/
theorem unmappedAccessIsBusError : Obligations.UnmappedAccessIsBusError := by
  intro s addr v
  refine ⟨fun h size a ha => ?_, fun hi hr halign h a ha => ?_⟩
  · obtain ⟨e, he⟩ := reach_unmapped size h
    exact (port_refused he v a ha).1
  · obtain ⟨p, hp⟩ := exists_placeAt halign h
    simp only [List.mem_cons, List.not_mem_nil, or_false] at ha
    rcases ha with rfl | rfl
    · rw [port_read_idle hi hr halign hp]; simp
    · rw [port_write_idle v hi hr halign hp]; simp

/-! ### The operand window -/

/-- The address of word `j` of an operand register (rule R83). -/
def windowAddr (r : Reg) (j : Nat) : Addr := BitVec.ofNat 16 (0x1000 + 0x200 * r.val + 4 * j)

theorem windowAddr_aligned (r : Reg) (j : Nat) : (windowAddr r j).toNat % 4 = 0 := by
  unfold windowAddr
  rw [BitVec.toNat_ofNat]
  omega

/-- A legal engine has at most 128 words per operand (rule R5). -/
theorem nw_le_of_legal {p : Params} (h : p.legal = true) : p.nw ≤ 128 := by
  have hw := (width_bounds h).2
  unfold Params.width at hw
  omega

/-- An existing window word stands at its address (rule R83). -/
theorem placeAt_windowAddr {p : Params} {j : Nat} (r : Reg) (hp : p.legal = true)
    (hj : j < p.nw) : placeAt p.nw (windowAddr r j) = some (.window r j) :=
  placeAt_window r (nw_le_of_legal hp) hj

section
variable {s : State} {j : Nat}

/-- On an idle engine a window word reads as its bits of the register (rules R83, R84). -/
theorem port_read_window (r : Reg) (hi : s.phase = .idle) (hr : s.rst = false)
    (hl : s.params.legal = true) (hj : j < s.params.nw) :
    s.port (.read .word (windowAddr r j)) = (.readOkay (wordOf (s.reg r) j), s) :=
  port_read_idle hi hr (windowAddr_aligned r j) (placeAt_windowAddr r hl hj)

/-- On an idle engine a window write replaces the word in the register (rule R85). -/
theorem port_write_window (r : Reg) (v : Word) (hi : s.phase = .idle) (hr : s.rst = false)
    (hl : s.params.legal = true) (hj : j < s.params.nw) :
    s.port (.write .word (windowAddr r j) v)
      = (.writeOkay, s.setReg r (replaceWord (s.reg r) j v)) :=
  port_write_idle v hi hr (windowAddr_aligned r j) (placeAt_windowAddr r hl hj)

/-- A busy engine refuses to read its window (rule R89 (b)). -/
theorem port_read_window_busy (r : Reg) (hb : s.busy = true) (hr : s.rst = false)
    (hl : s.params.legal = true) (hj : j < s.params.nw) :
    s.port (.read .word (windowAddr r j)) = (.error, s) := by
  rw [port_read hr (windowAddr_aligned r j) (placeAt_windowAddr r hl hj), hb]
  rfl

/-- A busy engine refuses to write its window (rule R89 (c)). -/
theorem port_write_window_busy (r : Reg) (v : Word) (hb : s.busy = true) (hr : s.rst = false)
    (hl : s.params.legal = true) (hj : j < s.params.nw) :
    s.port (.write .word (windowAddr r j) v) = (.error, s) := by
  rw [port_write v hr (windowAddr_aligned r j) (placeAt_windowAddr r hl hj), hb]
  rfl

end

/-- The other words of every register after word `j` of `r` is written (rule R85). -/
theorem wordOf_setReg_replaceWord {r r' : Reg} {j j' : Nat} (s : State) (v : Word)
    (h : r' ≠ r ∨ j' ≠ j) :
    wordOf ((s.setReg r (replaceWord (s.reg r) j v)).reg r') j' = wordOf (s.reg r') j' := by
  by_cases hr : r' = r
  · obtain rfl := hr
    rw [setReg_reg_same, wordOf_replaceWord_ne _ _ _ _ (h.resolve_left (· rfl))]
  · rw [setReg_reg_ne _ _ hr]

/-- Settles O34: the write puts `replaceWord` into the register, whose words are then read. -/
theorem windowWordsReadBack : Obligations.WindowWordsReadBack := by
  intro s r j v hi hr hl hj
  refine ⟨port_read_window r hi hr hl hj, s.x.set r.val (replaceWord (s.reg r) j v),
    port_write_window r v hi hr hl hj, ?_, fun r' j' hj' hne => ?_⟩
  · refine (port_read_window (s := s.setReg r _) r hi hr hl hj).trans ?_
    rw [setReg_reg_same, wordOf_replaceWord_same]
    rfl
  · have hread := port_read_window (s := s.setReg r (replaceWord (s.reg r) j v)) r' hi hr hl hj'
    rw [wordOf_setReg_replaceWord s v hne] at hread
    exact (congrArg Prod.fst hread).trans
      (congrArg Prod.fst (port_read_window r' hi hr hl hj')).symm

/-! ### The busy interlock -/

/-- A STATUS write clears nothing if DONE and ERR are 0 (rule R36). -/
theorem clearStatus_eq_self {s : State} (v : Word) (hd : s.done = false) (he : s.err = false) :
    s.clearStatus v = s := by
  have hdone : (if v.getLsbD 1 then false else s.done) = s.done := by rw [hd, ite_self]
  have herr : (if v.getLsbD 2 then false else s.err) = s.err := by rw [he, ite_self]
  simp only [State.clearStatus, hdone, herr]

/-- Settles O38: each clause is an access to a control register, which the interlock lets through or
refuses, or to the window, which it refuses. -/
theorem busyInterlock : Obligations.BusyInterlock := by
  intro s run v r j hp hr hl hj
  have hb := busy_of_busy hp
  refine ⟨?_, port_read_window_busy r hb hr hl hj, port_write_window_busy r v hb hr hl hj,
    port_write_control_busy .cmd v hr hb rfl, port_write_control_busy .mrRounds v hr hb rfl,
    fun h31 => ?_, fun h31 => port_write_control_busy .ctrl v hr hb h31,
    port_write_control .status v hr fun _ => rfl, clearStatus_eq_self v, ?_⟩
  · intro p hmem
    have haddr : p.1 = controlAddr p.2 := by
      simp only [List.mem_cons, List.not_mem_nil, or_false] at hmem
      rcases hmem with rfl | rfl | rfl | rfl | rfl | rfl | rfl | rfl <;> rfl
    rw [haddr]
    exact port_read_control p.2 hr
  · have hreset : s.writePlace v (.control .ctrl) = s.resetEngine := if_pos h31
    rw [← hreset]
    exact port_write_control .ctrl v hr fun _ => h31
  · intro addr hmem
    simp only [List.mem_cons, List.not_mem_nil, or_false] at hmem
    rcases hmem with rfl | rfl | rfl | rfl
    · exact port_write_control .id v hr fun _ => rfl
    · exact port_write_control .param v hr fun _ => rfl
    · exact port_write_control .errcode v hr fun _ => rfl
    · exact port_write_control .mrDone v hr fun _ => rfl

end Sys2Proof.Machine

/-!
## The test over the words presented

The run of the Miller–Rabin unit is the loop of rule R215 over the draws of rule R216: `testOver`
over `drawsFrom` is what the run's last state holds (`testOver_drawsFrom`).
-/

namespace Sys2Proof.Machine

/-- What a finished test reports (rule R215): the verdict, the rounds begun and the last witness. -/
def Mru.report (m : Mru) : Option (Verdict × Nat × Nat) :=
  match m.stage with
  | .finished v => some (v, m.k, m.w)
  | .draw _ _ => none
  | .square _ _ => none

theorem Mru.report_finished {m : Mru} {v : Verdict} (h : m.stage = .finished v) :
    m.report = some (v, m.k, m.w) := by
  unfold Mru.report; rw [h]

theorem Mru.report_draw {m : Mru} {t j : Nat} (h : m.stage = .draw t j) : m.report = none := by
  unfold Mru.report; rw [h]

/-- A unit that draws has no round to finish. -/
theorem finishRound_of_draw (p : Nat) (policy : Policy) (rounds : Nat) {m : Mru} {t j : Nat}
    (h : m.stage = .draw t j) : finishRound p policy rounds m = m :=
  finishRound_eq_self p policy rounds (by simp [h])

/-- A round begun on a witness ends with that witness's verdict (rule R213). -/
theorem finishRound_beginRound {p : Nat} (policy : Policy) (rounds w : Nat) {m : Mru}
    (hd : m.d = decomposeD p) (hs : m.s = decomposeS p) :
    finishRound p policy rounds (beginRound p policy rounds w m)
      = afterRound policy rounds (roundVerdict p w) { m with w := w, k := m.k + 1 } := by
  have hround : ∀ v m', finishRound p policy rounds (afterRound policy rounds v m')
      = afterRound policy rounds v m' := by
    intro v m'
    refine finishRound_eq_self _ _ _ fun y left => ?_
    obtain ⟨_, h⟩ | ⟨_, h⟩ := afterRound_cases policy rounds v m' <;> rw [h] <;> simp
  simp only [beginRound, roundVerdict, hd, hs]
  by_cases hgcd : 1 < Nat.gcd p w
  · rw [if_pos hgcd, if_pos hgcd, hround]
  rw [if_neg hgcd, if_neg hgcd]
  by_cases hpass : modExp w (decomposeD p) p = 1 ∨ modExp w (decomposeD p) p = p - 1
  · rw [if_pos hpass, if_pos hpass, hround]
  · rw [if_neg hpass, if_neg hpass]
    rfl

/-- One draw of the loop of rule R215: its round ends the test, or the next draw begins. -/
theorem testOver_cons (p rounds : Nat) (policy : Policy) (w : Nat) (draws : List Nat) (m : Mru) :
    testOver p rounds policy m.k (w :: draws)
      = ((afterRound policy rounds (roundVerdict p w) { m with w := w, k := m.k + 1 }).report).or
          (testOver p rounds policy (m.k + 1) draws) := by
  simp only [testOver, afterRound]
  split_ifs <;> rfl

/-- The run over the words presented reports what the loop of rule R215 says of their draws. -/
theorem testOver_drawsFrom {p : Nat} (policy : Policy) (rounds : Nat) (ws : List Word) {m : Mru}
    {t j : Nat} (hm : m.stage = .draw t j) (hd : m.d = decomposeD p) (hs : m.s = decomposeS p) :
    testOver p rounds policy m.k (drawsFrom p t j ws)
      = (runTest p policy rounds m ws).1.report := by
  induction ws generalizing m t j with
  | nil =>
    rw [runTest, finishRound_of_draw p policy rounds hm, Mru.report_draw hm]
    rfl
  | cons word ws ih =>
    have hself := finishRound_of_draw p policy rounds hm
    rw [runTest_cons_draw word ws (by rw [hself, hm]), hself]
    unfold takeWord drawsFrom
    cases hw : drawWord p t j word with
    | more t' j' => exact ih (m := { m with stage := .draw t' j' }) rfl hd hs
    | witness w =>
      simp only
      rw [testOver_cons, ← runTest_finishRound p policy rounds (beginRound ..),
        finishRound_beginRound policy rounds w hd hs]
      obtain ⟨v, h⟩ | ⟨-, h⟩ :=
        afterRound_cases policy rounds (roundVerdict p w) { m with w := w, k := m.k + 1 }
      · rw [h, Mru.report_finished rfl, runTest_finished ws rfl]
        rfl
      · rw [h, Mru.report_draw rfl, Option.none_or]
        exact ih (m := { m with w := w, k := m.k + 1, stage := .draw 0 0 }) rfl hd hs

/-- A test that the words presented do not end waits in a draw, and has taken them all
(rules R96, R216). -/
theorem runTest_waits {p : Nat} {policy : Policy} {rounds : Nat} {ws : List Word}
    (h : testOver p rounds policy 0 (drawsFrom p 0 0 ws) = none) :
    ∃ m t j, m.stage = .draw t j ∧ runTest p policy rounds (mruStart p) ws = (m, []) := by
  have hreport : (runTest p policy rounds (mruStart p) ws).1.report = none :=
    (testOver_drawsFrom (m := mruStart p) policy rounds ws rfl rfl rfl).symm.trans h
  rcases hs : (runTest p policy rounds (mruStart p) ws).1.stage with ⟨t, j⟩ | ⟨y, left⟩ | ⟨v⟩
  · exact ⟨_, t, j, hs, Prod.ext rfl (runTest_draw_nil _ _ _ _ _ hs)⟩
  · exact absurd hs (runTest_not_square _ _ _ _ _ _ _)
  · rw [Mru.report_finished hs] at hreport
    cases hreport

/-! ### MRTEST waiting for an entropy word -/

/-- A running MRTEST whose unit comes to wait for a word stays busy with the unit there, and writes
nothing (rules R96, R293). -/
theorem exec_mrtest_waits {s : State} {r : Running} {m : Mru} {t j : Nat} (rd ra : Reg)
    (hp : s.phase = .busy r) (hpre : preReject r.snap.a = false) (hm : m.stage = .draw t j)
    (hrun : runTest r.snap.a r.snap.policy r.snap.rounds.toNat s.mruUnit s.rng = (m, [])) :
    exec (.mrtest rd ra) s = .next (s.withUnit (.mru m) []) := by
  simp only [exec, execMrtest, issue_busy _ hp, snapshot_busy hp, hpre, hrun, hm,
    Bool.false_eq_true, if_false]

/-- An idle engine's command is the one under way once its word is accepted (rule R48). -/
theorem exec_idle {s : State} (i : Instr) (h : s.phase = .idle) :
    exec i s = exec i (s.acceptAs (encode i) (some i)) := by
  apply exec_congr_issue
  rw [issue_idle i h]
  rfl

/-- The engine raises `rng_ready` while its unit draws (rule R96). -/
theorem rngReady_of_draw {s : State} {r : Running} {m : Mru} {t j : Nat} (hr : s.rst = false)
    (hp : s.phase = .busy r) (hu : r.unit = .mru m) (hm : m.stage = .draw t j) :
    s.rngReady = true := by
  unfold State.rngReady
  rw [hp]
  simp only [hr, hu, UnitRegs.drawing, hm, Bool.not_false, Bool.and_self]

/-- Run again without a word, the test stays exactly as it waits (rule R293). -/
theorem exec_mrtest_stays {s : State} {r : Running} {m : Mru} {t j : Nat} (rd ra : Reg)
    (hp : s.phase = .busy r) (hpre : preReject r.snap.a = false) (hu : r.unit = .mru m)
    (hm : m.stage = .draw t j) (hrng : s.rng = []) : exec (.mrtest rd ra) s = .next s := by
  have hself : s.withUnit (.mru m) [] = s := by
    rw [withUnit_busy _ _ hp, ← hu, ← hrng, ← hp]
  have hrun : runTest r.snap.a r.snap.policy r.snap.rounds.toNat s.mruUnit s.rng = (m, []) := by
    rw [mruUnit_mru hp hu, hrng, runTest, finishRound_of_draw _ _ _ hm]
  rw [exec_mrtest_waits rd ra hp hpre hm hrun, hself]

/-- With more words, a test that waited ends as the test to which they were presented from the
start (rule R216). -/
theorem exec_mrtest_resumes {s : State} {r : Running} {m : Mru} {t j : Nat} (rd ra : Reg)
    (hp : s.phase = .busy r) (hpre : preReject r.snap.a = false) (hm : m.stage = .draw t j)
    (hrun : runTest r.snap.a r.snap.policy r.snap.rounds.toNat s.mruUnit s.rng = (m, []))
    (words : List Word) :
    exec (.mrtest rd ra) (s.withUnit (.mru m) words)
      = exec (.mrtest rd ra) { s with rng := s.rng ++ words } := by
  have hp' : ({ s with rng := s.rng ++ words } : State).phase = .busy r := hp
  have hsame : s.withUnit (.mru m) words
      = ({ s with rng := s.rng ++ words } : State).withUnit (.mru m) words := by
    rw [withUnit_busy _ _ hp, withUnit_busy _ _ hp']
  rw [hsame]
  refine exec_mrtest_withUnit rd ra hp' _ _ (by simp [hpre]) ?_
  rw [mruUnit_mru (withUnit_phase_busy _ _ hp') rfl]
  have happend := runTest_append_draw r.snap.a r.snap.policy r.snap.rounds.toNat s.mruUnit s.rng
    words (by rw [hrun]; exact hm)
  rw [hrun] at happend
  exact happend.symm

/-- An accepted MRTEST of a candidate that is not rejected has its unit at the start (rule R215). -/
theorem mruUnit_acceptAs_mrtest {s : State} (v : Word) (rd ra : Reg)
    (hpre : preReject (s.reg ra) = false) :
    (s.acceptAs v (some (.mrtest rd ra))).mruUnit = mruStart (s.reg ra) := by
  have hunit : startUnit s.params.width (some (.mrtest rd ra)) (s.sample (some (.mrtest rd ra)))
      = .mru (mruStart (s.reg ra)) := if_neg (by rw [State.sample, hpre]; decide)
  exact mruUnit_mru (acceptAs_phase ..) hunit

/-- Settles O23: the run over the words presented waits in a draw; there the engine stays, and from
there it resumes. -/
theorem mrtestWaitsForEntropy : Obligations.MrtestWaitsForEntropy := by
  intro s rd ra hi hr hp hodd hnone
  have hpre : preReject (s.reg ra) = false := preReject_eq_false.mpr ⟨hp, hodd⟩
  obtain ⟨m, t, j, hm, hrun⟩ := runTest_waits hnone
  rw [← mruUnit_acceptAs_mrtest (encode (.mrtest rd ra)) rd ra hpre] at hrun
  have hbusy := acceptAs_phase (encode (.mrtest rd ra)) (some (.mrtest rd ra)) s
  refine ⟨⟨some (.mrtest rd ra), s.sample (some (.mrtest rd ra)), .mru m⟩, ?_,
    rngReady_of_draw hr rfl rfl hm, exec_mrtest_stays rd ra rfl hpre rfl hm rfl, fun words => ?_⟩
  · rw [exec_idle _ hi]
    exact exec_mrtest_waits rd ra hbusy hpre hm hrun
  · rw [exec_idle (s := { s with rng := s.rng ++ words }) _ hi]
    exact exec_mrtest_resumes rd ra hbusy hpre hm hrun words

end Sys2Proof.Machine

/-!
## The opcode map, LOADW and VERIFY

A word decodes to a command exactly when it is the command's number (`decode_eq_ok_iff`); an illegal
word spells no row. LOADW is an induction on the words still to be written.
-/

namespace Sys2Proof.Machine

/-! ### A word and its command -/

/-- Settles O3, by the row that the encoder's word spells. -/
theorem decodeEncodeRoundTrip : Obligations.DecodeEncodeRoundTrip :=
  fun _ h => decode_encode h

/-- Settles O4: every row fixes the whole opcode, and no two rows have the same one. -/
theorem atMostOneRowSpellsAWord : Obligations.AtMostOneRowSpellsAWord := by
  intro v r₁ h₁ r₂ h₂ hs₁ hs₂
  obtain ⟨op₁, rfl⟩ := mem_opcodeMap.mp h₁
  obtain ⟨op₂, rfl⟩ := mem_opcodeMap.mp h₂
  rw [op_eq_of_opcode_eq ((opcode_of_spells hs₁).symm.trans (opcode_of_spells hs₂))]

/-- What the decoder answers is the operands of a row that the word spells (rules R112, R122). -/
theorem exists_spells_of_decode {v : Word} {i : Instr} (h : decode v = .ok i) :
    ∃ op, (rowOf op).spells v = true ∧ i = assemble op v := by
  unfold decode at h
  split at h
  · next r hr =>
    obtain ⟨op, rfl⟩ := mem_opcodeMap.mp (List.mem_of_find?_eq_some hr)
    have hs : (rowOf op).spells v = true := List.find?_some (p := fun r : Row => r.spells v) hr
    cases h
    exact ⟨op, hs, by cases op <;> rfl⟩
  · split at h <;> cases h

theorem decoded_eq_some_iff {v : Word} {i : Instr} : decoded v = some i ↔ decode v = .ok i := by
  unfold decoded
  split <;> next h => simp [h]

/-- The number a command's word is: its opcode, and its operands at their places (rules R111, R113,
R115). -/
def wordNumber : Instr → Nat
  | .nop => 0x00
  | .mov rd ra => 0x01 + 2 ^ 8 * rd.val + 2 ^ 11 * ra.val
  | .ldi rd imm21 => 0x02 + 2 ^ 8 * rd.val + 2 ^ 11 * imm21
  | .cmp ra rb => 0x03 + 2 ^ 11 * ra.val + 2 ^ 14 * rb.val
  | .montmul rd ra rb rn =>
    0x08 + 2 ^ 8 * rd.val + 2 ^ 11 * ra.val + 2 ^ 14 * rb.val + 2 ^ 17 * rn.val
  | .modexp rd ra rb rn =>
    0x09 + 2 ^ 8 * rd.val + 2 ^ 11 * ra.val + 2 ^ 14 * rb.val + 2 ^ 17 * rn.val
  | .gcd rd ra rb => 0x10 + 2 ^ 8 * rd.val + 2 ^ 11 * ra.val + 2 ^ 14 * rb.val
  | .modinv rd ra rb => 0x11 + 2 ^ 8 * rd.val + 2 ^ 11 * ra.val + 2 ^ 14 * rb.val
  | .mrtest rd ra => 0x18 + 2 ^ 8 * rd.val + 2 ^ 11 * ra.val
  | .mrround ra rb => 0x19 + 2 ^ 11 * ra.val + 2 ^ 14 * rb.val

/-- The encoder writes that number (rule R121). -/
theorem toNat_encode {i : Instr} (h : i.wellFormed = true) : (encode i).toNat = wordNumber i := by
  cases i with
  | nop => rfl
  | ldi rd imm => exact toNat_packI _ _ _ (by decide) rd.isLt (by simpa [Instr.wellFormed] using h)
  | mov rd ra => exact toNat_packR _ _ _ 0 0 (by decide) rd.isLt ra.isLt (by decide) (by decide)
  | cmp ra rb => exact toNat_packR _ 0 _ _ 0 (by decide) (by decide) ra.isLt rb.isLt (by decide)
  | montmul rd ra rb rn => exact toNat_packR _ _ _ _ _ (by decide) rd.isLt ra.isLt rb.isLt rn.isLt
  | modexp rd ra rb rn => exact toNat_packR _ _ _ _ _ (by decide) rd.isLt ra.isLt rb.isLt rn.isLt
  | gcd rd ra rb => exact toNat_packR _ _ _ _ 0 (by decide) rd.isLt ra.isLt rb.isLt (by decide)
  | modinv rd ra rb => exact toNat_packR _ _ _ _ 0 (by decide) rd.isLt ra.isLt rb.isLt (by decide)
  | mrtest rd ra => exact toNat_packR _ _ _ 0 0 (by decide) rd.isLt ra.isLt (by decide) (by decide)
  | mrround ra rb => exact toNat_packR _ 0 _ _ 0 (by decide) (by decide) ra.isLt rb.isLt (by decide)

/-- A word that spells a row is the number of the command whose operands are taken out of it: the
fields and the fixed bits of the row are all its bits (rules R112, R115). -/
theorem wordNumber_assemble {op : Op} {v : Word} (h : (rowOf op).spells v = true) :
    wordNumber (assemble op v) = v.toNat := by
  obtain ⟨hlow, hhigh⟩ := (spells_iff op v).mp h
  have hv := v.isLt
  have hd : (rdField v).val = v.toNat / 2 ^ 8 % 2 ^ 3 := rfl
  have ha : (raField v).val = v.toNat / 2 ^ 11 % 2 ^ 3 := rfl
  have hb : (rbField v).val = v.toNat / 2 ^ 14 % 2 ^ 3 := rfl
  have hn : (rnField v).val = v.toNat / 2 ^ 17 % 2 ^ 3 := rfl
  have hi : immField v = v.toNat / 2 ^ 11 % 2 ^ 21 := rfl
  cases op <;>
    simp only [rowOf, fixedBits, BitVec.toNat_ofNat, assemble, wordNumber, hd, ha, hb, hn, hi]
      at hlow hhigh ⊢ <;>
    omega

/-- A word decodes to a command exactly when the command is well formed and the word is its number
(rules R115, R122). -/
theorem decode_eq_ok_iff {v : Word} {i : Instr} :
    decode v = .ok i ↔ i.wellFormed = true ∧ v.toNat = wordNumber i := by
  constructor
  · intro h
    refine ⟨wellFormed_of_decoded (decoded_eq_some_iff.mpr h), ?_⟩
    obtain ⟨op, hs, rfl⟩ := exists_spells_of_decode h
    exact (wordNumber_assemble hs).symm
  · rintro ⟨hi, hv⟩
    have hword : v = encode i := BitVec.eq_of_toNat_eq (hv.trans (toNat_encode hi).symm)
    rw [hword, decode_encode hi]

/-- The word that decodes to a command is the word the encoder writes for it. -/
theorem encode_of_decode {v : Word} {i : Instr} (h : decode v = .ok i) : encode i = v := by
  obtain ⟨hi, hv⟩ := decode_eq_ok_iff.mp h
  exact BitVec.eq_of_toNat_eq ((toNat_encode hi).trans hv.symm)

/-- Settles O2: the row of the command in the list is the one with its mnemonic, and says the number
that the word is. -/
theorem opcodeMapIsComplete : Obligations.OpcodeMapIsComplete := by
  intro v i
  rw [decode_eq_ok_iff]
  cases i <;> simp [Instr.wellFormed, wordNumber, and_assoc]

/-- Settles O1, word by word. -/
theorem specWordsDecodeAsListed : Obligations.SpecWordsDecodeAsListed := by
  unfold Obligations.SpecWordsDecodeAsListed
  decide

/-! ### Illegal words -/

/-- A word is illegal exactly when it spells no row (rule R116). -/
theorem decoded_eq_none_iff {v : Word} :
    decoded v = none ↔ ∀ op, ¬ (rowOf op).spells v = true := by
  constructor
  · intro h op hs
    rw [decoded_eq_some_iff.mpr (decode_of_spells hs)] at h
    cases h
  · intro h
    cases hd : decoded v with
    | none => rfl
    | some i =>
      obtain ⟨op, hs, -⟩ := exists_spells_of_decode (decoded_eq_some_iff.mp hd)
      exact absurd hs (h op)

/-- The opcodes of the map (rule R115). -/
theorem opcode_mem_of_spells {op : Op} {v : Word} (h : (rowOf op).spells v = true) :
    v.toNat % 256 ∈ [0x00, 0x01, 0x02, 0x03, 0x08, 0x09, 0x10, 0x11, 0x18, 0x19] := by
  rw [show 256 = 2 ^ 8 from rfl, opcode_of_spells h]
  cases op <;> decide

/-- A word accepted on an idle engine that ends in a command error (rules R272, R275). -/
theorem cmdError_accept {s : State} (v : Word) (c : ErrCode) (h : s.phase = .idle) :
    (s.accept v).cmdError c = s.afterError v c := by
  simp only [State.accept, State.acceptAs, State.cmdError, State.afterError, h]

/-- Settles O5: an illegal word spells no row, so the engine runs no command for it and its turn
raises `ILLEGAL_CMD`. -/
theorem illegalWordCompletesWithIllegalCmd : Obligations.IllegalWordCompletesWithIllegalCmd := by
  refine ⟨fun v => ?_, fun v hopc => ?_, fun s v hp hr hv => ⟨?_, rfl, rfl, fun rest => ?_⟩⟩
  · simp [decoded_eq_none_iff, mem_opcodeMap, Row.spells]
  · refine decoded_eq_none_iff.mpr fun op hs => ?_
    have hmem := opcode_mem_of_spells hs
    simp only [List.mem_cons, List.not_mem_nil, or_false] at hmem
    omega
  · exact port_write_control .cmd v hr (by simp [busy_of_idle hp])
  · rw [step_cons rfl, ← cmdError_accept v .illegalCmd hp]
    exact engineTurn_illegal (r := ⟨decoded v, _, _⟩) hr rfl hv

/-! ### The step of a command -/

/-- Settles O8, by the two ways the engine gets its turn. -/
theorem stepRunsTheRunningCommand : Obligations.StepRunsTheRunningCommand := by
  intro s r i hr hp hi
  refine ⟨fun hin => ?_, fun rest hin => ?_⟩
  · rw [step_nil hin, engineTurn_running hr hp hi]
  · rw [step_cons hin]
    exact engineTurn_running (s := { s with inputs := rest }) hr hp hi

/-- The byte lanes of a word make the word (rule R86). -/
theorem decodeLanes_lanesOfWord (v : Word) : decodeLanes (lanesOfWord v) = decode v := by
  have hv := v.isLt
  refine congrArg decode (BitVec.eq_of_toNat_eq ?_)
  simp only [wordOfLanes, bits, BitVec.toNat_ofNat]
  omega

theorem decodeTableWord_eq_decoded (nbits w : Nat) :
    decodeTableWord nbits w = decoded (BitVec.ofNat 32 (w % 2 ^ nbits)) := by
  unfold decodeTableWord decoded
  rw [decodeLanes_lanesOfWord]

/-- Settles O9: the placed word is the encoder's word of its command, and accepting it and then
running it is the command done at once. -/
theorem placedCommandRunsNext : Obligations.PlacedCommandRunsNext := by
  intro s w i _ hdec
  rw [decodeTableWord_eq_decoded] at hdec
  have hword : encode i = BitVec.ofNat 32 (w % 2 ^ 32) :=
    encode_of_decode (decoded_eq_some_iff.mp hdec)
  unfold State.withFetchWord State.placeCommand
  rw [step_cons rfl, ← hword]
  calc eventTurn .engine (State.accept (encode i) { s with phase := .idle, rst := false })
      = exec i (State.accept (encode i) { s with phase := .idle, rst := false }) :=
        engineTurn_running (r := ⟨decoded (encode i), _, _⟩) rfl rfl (hword ▸ hdec)
    _ = exec i { s with phase := .idle, rst := false } :=
        acceptedCommandEndsAsAtomicCommand _ i rfl (wellFormed_of_decoded hdec)

/-! ### LOADW -/

/-- A transaction that the engine answers okay is performed and its answer given (rule R93). -/
theorem accessTurn_okay {s t : State} {a : Access} {resp : Response} (h : s.port a = (resp, t))
    (hok : resp ≠ .error) :
    accessTurn a s = .next { t with answers := resp :: s.answers } := by
  have hnone : s.busError a = none :=
    Option.eq_none_iff_forall_ne_some.mpr fun e he =>
      hok (by rw [← (port_error_iff s a).mpr ⟨e, he⟩, h])
  simp only [accessTurn, hnone, h]

theorem run_succ_of_step {s t : State} (k : Nat) (h : step s = .next t) :
    Host.Core.run core (k + 1) s = Host.Core.run core k t := by
  simp only [Host.Core.run, show core.step s = .next t from h]

/-- The state after word `j` of `r` has been written and the write answered, with the events `rest`
left (rules R83, R85, R93). -/
def State.wroteWord (r : Reg) (j : Nat) (w : Word) (rest : List Event) (s : State) : State :=
  { s with
    x := s.x.set r.val (replaceWord (s.reg r) j w), inputs := rest,
    answers := .writeOkay :: s.answers }

theorem wroteWord_reg (r : Reg) (j : Nat) (w : Word) (rest : List Event) (s : State) :
    (s.wroteWord r j w rest).reg r = replaceWord (s.reg r) j w := setReg_reg_same r _ s

/-- One write of LOADW on an idle engine. -/
theorem step_window_write {s : State} {r : Reg} {w : Word} {j : Nat} {rest : List Event}
    (hin : s.inputs = wr (windowOffset r j) w :: rest) (hi : s.phase = .idle)
    (hr : s.rst = false) (hl : s.params.legal = true) (hj : j < s.params.nw) :
    step s = .next (s.wroteWord r j w rest) := by
  rw [step_cons hin]
  exact accessTurn_okay (port_write_window (s := { s with inputs := rest }) r w hi hr hl hj)
    (by decide)

/-- Once word `j` of `v` is written over an operand whose words below `j` are those of `v`, so are
its words up to `j`. -/
theorem replaceWord_wordOf_mod {u v j : Nat} (h : u % 2 ^ (32 * j) = v % 2 ^ (32 * j)) :
    replaceWord u j (wordOf v j) % 2 ^ (32 * (j + 1)) = v % 2 ^ (32 * (j + 1)) := by
  apply Nat.eq_of_testBit_eq
  intro k
  have hk := congrArg (Nat.testBit · k) h
  simp only [Nat.testBit_mod_two_pow] at hk ⊢
  rw [testBit_replaceWord]
  by_cases hlow : k < 32 * j
  · rw [if_neg (by omega)]
    simpa [hlow, show k < 32 * (j + 1) by omega] using hk
  · by_cases hin : k < 32 * (j + 1)
    · rw [if_pos ⟨by omega, hin⟩, wordOf, BitVec.getLsbD_ofNat, Nat.testBit_div_two_pow,
        decide_eq_true (show k - 32 * j < 32 by omega), Bool.true_and,
        Nat.sub_add_cancel (by omega)]
    · simp [hin]

/-- The writes of the `k` words of `v` from word `j` on (rule R121). -/
def loadwFrom (r : Reg) (v j k : Nat) : List Event :=
  (List.range' j k).map fun j => wr (windowOffset r j) (wordOf v j)

theorem loadwFrom_succ (r : Reg) (v j k : Nat) :
    loadwFrom r v j (k + 1) = wr (windowOffset r j) (wordOf v j) :: loadwFrom r v (j + 1) k := rfl

theorem loadw_eq_loadwFrom (nw : Nat) (r : Reg) (v : Nat) : loadw nw r v = loadwFrom r v 0 nw := by
  rw [loadw, loadwFrom, List.range_eq_range']

/-- The writes from word `j` to the last one, over a register whose words below `j` are those of `v`
already, load `v` (rule R121). -/
theorem run_loadwFrom (k : Nat) {s : State} {r : Reg} {v j : Nat} {rest : List Event}
    (hin : s.inputs = loadwFrom r v j k ++ rest) (hi : s.phase = .idle) (hr : s.rst = false)
    (hl : s.params.legal = true) (hk : j + k = s.params.nw)
    (hs : s.reg r < 2 ^ s.params.width) (hv : v < 2 ^ s.params.width)
    (hlow : s.reg r % 2 ^ (32 * j) = v % 2 ^ (32 * j)) :
    Host.Core.run core k s = .next { s with
      x := s.x.set r.val v, inputs := rest,
      answers := List.replicate k .writeOkay ++ s.answers } := by
  induction k generalizing s j with
  | zero =>
    have hreg : s.reg r = v := by
      rw [show j = s.params.nw from hk] at hlow
      exact (Nat.mod_eq_of_lt hs).symm.trans (hlow.trans (Nat.mod_eq_of_lt hv))
    have hx : s.x.set r.val v = s.x := by rw [← hreg]; simp [State.reg]
    rw [hx, ← show s.inputs = rest from hin]
    rfl
  | succ k ih =>
    rw [loadwFrom_succ, List.cons_append] at hin
    have hj : j < s.params.nw := by omega
    have hreg := wroteWord_reg r j (wordOf v j) (loadwFrom r v (j + 1) k ++ rest) s
    calc Host.Core.run core (k + 1) s
        = Host.Core.run core k (s.wroteWord r j (wordOf v j) (loadwFrom r v (j + 1) k ++ rest)) :=
          run_succ_of_step k (step_window_write hin hi hr hl hj)
      _ = _ := ih rfl hi hr hl (show j + 1 + k = s.params.nw by omega)
          (hreg.trans_lt (replaceWord_lt _ hs hj)) hv
          ((congrArg (· % _) hreg).trans (replaceWord_wordOf_mod hlow))
      _ = _ := by simp [State.wroteWord, List.replicate_succ']

/-- Settles O35, by induction on the words still to be written. -/
theorem loadwLoadsTheOperand : Obligations.LoadwLoadsTheOperand := by
  intro s r v rest hinv hi hr hv
  rw [loadw_eq_loadwFrom]
  exact run_loadwFrom s.params.nw (s := { s with inputs := _ }) rfl hi hr hinv.width
    (Nat.zero_add _) (hinv.registers r) hv (by simp [Nat.mod_one])

/-! ### VERIFY -/

@[simp] theorem complete_reg (s : State) (r : Reg) : s.complete.reg r = s.reg r := rfl

/-- MODEXP on an idle engine with an odd modulus and its base below it (rule R160). -/
theorem exec_modexp_okay {s : State} (rd : Reg) {ra rb rn : Reg} (hi : s.phase = .idle)
    (hodd : s.reg rn % 2 = 1) (hlt : s.reg ra < s.reg rn) :
    exec (.modexp rd ra rb rn) s = .next
      ((s.issue (.modexp rd ra rb rn)).setReg rd (s.reg ra ^ s.reg rb % s.reg rn)).complete := by
  simp only [exec, execModexp, snapshot_issue_idle _ hi, State.sample, modExp_eq]
  rw [if_neg (by omega), if_neg (by omega)]

/-- CMP on an idle engine (rule R253). -/
theorem exec_cmp_idle {s : State} (ra rb : Reg) (hi : s.phase = .idle) :
    exec (.cmp ra rb) s = .next
      ((s.issue (.cmp ra rb)).setCompare (s.reg ra) (s.reg rb)).complete := by
  simp only [exec, execCmp, snapshot_issue_idle _ hi, State.sample]

/-- Settles O58: CMP reads the power that MODEXP has written to `rt` and the message that it has
left in `rm`. -/
theorem verifySetsEq : Obligations.VerifySetsEq := by
  intro s rt rm rs re rn hi hodd hlt hne
  refine ⟨rfl, _, _, exec_modexp_okay rt hi hodd hlt, exec_cmp_idle rt rm rfl, ?_⟩
  simp [complete_reg, setReg_reg_ne _ _ hne, eq_comm]

end Sys2Proof.Machine

/-!
## Montgomery multiplication

The Montgomery product is the one value below an odd modulus that, times the radix, is `a · b`
(`montProd_eq_of_mul_radix`). MONTMUL, the domain identities and the datapath all speak of it.
-/

namespace Sys2Proof.Machine

/-! ### A command's word, and its end on an idle engine -/

/-- The encoder's word is the word of the command's number (rules R111, R113, R115). -/
theorem encode_eq_ofNat {i : Instr} (h : i.wellFormed = true) :
    encode i = BitVec.ofNat 32 (wordNumber i) := by
  rw [← toNat_encode h, BitVec.ofNat_toNat, BitVec.setWidth_eq]

theorem decode_ofNat_wordNumber {i : Instr} (h : i.wellFormed = true) :
    decode (BitVec.ofNat 32 (wordNumber i)) = .ok i := by
  rw [← encode_eq_ofNat h, decode_encode h]

/-- A command of an idle engine that ends in a command error (rules R272, R275). -/
theorem cmdError_issue {s : State} (i : Instr) (c : ErrCode) (h : s.phase = .idle) :
    (s.issue i).cmdError c = s.afterError (encode i) c := by
  simp only [issue_idle i h, State.acceptAs, State.cmdError, State.afterError, h]

/-- A command of an idle engine that writes `rd` and completes (rule R36). -/
theorem complete_setReg_issue {s : State} (i : Instr) (rd : Reg) (v : Nat) (h : s.phase = .idle) :
    ((s.issue i).setReg rd v).complete
      = { s.afterOk (encode i) with x := s.x.set rd.val v } := by
  simp only [issue_idle i h, State.acceptAs, State.setReg, State.complete, State.afterOk, h]

/-! ### MONTMUL -/

/-- MONTMUL on an idle engine: its two checks in order, then the Montgomery product (rule R141). -/
theorem exec_montmul_idle {s : State} (rd ra rb rn : Reg) (hi : s.phase = .idle) :
    exec (.montmul rd ra rb rn) s = .next
      (if s.reg rn % 2 = 0 then
        s.afterError (encode (.montmul rd ra rb rn)) .evenModulus
      else if s.reg rn ≤ s.reg ra ∨ s.reg rn ≤ s.reg rb then
        s.afterError (encode (.montmul rd ra rb rn)) .range
      else
        { s.afterOk (encode (.montmul rd ra rb rn)) with
          x := s.x.set rd.val (montProd s.params.width (s.reg ra) (s.reg rb) (s.reg rn)) }) := by
  simp only [exec, execMontmul, snapshot_issue_idle _ hi, State.sample, issue_params,
    cmdError_issue _ _ hi, complete_setReg_issue _ _ _ hi]
  split_ifs <;> rfl

/-- Settles O15: the value written is the Montgomery product, which times the radix is `a · b`. -/
theorem montmulRule : Obligations.MontmulRule := by
  intro s rd ra rb rn hi word a b n
  have hword : encode (.montmul rd ra rb rn) = word := encode_eq_ofNat rfl
  have hexec := exec_montmul_idle rd ra rb rn hi
  rw [hword] at hexec
  refine ⟨decode_ofNat_wordNumber (i := .montmul rd ra rb rn) rfl, fun heven => ?_,
    fun hodd hrange => ?_, fun hodd ha hb => ⟨montProd s.params.width a b n,
      montProd_lt _ _ _ (Nat.zero_lt_of_lt ha), montProd_mul_radix _ _ _ hodd, ?_⟩⟩
  · rw [hexec, if_pos heven]
  · rw [hexec, if_neg (by omega), if_pos hrange]
  · rw [hexec, if_neg (by omega), if_neg (by omega)]

/-! ### The Montgomery product -/

/-- The radix can be cancelled modulo an odd number, so what times the radix is `a · b` is the
Montgomery product (rule R140). -/
theorem montProd_eq_of_mul_radix {width a b n v : Nat} (hodd : n % 2 = 1) (hv : v < n)
    (h : v * 2 ^ width ≡ a * b [MOD n]) : montProd width a b n = v := by
  have hcoprime : Nat.Coprime n (radix width) := by
    rw [Nat.Coprime, Nat.gcd_rec, gcd_radix width hodd]
  have hmod : montProd width a b n ≡ v [MOD n] :=
    Nat.ModEq.cancel_right_of_coprime hcoprime
      (Nat.ModEq.trans (montProd_mul_radix width a b hodd) h.symm)
  exact hmod.eq_of_lt_of_lt (montProd_lt _ _ _ (Nat.zero_lt_of_lt hv)) hv

/-- Settles O56: each claimed value, times the radix, is the product of the two operands. -/
theorem montgomeryDomainIdentities : Obligations.MontgomeryDomainIdentities := by
  intro width a b n hodd _ ha hb R
  have hpos : 0 < n := Nat.zero_lt_of_lt ha
  have hred (v : Nat) : v % n ≡ v [MOD n] := Nat.mod_modEq v n
  refine ⟨montProd_eq_of_mul_radix hodd (Nat.mod_lt _ hpos) ?_,
    montProd_eq_of_mul_radix hodd (Nat.mod_lt _ hpos) ?_, montProd_eq_of_mul_radix hodd ha ?_⟩
  · calc a * R % n * R ≡ a * R * R [MOD n] := (hred _).mul_right R
      _ = a * R ^ 2 := by ring
      _ ≡ a * (R ^ 2 % n) [MOD n] := (hred _).symm.mul_left a
  · calc a * b * R % n * R ≡ a * b * R * R [MOD n] := (hred _).mul_right R
      _ = a * R * (b * R) := by ring
      _ ≡ a * R % n * (b * R % n) [MOD n] := ((hred _).mul (hred _)).symm
  · rw [Nat.mul_one]
    exact (hred (a * R)).symm

/-! ### The bit-serial datapath -/

/-- One conditional subtract reduces a value below twice the modulus (rule R143). -/
theorem condSub_eq_mod {n v : Nat} (h : v < 2 * n) : condSub n v = v % n := by
  unfold condSub
  split
  · next hle => rw [Nat.mod_eq_sub_mod hle, Nat.mod_eq_of_lt (by omega)]
  · next hlt => rw [Nat.mod_eq_of_lt (by omega)]

/-- A step halves exactly: it adds the odd modulus when the sum is odd (rule R142). -/
theorem two_mul_montBit {n : Nat} (a b i t : Nat) (hodd : n % 2 = 1) :
    ∃ k ≤ 1, 2 * montBit a b n i t = t + (a.testBit i).toNat * b + k * n := by
  have hsum : (if a.testBit i then t + b else t) = t + (a.testBit i).toNat * b := by
    cases a.testBit i <;> simp
  unfold montBit
  simp only [hsum]
  split
  · exact ⟨1, le_rfl, by omega⟩
  · exact ⟨0, Nat.zero_le 1, by omega⟩

/-- The accumulator stays below twice the modulus (rule R143). -/
theorem montBit_lt {b n t : Nat} (a i : Nat) (hodd : n % 2 = 1) (hb : b < n) (ht : t < 2 * n) :
    montBit a b n i t < 2 * n := by
  obtain ⟨k, hk, hstep⟩ := two_mul_montBit a b i t hodd
  have hbit : (a.testBit i).toNat * b ≤ 1 * b := Nat.mul_le_mul_right b (Bool.toNat_le _)
  have hadd : k * n ≤ 1 * n := Nat.mul_le_mul_right n hk
  omega

/-- A step takes one more bit of `a` into the accumulator (rule R142). -/
theorem montBit_mul_two_pow {a b n i t : Nat} (hodd : n % 2 = 1)
    (ht : t * 2 ^ i ≡ a % 2 ^ i * b [MOD n]) :
    montBit a b n i t * 2 ^ (i + 1) ≡ a % 2 ^ (i + 1) * b [MOD n] := by
  obtain ⟨k, _, hstep⟩ := two_mul_montBit a b i t hodd
  calc montBit a b n i t * 2 ^ (i + 1)
      = 2 * montBit a b n i t * 2 ^ i := by ring
    _ = t * 2 ^ i + 2 ^ i * (a.testBit i).toNat * b + n * (k * 2 ^ i) := by rw [hstep]; ring
    _ ≡ t * 2 ^ i + 2 ^ i * (a.testBit i).toNat * b [MOD n] := Nat.add_mul_mod_self_left _ _ _
    _ ≡ a % 2 ^ i * b + 2 ^ i * (a.testBit i).toNat * b [MOD n] := ht.add_right _
    _ = a % 2 ^ (i + 1) * b := by rw [Nat.mod_pow_succ, Nat.toNat_testBit, Nat.add_mul]

/-- The invariant of the datapath (rules R142, R143). -/
theorem montAccum_spec {b n : Nat} (a : Nat) (hodd : n % 2 = 1) (hb : b < n) (i : Nat) :
    montAccum a b n i < 2 * n ∧ montAccum a b n i * 2 ^ i ≡ a % 2 ^ i * b [MOD n] := by
  induction i with
  | zero => exact ⟨show 0 < 2 * n by omega, by simp [montAccum, Nat.mod_one, Nat.ModEq.refl]⟩
  | succ i ih =>
    obtain ⟨hlt, hmod⟩ := ih
    exact ⟨montBit_lt a i hodd hb hlt, montBit_mul_two_pow hodd hmod⟩

/-- Settles O52: after the last bit the invariant is the Montgomery product's, up to the final
conditional subtract. -/
theorem montgomeryDatapathIsCorrect : Obligations.MontgomeryDatapathIsCorrect := by
  intro a b n hodd _ hb
  refine ⟨montAccum_spec a hodd hb, fun width hwidth => ?_⟩
  obtain ⟨hlt, hmod⟩ := montAccum_spec a hodd hb width
  rw [Nat.mod_eq_of_lt hwidth] at hmod
  rw [montDatapath, condSub_eq_mod hlt]
  exact (montProd_eq_of_mul_radix hodd (Nat.mod_lt _ (Nat.zero_lt_of_lt hb))
    (((Nat.mod_modEq _ n).mul_right _).trans hmod)).symm

end Sys2Proof.Machine

/-!
## Modular exponentiation

MODEXP's clauses go through `exec_modexp_okay` and the two errors beside it. The datapath's loop
keeps a power of `a` in the Montgomery domain, the exponent being the bits of `b` it has read
(`expLoop_toMont`). The round trip of R163 is Fermat's little theorem modulo each of the two primes.
-/

namespace Sys2Proof.Machine

/-! ### MODEXP -/

/-- MODEXP on an idle engine with an even modulus, 0 included (rule R160). -/
theorem exec_modexp_evenModulus {s : State} (rd ra rb : Reg) {rn : Reg} (hi : s.phase = .idle)
    (heven : s.reg rn % 2 = 0) :
    exec (.modexp rd ra rb rn) s
      = .next (s.afterError (encode (.modexp rd ra rb rn)) .evenModulus) := by
  simp only [exec, execModexp, snapshot_issue_idle _ hi, State.sample, cmdError_issue _ _ hi]
  rw [if_pos heven]

/-- MODEXP on an idle engine with an odd modulus and a base not below it (rule R160). -/
theorem exec_modexp_range {s : State} (rd rb : Reg) {ra rn : Reg} (hi : s.phase = .idle)
    (hodd : s.reg rn % 2 = 1) (hle : s.reg rn ≤ s.reg ra) :
    exec (.modexp rd ra rb rn) s
      = .next (s.afterError (encode (.modexp rd ra rb rn)) .range) := by
  simp only [exec, execModexp, snapshot_issue_idle _ hi, State.sample, cmdError_issue _ _ hi]
  rw [if_neg (by omega), if_pos hle]

/-- Settles O16: the word is the encoder's, and each clause is one way MODEXP ends. -/
theorem modexpRule : Obligations.ModexpRule := by
  intro s rd ra rb rn hi word a b n
  have hword : encode (.modexp rd ra rb rn) = word := encode_eq_ofNat rfl
  rw [← hword]
  refine ⟨decode_encode rfl, exec_modexp_evenModulus rd ra rb hi, exec_modexp_range rd rb hi,
    fun hodd hlt => ?_⟩
  rw [exec_modexp_okay rd hi hodd hlt, complete_setReg_issue _ _ _ hi]

/-! ### Square-and-multiply in the Montgomery domain -/

/-- The doublings compute the power of two (rule R162). -/
theorem modDoublings_eq {n : Nat} (hn : 0 < n) (i : Nat) : modDoublings n i = 2 ^ i % n := by
  induction i with
  | zero => exact condSub_eq_mod (by omega)
  | succ i ih =>
    have hlt : 2 ^ i % n < n := Nat.mod_lt _ hn
    rw [modDoublings, ih, condSub_eq_mod (by omega), Nat.mul_mod_mod, pow_succ']

/-- The value `v` in the Montgomery domain, `v · R mod n` (rule R144). -/
def toMont (width n v : Nat) : Nat := v * 2 ^ width % n

theorem toMont_mod (width n v : Nat) : toMont width n (v % n) = toMont width n v :=
  Nat.mod_mul_mod v (2 ^ width) n

section
variable {width n : Nat} (hodd : n % 2 = 1) (hn : 1 < n)
include hodd hn

/-- Entry to the domain by the `R^2 mod n` that the doublings give (rules R144, R162). -/
theorem montProd_doublings {a : Nat} (ha : a < n) :
    montProd width a (modDoublings n (2 * width)) n = toMont width n a := by
  obtain ⟨hentry, -, -⟩ := montgomeryDomainIdentities width a a n hodd hn ha ha
  rw [modDoublings_eq (by omega), pow_mul', hentry, toMont]

/-- Products stay in the domain (rule R144). -/
theorem montProd_toMont (v w : Nat) :
    montProd width (toMont width n v) (toMont width n w) n = toMont width n (v * w) := by
  have hlt (u : Nat) : u % n < n := Nat.mod_lt u (by omega)
  obtain ⟨-, hmul, -⟩ := montgomeryDomainIdentities width _ _ n hodd hn (hlt v) (hlt w)
  calc montProd width (toMont width n v) (toMont width n w) n
      = montProd width (toMont width n (v % n)) (toMont width n (w % n)) n := by
        rw [toMont_mod, toMont_mod]
    _ = toMont width n (v % n * (w % n)) := hmul
    _ = toMont width n (v * w) := by
        rw [← toMont_mod, ← Nat.mul_mod, toMont_mod]

/-- Exit from the domain (rule R144). -/
theorem montProd_toMont_one (v : Nat) : montProd width (toMont width n v) 1 n = v % n := by
  have hlt : v % n < n := Nat.mod_lt _ (by omega)
  obtain ⟨-, -, hexit⟩ := montgomeryDomainIdentities width (v % n) (v % n) n hodd hn hlt hlt
  rw [← toMont_mod]
  exact hexit

/-- A step squares the power and multiplies by `a` if the bit is set (rule R162). -/
theorem expBit_toMont (a b i k : Nat) :
    expBit width (toMont width n a) b n i (toMont width n (a ^ k))
      = toMont width n (a ^ (2 * k + (b.testBit i).toNat)) := by
  unfold expBit
  cases b.testBit i <;> simp [montProd_toMont hodd hn, ← pow_add, ← pow_succ, two_mul]

/-- The loop's invariant: before the low `left` bits are read, the accumulator is the power of `a`
by the bits above them (rule R162). -/
theorem expLoop_toMont (a b left : Nat) :
    expLoop width (toMont width n a) b n left (toMont width n (a ^ (b / 2 ^ left)))
      = toMont width n (a ^ b) := by
  induction left with
  | zero => simp [expLoop]
  | succ left ih =>
    have hbits : 2 * (b / 2 ^ (left + 1)) + (b.testBit left).toNat = b / 2 ^ left := by
      rw [Nat.toNat_testBit, pow_succ, ← Nat.div_div_eq_div_mul]
      omega
    rw [expLoop, expBit_toMont hodd hn, hbits, ih]

end

/-- Settles O53: the loop begins with `a^0` in the domain, as no bit of `b` is above the width. -/
theorem modExpDatapathIsCorrect : Obligations.ModExpDatapathIsCorrect := by
  intro width a b n hodd ha hb
  unfold modExpDatapath
  split
  · next h1 => rw [h1, Nat.mod_one]
  · next h1 =>
    have hn : 1 < n := by omega
    have hloop := expLoop_toMont (width := width) hodd hn a b width
    rw [Nat.div_eq_of_lt hb, pow_zero] at hloop
    simp only [montProd_doublings hodd hn ha, montProd_doublings hodd hn hn, hloop,
      montProd_toMont_one hodd hn]

/-! ### The round trip -/

/-- Fermat's little theorem for every base, multiples of the prime included. -/
theorem pow_mul_sub_one_add_one_modEq {p : Nat} (hp : p.Prime) (m j : Nat) :
    m ^ (j * (p - 1) + 1) ≡ m [MOD p] := by
  by_cases hdvd : p ∣ m
  · have hzero : m ≡ 0 [MOD p] := Nat.modEq_zero_iff_dvd.mpr hdvd
    rw [pow_succ]
    exact (hzero.mul_left _).trans hzero.symm
  · have hfermat : m ^ (p - 1) ≡ 1 [MOD p] :=
      Nat.ModEq.pow_card_sub_one_eq_one hp ((hp.coprime_iff_not_dvd.mpr hdvd).symm)
    calc m ^ (j * (p - 1) + 1) = (m ^ (p - 1)) ^ j * m := by rw [pow_succ, pow_mul']
      _ ≡ 1 ^ j * m [MOD p] := (hfermat.pow j).mul_right m
      _ = m := by rw [one_pow, one_mul]

/-- The powers by `e` and by `d` undo each other modulo `p · q` (rule R163). -/
theorem pow_mod_pow_mod_primes {p q e d m : Nat} (hp : p.Prime) (hq : q.Prime) (hne : p ≠ q)
    (hed : e * d % ((p - 1) * (q - 1)) = 1) (hm : m < p * q) :
    (m ^ e % (p * q)) ^ d % (p * q) = m := by
  have hexp := Nat.div_add_mod' (e * d) ((p - 1) * (q - 1))
  rw [hed] at hexp
  have hmodp : m ^ (e * d) ≡ m [MOD p] := by
    rw [← hexp, mul_comm (p - 1), ← mul_assoc]
    exact pow_mul_sub_one_add_one_modEq hp m _
  have hmodq : m ^ (e * d) ≡ m [MOD q] := by
    rw [← hexp, ← mul_assoc]
    exact pow_mul_sub_one_add_one_modEq hq m _
  have hmod : m ^ (e * d) ≡ m [MOD p * q] :=
    (Nat.modEq_and_modEq_iff_modEq_mul ((Nat.coprime_primes hp hq).mpr hne)).mp ⟨hmodp, hmodq⟩
  rw [← Nat.pow_mod, ← pow_mul]
  exact Nat.mod_eq_of_modEq hmod hm

/-- What a MODEXP that succeeds on an idle engine shows: it completes without error, `rd` holds the
power, and no other register changes (rule R160). -/
theorem exists_exec_modexp {s : State} (rd : Reg) {ra rb rn : Reg} (hi : s.phase = .idle)
    (hodd : s.reg rn % 2 = 1) (hlt : s.reg ra < s.reg rn) :
    ∃ t, exec (.modexp rd ra rb rn) s = .next t ∧ t.phase = .idle ∧ t.done = true ∧ t.err = false ∧
      t.reg rd = s.reg ra ^ s.reg rb % s.reg rn ∧ ∀ r, r ≠ rd → t.reg r = s.reg r := by
  refine ⟨_, exec_modexp_okay rd hi hodd hlt, rfl, rfl, ?_, ?_, fun r hr => ?_⟩
  · rw [complete_setReg_issue _ _ _ hi]; rfl
  · rw [complete_reg, setReg_reg_same]
  · rw [complete_reg, setReg_reg_ne _ _ hr, issue_reg]

/-- Settles O57: the first power is below the odd modulus, and the second MODEXP finds the modulus
and the exponent `d` where they stood. -/
theorem rsaRoundTrip : Obligations.RsaRoundTrip := by
  intro s p q e d rc rt rm re rk rn hi hp hq hne hpodd hqodd hed hn he hd hm hrn hrk
  have hodd : p * q % 2 = 1 := by rw [Nat.mul_mod, hpodd, hqodd]
  obtain ⟨t, ht, hti, htdone, hterr, htc, hkept⟩ :=
    exists_exec_modexp rc (rb := re) hi (hn ▸ hodd) (hn ▸ hm)
  have htn : t.reg rn = p * q := (hkept rn hrn.symm).trans hn
  have htk : t.reg rk = d := (hkept rk hrk.symm).trans hd
  rw [hn, he] at htc
  have hlt : t.reg rc < t.reg rn := by
    rw [htc, htn]
    exact Nat.mod_lt _ (Nat.zero_lt_of_lt hm)
  obtain ⟨u, hu, -, hudone, huerr, hut, -⟩ := exists_exec_modexp rt (rb := rk) hti (htn ▸ hodd) hlt
  refine ⟨t, u, ht, hu, htdone, hterr, hudone, huerr, ?_⟩
  rw [hut, htc, htn, htk, pow_mod_pow_mod_primes hp hq hne hed hm]

end Sys2Proof.Machine

/-!
## Greatest common divisor and modular inverse

GCD's and MODINV's clauses read off how they end on an idle engine. The binary GCD keeps the first
value odd, so taking powers of two out of the second changes no gcd (`gcdLoop_eq`). The source's
formula and MODINV agree because an inverse in `[1, m)` is unique (`eq_inv_of_mul_modEq`), and the
formula's step makes an inverse modulo `m` from one modulo `a` (`inv_eq_of_recursion`).
-/

namespace Sys2Proof.Machine

/-! ### GCD -/

/-- GCD on an idle engine: it has no check (rule R180). -/
theorem exec_gcd_idle {s : State} (rd ra rb : Reg) (hi : s.phase = .idle) :
    exec (.gcd rd ra rb) s = .next
      { s.afterOk (encode (.gcd rd ra rb)) with
        x := s.x.set rd.val (Nat.gcd (s.reg ra) (s.reg rb)) } := by
  simp only [exec, execGcd, snapshot_issue_idle _ hi, State.sample, complete_setReg_issue _ _ _ hi]

/-- Settles O17: the value written is the library's gcd, which has the properties asked for. -/
theorem gcdRule : Obligations.GcdRule := by
  intro s rd ra rb hi word
  have hword : encode (.gcd rd ra rb) = word := encode_eq_ofNat rfl
  rw [← hword]
  refine ⟨decode_encode rfl, Nat.gcd (s.reg ra) (s.reg rb), Nat.gcd_dvd_left _ _,
    Nat.gcd_dvd_right _ _, fun d => Nat.dvd_gcd, fun hzero => ?_, fun hzero => ?_,
    exec_gcd_idle rd ra rb hi⟩
  · rw [hzero, Nat.gcd_zero_left]
  · rw [hzero, Nat.gcd_zero_right]

/-! ### MODINV -/

/-- MODINV on an idle engine: its two checks in order, then the inverse (rule R185). -/
theorem exec_modinv_idle {s : State} (rd ra rb : Reg) (hi : s.phase = .idle) :
    exec (.modinv rd ra rb) s = .next
      (if s.reg rb ≤ 1 then s.afterError (encode (.modinv rd ra rb)) .modulus
      else if ¬ Nat.Coprime (s.reg ra) (s.reg rb) then
        s.afterError (encode (.modinv rd ra rb)) .noInv
      else
        { s.afterOk (encode (.modinv rd ra rb)) with
          x := s.x.set rd.val (inv (s.reg ra) (s.reg rb)) }) := by
  simp only [exec, execModinv, snapshot_issue_idle _ hi, State.sample, cmdError_issue _ _ hi,
    complete_setReg_issue _ _ _ hi, ne_eq, ← Nat.coprime_iff_gcd_eq_one]
  split_ifs <;> rfl

/-- Settles O18: the value written is `inv(a, m)`, which is an inverse in `[1, m)`. -/
theorem modinvRule : Obligations.ModinvRule := by
  intro s rd ra rb hi word a m
  have hword : encode (.modinv rd ra rb) = word := encode_eq_ofNat rfl
  have hexec := exec_modinv_idle rd ra rb hi
  rw [hword] at hexec
  refine ⟨hword ▸ decode_encode rfl, fun hle => ?_, fun hm hnot => ?_,
    fun hm hcop => ⟨inv a m, inv_pos hm hcop, inv_lt a m (by omega), inv_spec hm hcop, ?_⟩⟩
  · rw [hexec, if_pos hle]
  · rw [hexec, if_neg hm.not_ge, if_pos hnot]
  · rw [hexec, if_neg hm.not_ge, if_neg (not_not.mpr hcop)]

/-! ### The binary GCD -/

/-- An odd number shares no power of two with another. -/
theorem gcd_two_pow_mul_of_odd {a : Nat} (ha : a % 2 = 1) (k b : Nat) :
    Nat.gcd a (2 ^ k * b) = Nat.gcd a b :=
  Nat.Coprime.gcd_mul_left_cancel_right b
    ((Nat.coprime_two_left.mpr (Nat.odd_iff.mpr ha)).pow_left k)

theorem gcd_div_two_pow_of_odd {a b k : Nat} (ha : a % 2 = 1) (h : 2 ^ k ∣ b) :
    Nat.gcd a (b / 2 ^ k) = Nat.gcd a b := by
  rw [← gcd_two_pow_mul_of_odd ha k, Nat.mul_div_cancel' h]

/-- An iteration keeps the first value odd and the gcd, and makes the sum smaller (rule R182). -/
theorem gcdIter_spec {a b : Nat} (ha : a % 2 = 1) (hb : 0 < b) :
    (gcdIter a b).1 % 2 = 1 ∧ (gcdIter a b).1 + (gcdIter a b).2 < a + b ∧
      Nat.gcd (gcdIter a b).1 (gcdIter a b).2 = Nat.gcd a b := by
  obtain ⟨hdvd, hodd⟩ := ctz_spec hb
  have hle : b / 2 ^ ctz b ≤ b := Nat.div_le_self _ _
  rw [← gcd_div_two_pow_of_odd ha hdvd]
  obtain hlt | hge := Nat.lt_or_ge (b / 2 ^ ctz b) a
  · simp only [gcdIter, if_pos hlt]
    exact ⟨hodd, by omega, by rw [Nat.gcd_sub_self_right hlt.le, Nat.gcd_comm]⟩
  · simp only [gcdIter, if_neg hge.not_gt]
    exact ⟨ha, by omega, Nat.gcd_sub_self_right hge⟩

/-- The loop on an odd first value returns the gcd times the common power of two (rule R182). -/
theorem gcdLoop_eq (k : Nat) {fuel a b : Nat} (ha : a % 2 = 1) (hf : a + b ≤ fuel) :
    gcdLoop k fuel a b = Nat.gcd a b * 2 ^ k := by
  induction fuel generalizing a b with
  | zero => omega
  | succ fuel ih =>
    unfold gcdLoop
    split
    · next hb => rw [hb, Nat.gcd_zero_right]
    · next hb =>
      obtain ⟨hodd, hlt, hgcd⟩ := gcdIter_spec ha (Nat.pos_of_ne_zero hb)
      rw [ih hodd (by omega), hgcd]

/-- `ctz(a | b)` is the power of two common to `a` and `b`: it divides both, and leaves one of them
odd (rule R182). -/
theorem ctz_lor_spec {a : Nat} (b : Nat) (ha : 0 < a) :
    2 ^ ctz (a ||| b) ∣ a ∧ 2 ^ ctz (a ||| b) ∣ b ∧
      (a / 2 ^ ctz (a ||| b) % 2 = 1 ∨ b / 2 ^ ctz (a ||| b) % 2 = 1) := by
  obtain ⟨hdvd, hodd⟩ := ctz_spec (v := a ||| b) (ha.trans_le Nat.left_le_or)
  rw [Nat.dvd_iff_mod_eq_zero, Nat.or_mod_two_pow, Nat.or_eq_zero_iff] at hdvd
  rw [← Nat.shiftRight_eq_div_pow, Nat.shiftRight_or_distrib, Nat.or_mod_two_eq_one,
    Nat.shiftRight_eq_div_pow, Nat.shiftRight_eq_div_pow] at hodd
  exact ⟨Nat.dvd_of_mod_eq_zero hdvd.1, Nat.dvd_of_mod_eq_zero hdvd.2, hodd⟩

/-- The odd part of a number is unique. -/
theorem eq_of_two_pow_mul_eq {u v i j : Nat} (hu : u % 2 = 1) (hv : v % 2 = 1)
    (h : 2 ^ i * u = 2 ^ j * v) : u = v := by
  have hcop {w : Nat} (hw : w % 2 = 1) (l : Nat) : Nat.Coprime w (2 ^ l) :=
    (Nat.coprime_two_right.mpr (Nat.odd_iff.mpr hw)).pow_right l
  exact Nat.dvd_antisymm ((hcop hu j).dvd_of_dvd_mul_left (h ▸ Nat.dvd_mul_left u _))
    ((hcop hv i).dvd_of_dvd_mul_left (h ▸ Nat.dvd_mul_left v _))

/-- If `u` is the odd part of `v`, then `v` may stand for it in a gcd where one of the two numbers
is odd. -/
theorem gcd_eq_of_two_pow_mul_eq {u v w i j : Nat} (hu : u % 2 = 1) (h : 2 ^ i * u = 2 ^ j * v)
    (hor : v % 2 = 1 ∨ w % 2 = 1) : Nat.gcd u w = Nat.gcd v w := by
  obtain hv | hw := hor
  · rw [eq_of_two_pow_mul_eq hu hv h]
  · rw [Nat.gcd_comm u, ← gcd_two_pow_mul_of_odd hw i, h, gcd_two_pow_mul_of_odd hw, Nat.gcd_comm]

/-- The gcd of `a` and `b` is that of the odd part of `a` and `b`, times the common power of two. -/
theorem gcd_oddPart_mul_two_pow {a : Nat} (b : Nat) (ha : 0 < a) :
    Nat.gcd (a / 2 ^ ctz a) b * 2 ^ ctz (a ||| b) = Nat.gcd a b := by
  obtain ⟨hdvd, hodd⟩ := ctz_spec ha
  obtain ⟨hdvda, hdvdb, hor⟩ := ctz_lor_spec b ha
  generalize ctz (a ||| b) = k at hdvda hdvdb hor ⊢
  have hsame : 2 ^ ctz a * (a / 2 ^ ctz a) = 2 ^ k * (a / 2 ^ k) := by
    rw [Nat.mul_div_cancel' hdvd, Nat.mul_div_cancel' hdvda]
  calc Nat.gcd (a / 2 ^ ctz a) b * 2 ^ k
      = Nat.gcd (a / 2 ^ ctz a) (b / 2 ^ k) * 2 ^ k := by rw [gcd_div_two_pow_of_odd hodd hdvdb]
    _ = Nat.gcd (a / 2 ^ k) (b / 2 ^ k) * 2 ^ k := by rw [gcd_eq_of_two_pow_mul_eq hodd hsame hor]
    _ = Nat.gcd a b := by
      rw [Nat.gcd_div hdvda hdvdb, Nat.div_mul_cancel (Nat.dvd_gcd hdvda hdvdb)]

/-- Settles O54: the loop starts from the odd part of `a`, and multiplies the common power of two
back in. -/
theorem binaryGcdIsCorrect : Obligations.BinaryGcdIsCorrect := by
  intro a b
  unfold binGcd
  split
  · next ha => rw [ha, Nat.gcd_zero_left]
  split
  · next hb => rw [hb, Nat.gcd_zero_right]
  · next ha _ =>
    have hpos : 0 < a := Nat.pos_of_ne_zero ha
    have hle : a / 2 ^ ctz a ≤ a := Nat.div_le_self _ _
    rw [gcdLoop_eq _ (ctz_spec hpos).2 (by omega), gcd_oddPart_mul_two_pow b hpos]

/-! ### The source's recursive formula -/

/-- The inverse in `[0, m)` is unique (rule R13). -/
theorem eq_inv_of_mul_modEq {a m : Nat} {x : Int} (hm : 1 < m) (hcop : Nat.Coprime a m)
    (h0 : 0 ≤ x) (hlt : x < m) (h : a * x ≡ 1 [ZMOD m]) : x = inv a m := by
  lift x to Nat using h0
  have hx : a * x ≡ 1 [MOD m] := Int.natCast_modEq_iff.mp (by exact_mod_cast h)
  have hinv : a * inv a m ≡ 1 [MOD m] := (inv_spec hm hcop).trans (Nat.mod_eq_of_lt hm).symm
  have hmod : x ≡ inv a m [MOD m] :=
    Nat.ModEq.cancel_left_of_coprime hcop.symm (hx.trans hinv.symm)
  exact_mod_cast hmod.eq_of_lt_of_lt (by exact_mod_cast hlt) (inv_lt a m (by omega))

theorem inv_one_left {m : Nat} (hm : 1 < m) : inv 1 m = 1 := by
  have h := eq_inv_of_mul_modEq (x := 1) hm (Nat.coprime_one_left m) one_pos.le
    (by exact_mod_cast hm) (by simp [Int.ModEq.refl])
  exact_mod_cast h.symm

theorem coprime_mod_left_iff (a m : Nat) : Nat.Coprime (m % a) a ↔ Nat.Coprime a m := by
  rw [Nat.Coprime, Nat.Coprime, ← Nat.gcd_rec]

/-- The formula's step: from the inverse of `m mod a` modulo `a`, by an exact division, the inverse
of `a` modulo `m` (rules R186, R187). -/
theorem inv_eq_of_recursion {a m : Nat} (ha : 1 < a) (hm : 1 < m) (hcop : Nat.Coprime a m) :
    (1 - (inv (m % a) a : Int) * m) / a + m = inv a m := by
  have hrem : Nat.gcd (m % a) a = 1 := (coprime_mod_left_iff a m).mpr hcop
  have hpos := inv_pos ha hrem
  have hlt := inv_lt (m % a) a (by omega)
  have hspec := inv_spec ha hrem
  generalize inv (m % a) a = y at hpos hlt hspec ⊢
  have hdvd : (a : Int) ∣ 1 - (y : Int) * m := by
    have hmod : y * m ≡ 1 [MOD a] := by
      rw [Nat.mod_mul_mod, mul_comm] at hspec
      exact hspec.trans (Nat.mod_eq_of_lt ha).symm
    exact_mod_cast (Int.natCast_modEq_iff.mpr hmod).dvd
  obtain ⟨q, hq⟩ := hdvd
  rw [hq, Int.mul_ediv_cancel_left _ (by omega)]
  have hval : (a : Int) * (q + m) = 1 + m * (a - y) := by linear_combination -hq
  refine eq_inv_of_mul_modEq hm hcop ?_ ?_ ?_
  · have hfac : (0 : Int) ≤ m * (a - y) := mul_nonneg (by omega) (by omega)
    exact (pos_of_mul_pos_right (show 0 < (a : Int) * (q + m) by omega) (by omega)).le
  · have hfac : (1 : Int) * m ≤ y * m := mul_le_mul_of_nonneg_right (by omega) (by omega)
    have hneg : q < 0 := neg_of_mul_neg_right (show (a : Int) * q < 0 by omega) (by omega)
    omega
  · rw [hval]
    exact Int.add_mul_emod_self_left _ _ _

/-- With enough depth the formula gives MODINV's value on MODINV's domain, and none outside it
(rule R187). -/
theorem sourceInverseWithin_eq {fuel a m : Nat} (hf : a < fuel) (hm : 1 < m) :
    sourceInverseWithin fuel a m = if Nat.Coprime a m then some (inv a m : Int) else none := by
  induction fuel generalizing a m with
  | zero => omega
  | succ fuel ih =>
    unfold sourceInverseWithin
    split
    · next h1 => rw [h1, if_pos (Nat.coprime_one_left m), inv_one_left hm, Nat.cast_one]
    split
    · next h0 => rw [h0, if_neg (by rw [Nat.coprime_zero_left]; omega)]
    · next h1 h0 =>
      have ha : 1 < a := by omega
      have hlt : m % a < a := Nat.mod_lt m (by omega)
      rw [ih (by omega) ha]
      simp only [coprime_mod_left_iff]
      by_cases hcop : Nat.Coprime a m
      · simp only [if_pos hcop, inv_eq_of_recursion ha hm hcop]
      · simp only [if_neg hcop]

/-- Settles O55: the depth that the formula is given is enough. -/
theorem sourceFormulaAgreesWithModinv : Obligations.SourceFormulaAgreesWithModinv := by
  intro a m hm _
  have hvalue : sourceInverse a m = if Nat.Coprime a m then some (inv a m : Int) else none :=
    sourceInverseWithin_eq (Nat.lt_succ_self a) hm
  exact ⟨fun hcop => hvalue.trans (if_pos hcop), fun hnot => hvalue.trans (if_neg hnot)⟩

end Sys2Proof.Machine

/-!
## Miller–Rabin rounds and MRROUND

`RoundSays` states what each verdict of a round says of the powers `w^(d·2^j) mod p`. The verdict of
the unit's round says what it should (`roundVerdict_says`), and no two verdicts say so of the same
powers (`RoundSays.unique`), which gives the other direction of each equivalence. For a prime the
verdict is PASS, because there 1 has no square roots but `1` and `p - 1`.
-/

namespace Sys2Proof.Machine

/-! ### The decomposition of the candidate -/

/-- Settles O21: the powers of two come out of `p - 1`, and `p - 1` is even and not 0. -/
theorem decompositionOfCandidate : Obligations.DecompositionOfCandidate := by
  intro p hp hodd
  obtain ⟨heq, hd⟩ := decompose_spec (p := p) (by omega)
  exact ⟨heq, hd, decomposeS_pos (by omega) hodd, by omega⟩

/-- The decomposition of a candidate is unique (rule R212). -/
theorem decompose_unique {p d s : Nat} (hp : 1 < p) (h : p - 1 = d * 2 ^ s) (hd : d % 2 = 1) :
    decomposeD p = d ∧ decomposeS p = s := by
  obtain ⟨heq, hodd⟩ := decompose_spec hp
  have hprod : 2 ^ decomposeS p * decomposeD p = 2 ^ s * d := by
    rw [mul_comm, ← heq, h, mul_comm]
  have hD : decomposeD p = d := eq_of_two_pow_mul_eq hodd hd hprod
  rw [hD] at hprod
  exact ⟨hD, Nat.pow_right_injective le_rfl (Nat.eq_of_mul_eq_mul_right (by omega) hprod)⟩

/-! ### The powers of a round -/

/-- The `j`-th power of a round, `w^(d·2^j) mod p` (rule R213). -/
def roundPower (p w d j : Nat) : Nat := w ^ (d * 2 ^ j) % p

theorem roundPower_zero (p w d : Nat) : roundPower p w d 0 = w ^ d % p := by
  rw [roundPower, pow_zero, mul_one]

/-- Each power is the square of the one before (rule R213). -/
theorem roundPower_succ (p w d j : Nat) :
    roundPower p w d (j + 1) = roundPower p w d j * roundPower p w d j % p := by
  rw [roundPower, roundPower, ← Nat.mul_mod, ← pow_add]
  congr 2
  ring

/-- Once a power is 1, all later ones are (rule R213). -/
theorem roundPower_eq_one {p w d i j : Nat} (hp : 1 < p) (hij : i ≤ j)
    (h : roundPower p w d i = 1) : roundPower p w d j = 1 := by
  induction j, hij using Nat.le_induction with
  | base => exact h
  | succ j _ ih => rw [roundPower_succ, ih, mul_one, Nat.mod_eq_of_lt hp]

/-! ### What a verdict says -/

/-- What each verdict of a round says of the powers of the witness (rule R213). -/
def RoundSays (p w d s : Nat) : Verdict → Prop
  | .compositeGcd => 1 < Nat.gcd p w
  | .pass => Nat.gcd p w = 1 ∧
      (w ^ d % p = 1 ∨ ∃ j < s, roundPower p w d j = p - 1)
  | .compositeWitness => Nat.gcd p w = 1 ∧ w ^ d % p ≠ 1 ∧
      (∀ j < s, roundPower p w d j ≠ p - 1) ∧ ∃ j < s, roundPower p w d j = 1
  | .inconclusive => Nat.gcd p w = 1 ∧
      ∀ j < s, roundPower p w d j ≠ 1 ∧ roundPower p w d j ≠ p - 1
  | .rejected => False

/-- The verdict decided by the powers: the gcd first, then whether the round passes, then whether a
power is 1 (rule R213). -/
def verdictByPowers (p w d s : Nat) : Verdict :=
  if 1 < Nat.gcd p w then .compositeGcd
  else if w ^ d % p = 1 ∨ ∃ j < s, roundPower p w d j = p - 1 then .pass
  else if ∃ j < s, roundPower p w d j = 1 then .compositeWitness
  else .inconclusive

/-- What a verdict says decides it (rule R213). -/
theorem RoundSays.eq_verdictByPowers {p w d s : Nat} {v : Verdict} (hs : 0 < s)
    (h : RoundSays p w d s v) : v = verdictByPowers p w d s := by
  unfold verdictByPowers
  cases v with
  | compositeGcd => exact (if_pos h).symm
  | pass =>
    obtain ⟨hgcd, hpass⟩ := h
    rw [if_neg (by omega), if_pos hpass]
  | compositeWitness =>
    obtain ⟨hgcd, hfirst, hlast, hone⟩ := h
    have hfails : ¬ (w ^ d % p = 1 ∨ ∃ j < s, roundPower p w d j = p - 1) :=
      not_or.mpr ⟨hfirst, fun ⟨j, hj, hj'⟩ => hlast j hj hj'⟩
    rw [if_neg (by omega), if_neg hfails, if_pos hone]
  | inconclusive =>
    obtain ⟨hgcd, hneither⟩ := h
    have hfails : ¬ (w ^ d % p = 1 ∨ ∃ j < s, roundPower p w d j = p - 1) :=
      not_or.mpr ⟨roundPower_zero p w d ▸ (hneither 0 hs).1,
        fun ⟨j, hj, hj'⟩ => (hneither j hj).2 hj'⟩
    rw [if_neg (by omega), if_neg hfails, if_neg fun ⟨j, hj, hj'⟩ => (hneither j hj).1 hj']
  | rejected => exact h.elim

/-- No two verdicts say so of the same powers (rule R213). -/
theorem RoundSays.unique {p w d s : Nat} {u v : Verdict} (hs : 0 < s)
    (hu : RoundSays p w d s u) (hv : RoundSays p w d s v) : u = v :=
  (hu.eq_verdictByPowers hs).trans (hv.eq_verdictByPowers hs).symm

/-- The squarings still to do find the verdict, once no power up to the current one is 1 or `p - 1`
(rule R213). -/
theorem squareLoop_says {p w d s left i : Nat} (hp : 3 < p) (hgcd : Nat.gcd p w = 1)
    (hs : i + left + 1 = s)
    (hbefore : ∀ j ≤ i, roundPower p w d j ≠ 1 ∧ roundPower p w d j ≠ p - 1) :
    RoundSays p w d s (squareLoop p left (roundPower p w d i)) := by
  induction left generalizing i with
  | zero => exact ⟨hgcd, fun j hj => hbefore j (by omega)⟩
  | succ left ih =>
    simp only [squareLoop, squareOnce, ← roundPower_succ]
    by_cases hpass : roundPower p w d (i + 1) = p - 1
    · rw [if_pos hpass]
      exact ⟨hgcd, .inr ⟨i + 1, by omega, hpass⟩⟩
    rw [if_neg hpass]
    by_cases hone : roundPower p w d (i + 1) = 1
    · rw [if_pos hone]
      refine ⟨hgcd, ?_, fun j _ => ?_, i + 1, by omega, hone⟩
      · rw [← roundPower_zero]; exact (hbefore 0 (Nat.zero_le i)).1
      · by_cases hj : j ≤ i
        · exact (hbefore j hj).2
        · rw [roundPower_eq_one (by omega) (by omega : i + 1 ≤ j) hone]; omega
    · rw [if_neg hone]
      refine ih (by omega) fun j hj => ?_
      obtain hlt | rfl : j ≤ i ∨ j = i + 1 := by omega
      · exact hbefore j hlt
      · exact ⟨hone, hpass⟩

/-- The verdict of a round says of the powers what it should (rule R213). -/
theorem roundVerdict_says {p w d s : Nat} (hp : 3 < p) (hs : 0 < s) (h : p - 1 = d * 2 ^ s)
    (hd : d % 2 = 1) : RoundSays p w d s (roundVerdict p w) := by
  obtain ⟨hD, hS⟩ := decompose_unique (by omega) h hd
  have hzero := roundPower_zero p w d
  simp only [roundVerdict, hD, hS, modExp_eq, ← hzero]
  by_cases hgcd : 1 < Nat.gcd p w
  · rw [if_pos hgcd]; exact hgcd
  have hcop : Nat.gcd p w = 1 := by
    have := Nat.gcd_pos_of_pos_left w (show 0 < p by omega)
    omega
  rw [if_neg hgcd]
  by_cases hpass : roundPower p w d 0 = 1 ∨ roundPower p w d 0 = p - 1
  · rw [if_pos hpass]
    exact ⟨hcop, hpass.imp hzero.symm.trans fun hlast => ⟨0, hs, hlast⟩⟩
  · rw [if_neg hpass]
    refine squareLoop_says hp hcop (by omega) fun j hj => ?_
    obtain rfl : j = 0 := by omega
    exact not_or.mp hpass

/-- The exponent of an odd candidate's decomposition is positive, as `p - 1` is even. -/
theorem pos_of_decomposition {p d s : Nat} (hodd : p % 2 = 1) (h : p - 1 = d * 2 ^ s)
    (hd : d % 2 = 1) : 0 < s := by
  by_contra hs
  rw [Nat.eq_zero_of_not_pos hs, pow_zero, mul_one] at h
  omega

/-- Settles O20: the verdict says of the powers what it should, and only one verdict can. -/
theorem roundByPowers : Obligations.RoundByPowers := by
  intro p w d s hp hodd _ _ h hd
  have hs := pos_of_decomposition hodd h hd
  have hsays := roundVerdict_says (w := w) hp hs h hd
  have hiff (v : Verdict) : roundVerdict p w = v ↔ RoundSays p w d s v :=
    ⟨fun hv => hv ▸ hsays, hsays.unique hs⟩
  exact ⟨hiff .compositeGcd, hiff .pass, hiff .compositeWitness, hiff .inconclusive⟩

/-! ### Primes -/

/-- Modulo a prime, 1 has no square roots but `1` and `p - 1` (rule R220 (a)). -/
theorem eq_one_or_eq_sub_one_of_sq {p y : Nat} (hp : p.Prime) (hy : y < p) (h : y * y % p = 1) :
    y = 1 ∨ y = p - 1 := by
  have hfactors : y * y - 1 = (y + 1) * (y - 1) := by
    simpa using Nat.mul_self_sub_mul_self_eq y 1
  have hpos : y ≠ 0 := by rintro rfl; simp at h
  have hdvd : p ∣ (y + 1) * (y - 1) := by
    rw [← hfactors]
    exact (Nat.modEq_iff_dvd' (Nat.mul_pos (by omega) (by omega))).mp
      ((Nat.mod_eq_of_lt hp.one_lt).trans h.symm)
  obtain hplus | hminus := hp.dvd_mul.mp hdvd
  · have := Nat.le_of_dvd (by omega) hplus
    omega
  · have := Nat.eq_zero_of_dvd_of_lt hminus (by omega)
    omega

/-- Going back from a power that is 1 modulo a prime, the first power is 1 or some power is `p - 1`
(rule R220 (a)). -/
theorem roundPower_of_prime {p w d n : Nat} (hp : p.Prime) (h : roundPower p w d n = 1) :
    roundPower p w d 0 = 1 ∨ ∃ j < n, roundPower p w d j = p - 1 := by
  induction n with
  | zero => exact .inl h
  | succ n ih =>
    rw [roundPower_succ] at h
    obtain hone | hlast := eq_one_or_eq_sub_one_of_sq hp (Nat.mod_lt _ hp.pos) h
    · exact (ih hone).imp id fun ⟨j, hj, hlast⟩ => ⟨j, by omega, hlast⟩
    · exact .inr ⟨n, by omega, hlast⟩

/-- A prime above 3 is no rejected candidate (rule R211). -/
theorem odd_of_prime {p : Nat} (hp : p.Prime) (h3 : 3 < p) : p % 2 = 1 :=
  hp.eq_two_or_odd.resolve_left (by omega)

/-- A prime above 3 passes the round of every legal witness (rule R220 (a)): by Fermat the last
square is 1. -/
theorem roundVerdict_of_prime {p w : Nat} (hp : p.Prime) (h3 : 3 < p) (hw : 2 ≤ w)
    (hle : w ≤ p - 1) : roundVerdict p w = .pass := by
  obtain ⟨h, hd, hs, -⟩ := decompositionOfCandidate p h3 (odd_of_prime hp h3)
  have hcop : Nat.Coprime p w := Nat.coprime_of_lt_prime (by omega) (by omega) hp
  have hfermat : roundPower p w (decomposeD p) (decomposeS p) = 1 := by
    rw [roundPower, ← h, Nat.ModEq.pow_card_sub_one_eq_one hp hcop.symm,
      Nat.mod_eq_of_lt hp.one_lt]
  have hpass := roundPower_of_prime hp hfermat
  rw [roundPower_zero] at hpass
  exact (roundVerdict_says h3 hs h hd).unique hs (v := .pass) ⟨hcop, hpass⟩

/-! ### MRROUND -/

/-- MRROUND on an idle engine: the pre-check, the range of the witness, then the verdict (rule
R214). -/
theorem exec_mrround_idle {s : State} (ra rb : Reg) (hi : s.phase = .idle) :
    exec (.mrround ra rb) s = .next
      (if preReject (s.reg ra) then
        { s.afterOk (encode (.mrround ra rb)) with result := false, mrv := .rejected }
      else if s.reg rb < 2 ∨ s.reg ra - 1 < s.reg rb then
        s.afterError (encode (.mrround ra rb)) .range
      else
        { s.afterOk (encode (.mrround ra rb)) with
          result := decide (roundVerdict (s.reg ra) (s.reg rb) = .pass)
          mrv := roundVerdict (s.reg ra) (s.reg rb) }) := by
  have hverdict (v : Verdict) : ((s.issue (.mrround ra rb)).setVerdict v).complete
      = { s.afterOk (encode (.mrround ra rb)) with result := decide (v = .pass), mrv := v } := by
    simp only [issue_idle _ hi, State.acceptAs, State.setVerdict, State.complete, State.afterOk, hi]
  simp only [exec, execMrround, snapshot_issue_idle _ hi, State.sample, cmdError_issue _ _ hi,
    hverdict]
  split_ifs <;> rfl

/-- A candidate at most 3 or even is rejected (rule R211). -/
theorem preReject_eq_true {p : Nat} : preReject p = true ↔ p ≤ 3 ∨ p % 2 = 0 := by
  simp [preReject]

/-- Settles O19: the word is the encoder's, and each clause is one way MRROUND ends. -/
theorem mrroundRule : Obligations.MrroundRule := by
  intro s ra rb hi word p w
  have hword : encode (.mrround ra rb) = word := encode_eq_ofNat rfl
  have hexec := exec_mrround_idle ra rb hi
  rw [hword] at hexec
  have hkept : 3 < p → p % 2 = 1 → ¬ preReject p = true := fun hp hodd => by
    rw [preReject_eq_false.mpr ⟨hp, hodd⟩]; decide
  refine ⟨hword ▸ decode_encode rfl, fun hrej => ?_, fun hp hodd hrange => ?_,
    fun hp hodd hge hle => ?_⟩
  · rw [hexec, if_pos (preReject_eq_true.mpr hrej)]
  · rw [hexec, if_neg (hkept hp hodd), if_pos hrange]
  · rw [hexec, if_neg (hkept hp hodd), if_neg (by omega)]

/-- Settles O26: the last clause of MRROUND's rule, where a prime's verdict is PASS. -/
theorem mrroundPassesPrimes : Obligations.MrroundPassesPrimes := by
  intro s ra rb hi hp h3 hge hle
  obtain ⟨-, -, -, hround⟩ := mrroundRule s ra rb hi
  have hpass := roundVerdict_of_prime hp h3 hge hle
  refine ⟨_, hround h3 (odd_of_prime hp h3) hge hle, ?_, hpass, rfl, rfl⟩
  exact decide_eq_true hpass

end Sys2Proof.Machine

/-!
## The witness draw

A pass of `DrawWitness` adds its words up as the digits of a number in base `2^32`
(`drawWitness_pass`); the statements about draws are read off one pass from its start.
-/

namespace Sys2Proof.Machine

/-- The kept bits are the significant bits of `p - 3` (rule R216). -/
theorem drawBits_eq {p L : Nat} (hlo : 2 ^ (L - 1) ≤ p - 3) (hhi : p - 3 < 2 ^ L) :
    drawBits p = L := by
  have hL : L ≠ 0 := by
    rintro rfl
    exact absurd (hlo.trans_lt hhi) (by decide)
  have hpos : p - 3 ≠ 0 := by have := Nat.two_pow_pos (L - 1); omega
  have hlog : Nat.log2 (p - 3) = L - 1 :=
    (Nat.log2_eq_iff hpos).mpr ⟨hlo, by rwa [Nat.sub_add_cancel (by omega)]⟩
  rw [drawBits, bitLen, if_neg hpos, hlog, Nat.sub_add_cancel (by omega)]

/-- The number the words of a pass make, first word least significant (rule R216). -/
def passSum (words : List Word) : Nat := Nat.ofDigits (2 ^ 32) (words.map BitVec.toNat)

theorem passSum_cons (word : Word) (words : List Word) :
    passSum (word :: words) = word.toNat + 2 ^ 32 * passSum words :=
  Nat.ofDigits_cons

/-- The end of a pass from a draw in progress: the kept bits of the sum are accepted, or the next
pass begins on the words after (rule R216). -/
theorem drawWitness_pass {p : Nat} (words rest : List Word) {t j : Nat} (hne : words ≠ [])
    (hj : j + words.length = drawWords p) :
    drawWitness p t j (words ++ rest)
      = if (t + passSum words * 2 ^ (32 * j)) % 2 ^ drawBits p ≤ p - 3 then
          some ((t + passSum words * 2 ^ (32 * j)) % 2 ^ drawBits p + 2, rest)
        else drawWitness p 0 0 rest := by
  induction words generalizing t j with
  | nil => exact absurd rfl hne
  | cons word words ih =>
    rw [List.cons_append, drawWitness, drawWord, passSum_cons]
    rw [List.length_cons] at hj
    cases words with
    | nil =>
      rw [List.length_nil] at hj
      rw [if_neg (by omega)]
      simp only [passSum, List.map_nil, Nat.ofDigits_nil, mul_zero, add_zero, List.nil_append]
      split_ifs <;> rfl
    | cons next words =>
      rw [if_pos (by rw [List.length_cons] at hj; omega)]
      have hsum : t + (word.toNat + 2 ^ 32 * passSum (next :: words)) * 2 ^ (32 * j)
          = t + word.toNat * 2 ^ (32 * j) + passSum (next :: words) * 2 ^ (32 * (j + 1)) := by
        ring
      rw [hsum]
      exact ih (List.cons_ne_nil _ _) (by omega)

/-- A pass from the start (rule R216). -/
theorem drawWitness_batch {p : Nat} (batch rest : List Word) (hp : 3 < p)
    (hlen : batch.length = drawWords p) :
    drawWitness p 0 0 (batch ++ rest)
      = if passSum batch % 2 ^ drawBits p ≤ p - 3 then
          some (passSum batch % 2 ^ drawBits p + 2, rest)
        else drawWitness p 0 0 rest := by
  have hpos : 0 < drawWords p := by
    have : drawBits p ≠ 0 := by rw [drawBits, bitLen, if_neg (by omega)]; omega
    unfold drawWords
    omega
  have hne : batch ≠ [] := List.ne_nil_of_length_pos (hlen ▸ hpos)
  simpa using drawWitness_pass batch rest (t := 0) hne ((Nat.zero_add _).trans hlen)

/-- Settles O24: one pass from the start of the draw. -/
theorem drawWitnessByRejection : Obligations.DrawWitnessByRejection := by
  intro p L batch rest hp _ hlo hhi hlen t
  have hbits : drawBits p = L := drawBits_eq hlo hhi
  have hpass := drawWitness_batch batch rest hp (by rw [hlen, drawWords, hbits])
  rw [hbits] at hpass
  exact ⟨fun hle => hpass.trans (if_pos hle), fun hlt => hpass.trans (if_neg hlt.not_ge)⟩

/-- A draw returns a value in `[2, p - 1]` (rule R216). -/
theorem drawWord_witness_bounds {p t j w : Nat} {word : Word} (hp : 3 < p)
    (h : drawWord p t j word = .witness w) : 2 ≤ w ∧ w ≤ p - 1 := by
  refine ⟨?_, drawWord_witness_le hp h⟩
  simp only [drawWord] at h
  split_ifs at h
  cases h
  omega

/-- Whatever the words, a draw that returns gives a legal witness (rule R216). -/
theorem drawWitness_bounds {p t j w : Nat} {words rest : List Word} (hp : 3 < p)
    (h : drawWitness p t j words = some (w, rest)) : 2 ≤ w ∧ w ≤ p - 1 := by
  induction words generalizing t j with
  | nil => cases h
  | cons word words ih =>
    rw [drawWitness] at h
    cases hw : drawWord p t j word with
    | more t' j' => rw [hw] at h; exact ih h
    | witness w' =>
      rw [hw] at h
      cases h
      exact drawWord_witness_bounds hp hw

/-- Every number of `k` words is the sum of some `k` words. -/
theorem exists_passSum {k t : Nat} (ht : t < (2 ^ 32) ^ k) :
    ∃ words : List Word, words.length = k ∧ passSum words = t := by
  induction k generalizing t with
  | zero => exact ⟨[], rfl, (Nat.lt_one_iff.mp ht).symm⟩
  | succ k ih =>
    obtain ⟨words, hlen, hsum⟩ := ih (Nat.div_lt_of_lt_mul (pow_succ' (2 ^ 32) k ▸ ht))
    refine ⟨BitVec.ofNat 32 t :: words, by rw [List.length_cons, hlen], ?_⟩
    rw [passSum_cons, hsum, BitVec.toNat_ofNat, Nat.mod_add_div]

/-- Settles O25: a draw stays in the range, and a witness is drawn by the words of `w - 2`. -/
theorem drawsCoverExactlyTheWitnesses : Obligations.DrawsCoverExactlyTheWitnesses := by
  intro p hp _
  refine ⟨fun words w rest => drawWitness_bounds hp, fun w hge hle => ?_⟩
  have hlt : w - 2 < 2 ^ drawBits p :=
    lt_of_le_of_lt (by omega) (lt_two_pow_bitLen (p - 3))
  have hwords : w - 2 < (2 ^ 32) ^ drawWords p := by
    rw [← pow_mul]
    exact hlt.trans_le (Nat.pow_le_pow_right two_pos (by unfold drawWords; omega))
  obtain ⟨words, hlen, hsum⟩ := exists_passSum hwords
  refine ⟨words, ?_⟩
  have hpass := drawWitness_batch words [] hp hlen
  rw [List.append_nil, hsum, Nat.mod_eq_of_lt hlt, if_pos (by omega)] at hpass
  rw [hpass, Nat.sub_add_cancel hge]

end Sys2Proof.Machine

/-!
## MRTEST and the frames of the Miller–Rabin commands

The run of the unit is the loop of rule R215 (`testOver_drawsFrom`), and it takes exactly the words of
its rounds' draws (`runTest_takes_draws`). For a prime every drawn witness passes, so the loop can be
followed to its end under each policy.
-/

namespace Sys2Proof.Machine

/-! ### The words a test takes -/

/-- The words presented begin with exactly the words of `n` draws, the first of them in progress, and
`rest` is what follows (rules R216, R222). -/
def TakesDraws (p t j n : Nat) (ws rest : List Word) : Prop :=
  ∃ used, ws = used ++ rest ∧ (drawsFrom p t j used).length = n ∧
    (drawsFrom p t j used.dropLast).length < n

section
variable {p t j : Nat} {word : Word}

theorem drawsFrom_cons_more {t' j' : Nat} (words : List Word)
    (h : drawWord p t j word = .more t' j') :
    drawsFrom p t j (word :: words) = drawsFrom p t' j' words := by
  rw [drawsFrom, h]

theorem drawsFrom_cons_witness {w : Nat} (words : List Word)
    (h : drawWord p t j word = .witness w) :
    drawsFrom p t j (word :: words) = w :: drawsFrom p 0 0 words := by
  rw [drawsFrom, h]

/-- A draw that returns ends the words taken. -/
theorem TakesDraws.last {w : Nat} (rest : List Word) (h : drawWord p t j word = .witness w) :
    TakesDraws p t j 1 (word :: rest) rest :=
  ⟨[word], rfl, by rw [drawsFrom_cons_witness [] h]; rfl, Nat.zero_lt_one⟩

/-- A word that leaves the draw in progress (`extra = 0`), or ends it with more draws to come
(`extra = 1`), comes before the words taken after it (rule R216). -/
theorem TakesDraws.cons {t' j' n extra : Nat} {ws rest : List Word}
    (h : ∀ words,
      (drawsFrom p t j (word :: words)).length = (drawsFrom p t' j' words).length + extra)
    (hws : TakesDraws p t' j' n ws rest) : TakesDraws p t j (n + extra) (word :: ws) rest := by
  obtain ⟨used, rfl, hall, hbut⟩ := hws
  have hne : used ≠ [] := by
    rintro rfl
    exact absurd hbut (by rw [List.dropLast_nil, hall]; exact lt_irrefl n)
  refine ⟨word :: used, rfl, by rw [h, hall], ?_⟩
  rw [List.dropLast_cons_of_ne_nil hne, h]
  omega

end

/-- The rest of a test once a witness is drawn: the round ends it with the words untouched, or the
next draw begins (rules R215, R222). -/
theorem runTest_beginRound {p : Nat} (policy : Policy) (rounds w : Nat) (ws : List Word) {m : Mru}
    (hd : m.d = decomposeD p) (hs : m.s = decomposeS p) :
    (∃ v, runTest p policy rounds (beginRound p policy rounds w m) ws
      = ({ m with w := w, k := m.k + 1, stage := .finished v }, ws)) ∨
    runTest p policy rounds (beginRound p policy rounds w m) ws
      = runTest p policy rounds { m with w := w, k := m.k + 1, stage := .draw 0 0 } ws := by
  rw [← runTest_finishRound, finishRound_beginRound policy rounds w hd hs]
  obtain ⟨v, h⟩ | ⟨-, h⟩ :=
    afterRound_cases policy rounds (roundVerdict p w) { m with w := w, k := m.k + 1 }
  · rw [h]; exact .inl ⟨v, runTest_finished ws rfl⟩
  · rw [h]; exact .inr rfl

/-- A test that comes to its verdict has taken the words of one draw for each round it ran, and none
after the last of them (rule R222). -/
theorem runTest_takes_draws {p : Nat} (policy : Policy) (rounds : Nat) (ws : List Word) {m : Mru}
    {t j : Nat} {v : Verdict} (hm : m.stage = .draw t j) (hd : m.d = decomposeD p)
    (hs : m.s = decomposeS p) (hv : (runTest p policy rounds m ws).1.stage = .finished v) :
    ∃ n, (runTest p policy rounds m ws).1.k = m.k + n ∧
      TakesDraws p t j n ws (runTest p policy rounds m ws).2 := by
  have hself := finishRound_of_draw p policy rounds hm
  induction ws generalizing m t j with
  | nil =>
    rw [runTest, hself, hm] at hv
    cases hv
  | cons word ws ih =>
    rw [runTest_cons_draw word ws (by rw [hself, hm]), hself] at hv ⊢
    unfold takeWord at hv ⊢
    cases hw : drawWord p t j word with
    | more t' j' =>
      rw [hw] at hv
      obtain ⟨n, hk, htakes⟩ := ih (m := { m with stage := .draw t' j' }) rfl hd hs hv rfl
      exact ⟨n, hk, htakes.cons (extra := 0) fun words => by rw [drawsFrom_cons_more words hw]; rfl⟩
    | witness w =>
      rw [hw] at hv
      simp only at hv ⊢
      obtain ⟨v', h⟩ | h := runTest_beginRound policy rounds w ws hd hs
      · rw [h]
        exact ⟨1, rfl, .last ws hw⟩
      · rw [h] at hv ⊢
        obtain ⟨n, hk, htakes⟩ :=
          ih (m := { m with w := w, k := m.k + 1, stage := .draw 0 0 }) rfl hd hs hv rfl
        refine ⟨n + 1, hk.trans (by ring), htakes.cons fun words => ?_⟩
        rw [drawsFrom_cons_witness words hw]; rfl

/-- A test that the words presented bring to its verdict, run from its start: what it reports is what
rule R215 says of their draws, and it takes exactly the words of the draws it reports. -/
theorem runTest_ends {p rounds k w : Nat} {policy : Policy} {ws : List Word} {v : Verdict}
    (h : testOver p rounds policy 0 (drawsFrom p 0 0 ws) = some (v, k, w)) :
    ∃ m rest, runTest p policy rounds (mruStart p) ws = (m, rest) ∧ m.stage = .finished v ∧
      m.k = k ∧ m.w = w ∧ TakesDraws p 0 0 k ws rest := by
  have hreport : (runTest p policy rounds (mruStart p) ws).1.report = some (v, k, w) :=
    (testOver_drawsFrom (m := mruStart p) policy rounds ws rfl rfl rfl).symm.trans h
  rcases hs : (runTest p policy rounds (mruStart p) ws).1.stage with ⟨t, j⟩ | ⟨y, left⟩ | ⟨v'⟩
  · rw [Mru.report_draw hs] at hreport
    cases hreport
  · exact absurd hs (runTest_not_square _ _ _ _ _ _ _)
  · rw [Mru.report_finished hs] at hreport
    cases hreport
    obtain ⟨n, hk, htakes⟩ := runTest_takes_draws policy rounds ws rfl rfl rfl hs
    rw [show (mruStart p).k + n = n from Nat.zero_add n] at hk
    exact ⟨_, _, rfl, hs, rfl, rfl, hk ▸ htakes⟩

/-! ### MRTEST -/

/-- MRTEST of a rejected candidate on an idle engine (rules R211, R215). -/
theorem exec_mrtest_rejected {s : State} (rd ra : Reg) (hi : s.phase = .idle)
    (hpre : preReject (s.reg ra) = true) :
    exec (.mrtest rd ra) s = .next
      { s.afterOk (encode (.mrtest rd ra)) with
        x := s.x.set rd.val 0, result := false, mrv := .rejected, mrDone := 0 } := by
  simp only [exec, execMrtest, issue_idle _ hi, snapshot_acceptAs, State.sample, hpre, if_true]
  simp only [State.acceptAs, State.completeTest, State.setVerdict, State.setReg, State.complete,
    State.afterOk, hi]
  rfl

/-- MRTEST on an idle engine when its run comes to a verdict (rules R215, R219). -/
theorem exec_mrtest_finished {s : State} {m : Mru} {rest : List Word} {v : Verdict} (rd ra : Reg)
    (hi : s.phase = .idle) (hpre : preReject (s.reg ra) = false) (hm : m.stage = .finished v)
    (hrun : runTest (s.reg ra) s.mrPolicy s.mrRounds.toNat (mruStart (s.reg ra)) s.rng = (m, rest)) :
    exec (.mrtest rd ra) s = .next
      { s.afterOk (encode (.mrtest rd ra)) with
        x := s.x.set rd.val m.w, result := decide (v = .pass), mrv := v, mrDone := m.k,
        rng := rest } := by
  have hunit := mruUnit_acceptAs_mrtest (encode (.mrtest rd ra)) rd ra hpre
  rw [← hunit] at hrun
  simp only [exec, execMrtest, issue_idle _ hi, snapshot_acceptAs, acceptAs_rng, State.sample, hpre,
    Bool.false_eq_true, if_false, hrun, hm]
  rw [withUnit_busy _ _ (acceptAs_phase ..)]
  simp only [State.acceptAs, State.completeTest, State.setVerdict, State.setReg, State.complete,
    State.afterOk, hi]

/-- Settles O22: the run from the unit's start reports the loop's end and takes its draws' words. -/
theorem mrtestRule : Obligations.MrtestRule := by
  intro s rd ra hi word p
  have hword : encode (.mrtest rd ra) = word := encode_eq_ofNat rfl
  rw [← hword]
  refine ⟨decode_encode rfl, fun hrej => ?_, fun hp hodd v k w hend => ?_⟩
  · exact exec_mrtest_rejected rd ra hi (preReject_eq_true.mpr hrej)
  · obtain ⟨m, rest, hrun, hm, rfl, rfl, used, hws, hall, hbut⟩ := runTest_ends hend
    exact ⟨used, rest, hws, hall, hbut,
      exec_mrtest_finished rd ra hi (preReject_eq_false.mpr ⟨hp, hodd⟩) hm hrun⟩

/-! ### MRTEST of a prime -/

/-- Every draw is a legal witness (rule R216). -/
theorem mem_drawsFrom_bounds {p t j w : Nat} {words : List Word} (hp : 3 < p)
    (h : w ∈ drawsFrom p t j words) : 2 ≤ w ∧ w ≤ p - 1 := by
  induction words generalizing t j with
  | nil => cases h
  | cons word words ih =>
    cases hw : drawWord p t j word with
    | more t' j' =>
      rw [drawsFrom_cons_more words hw] at h
      exact ih h
    | witness w' =>
      rw [drawsFrom_cons_witness words hw] at h
      obtain rfl | h := List.mem_cons.mp h
      · exact drawWord_witness_bounds hp hw
      · exact ih h

/-- Under CLASSIC, draws that all pass end the test with PASS after `rounds + 1` of them
(rule R217). -/
theorem testOver_classic_of_pass {p rounds k : Nat} {draws : List Nat}
    (hpass : ∀ w ∈ draws, roundVerdict p w = .pass) (hk : k ≤ rounds)
    (hlen : rounds + 1 ≤ k + draws.length) :
    ∃ w, testOver p rounds .classic k draws = some (.pass, rounds + 1, w) := by
  induction draws generalizing k with
  | nil => rw [List.length_nil] at hlen; omega
  | cons w draws ih =>
    obtain ⟨hw, hdraws⟩ := List.forall_mem_cons.mp hpass
    simp only [testOver, hw, reduceCtorEq, or_self, and_false, false_and, if_false, if_true]
    by_cases hlt : k + 1 < rounds + 1
    · rw [if_pos hlt]
      exact ih hdraws (by omega) (by rw [List.length_cons] at hlen; omega)
    · rw [if_neg hlt, show k = rounds by omega]
      exact ⟨w, rfl⟩

/-- Under EARLY_EXIT, a first draw that passes ends the test with PASS (rule R218). -/
theorem testOver_earlyExit_of_pass {p w : Nat} (rounds k : Nat) (draws : List Nat)
    (hpass : roundVerdict p w = .pass) :
    testOver p rounds .earlyExit k (w :: draws) = some (.pass, k + 1, w) := by
  simp only [testOver, hpass, reduceCtorEq, or_self, and_self, if_false, if_true]

/-- Settles O27: each draw of a prime passes, so the loop of rule R215 ends with PASS. -/
theorem mrtestAcceptsPrimes : Obligations.MrtestAcceptsPrimes := by
  intro s rd ra hi hp h3
  obtain ⟨-, -, hends⟩ := mrtestRule s rd ra hi
  have hpass : ∀ w ∈ drawsFrom (s.reg ra) 0 0 s.rng, roundVerdict (s.reg ra) w = .pass := by
    intro w hw
    obtain ⟨hge, hle⟩ := mem_drawsFrom_bounds h3 hw
    exact roundVerdict_of_prime hp h3 hge hle
  have hanswers {k w : Nat} (hend : testOver (s.reg ra) s.mrRounds.toNat s.mrPolicy 0
      (drawsFrom (s.reg ra) 0 0 s.rng) = some (.pass, k, w)) :
      ∃ t, exec (.mrtest rd ra) s = .next t ∧ t.phase = .idle ∧ t.result = true ∧
        t.mrv = .pass ∧ t.mrDone = k := by
    obtain ⟨used, rest, -, -, -, hexec⟩ := hends h3 (odd_of_prime hp h3) _ _ _ hend
    exact ⟨_, hexec, hi, rfl, rfl, rfl⟩
  refine ⟨fun hpolicy hlen => ?_, fun hpolicy hlen => ?_⟩
  · obtain ⟨w, hw⟩ := testOver_classic_of_pass hpass (Nat.zero_le s.mrRounds.toNat)
      (by rwa [Nat.zero_add])
    exact hanswers (hpolicy ▸ hw)
  · obtain ⟨w, draws, hdraws⟩ := List.exists_cons_of_length_pos hlen
    rw [hdraws] at hpass
    refine hanswers (w := w) ?_
    rw [hdraws, hpolicy]
    exact testOver_earlyExit_of_pass _ 0 draws (hpass w List.mem_cons_self)

/-! ### Frames -/

/-- The entropy words a command takes come from the front of those presented (rule R222). -/
theorem EndsAs.rng_suffix {i : Instr} {s t : State} (h : EndsAs i s t) :
    ∃ used, s.rng = used ++ t.rng := by
  obtain ⟨r, hbusy⟩ := issue_busy_phase i s
  cases h with
  | tested rd ra v hi hp hv =>
    rw [← issue_rng i s]
    obtain ⟨used, hused⟩ := runTest_suffix (s.issue i).snapshot.a (s.issue i).snapshot.policy
      (s.issue i).snapshot.rounds.toNat (s.issue i).mruUnit (s.issue i).rng
    refine ⟨used, hused.trans (congrArg _ ?_)⟩
    exact (withUnit_rng_busy _ _ hbusy).symm
  | waiting rd ra t j hi hp hs =>
    refine ⟨s.rng, ?_⟩
    rw [withUnit_rng_busy _ _ hbusy, List.append_nil]
  | _ => exact ⟨[], by simp [State.completeTest]⟩

/-- Settles O30, from what each way to end leaves unchanged. -/
theorem millerRabinFrame : Obligations.MillerRabinFrame := by
  refine ⟨fun ra rb s t h => ?_, fun rd ra s t h => ?_⟩
  · have he := exec_ends h
    obtain ⟨hirq, hpol, hrounds, hparams, hrst, hin, hans, hcmd⟩ := he.keeps
    obtain ⟨heq, hlt⟩ := he.compare_flags (by simp)
    obtain ⟨hdone, hrng⟩ := he.test_count (by simp)
    exact ⟨he.x_eq rfl, hdone, hrng, heq, hlt, hirq, hpol, hrounds, hparams, hrst, hin, hans,
      hcmd.trans (issue_cmd _ s)⟩
  · have he := exec_ends h
    obtain ⟨hirq, hpol, hrounds, hparams, hrst, hin, hans, hcmd⟩ := he.keeps
    obtain ⟨heq, hlt⟩ := he.compare_flags (by simp)
    have hreg : ∀ r, r ≠ rd → t.reg r = s.reg r := fun r hr =>
      he.reg_eq fun hd => hr (Option.some.inj hd).symm
    exact ⟨hreg, he.rng_suffix, heq, hlt, hirq, hpol, hrounds, hparams, hrst, hin, hans,
      hcmd.trans (issue_cmd _ s)⟩

end Sys2Proof.Machine

/-!
## NOP, MOV, LDI and CMP

The four commands have no check: on an idle engine each completes at once, with its one result
written beside the completion bits and CMD.
-/

namespace Sys2Proof.Machine

/-! ### NOP -/

/-- A command of an idle engine that has no result completes (rule R36). -/
theorem complete_issue {s : State} (i : Instr) (h : s.phase = .idle) :
    (s.issue i).complete = s.afterOk (encode i) := by
  simp only [issue_idle i h, State.acceptAs, State.complete, State.afterOk, h]

/-- An engine after a completion raises its interrupt exactly if it is enabled (rule R278). -/
theorem irq_afterOk (word : Word) (s : State) : (s.afterOk word).irq = s.irqEn :=
  Bool.and_true _

/-- STATUS after an idle engine's command without error, when the flags and MRV are 0: DONE alone
(rule R35). -/
theorem statusWord_afterOk {s : State} (word : Word) (hi : s.phase = .idle)
    (hresult : s.result = false) (heq : s.eq = false) (hlt : s.lt = false)
    (hmrv : s.mrv = .compositeWitness) : (s.afterOk word).statusWord = 0x00000002#32 := by
  simp only [State.statusWord, State.busy, State.afterOk, hi, hresult, heq, hlt, hmrv]
  rfl

/-- Settles O11: NOP is acceptance and completion with nothing between. -/
theorem nopOnlyCompletes : Obligations.NopOnlyCompletes := by
  intro s hi
  exact ⟨congrArg _ (complete_issue .nop hi), decode_encode (i := .nop) rfl, by decide,
    by rw [irq_afterOk], statusWord_afterOk _ hi⟩

/-! ### MOV -/

/-- MOV on an idle engine: the value written is the one sampled at acceptance (rule R251). -/
theorem exec_mov_idle {s : State} (rd ra : Reg) (hi : s.phase = .idle) :
    exec (.mov rd ra) s = .next
      { s.afterOk (encode (.mov rd ra)) with x := s.x.set rd.val (s.reg ra) } := by
  simp only [exec, execMov, snapshot_issue_idle _ hi, State.sample, complete_setReg_issue _ _ _ hi]

/-- Settles O12, by how MOV ends on an idle engine. -/
theorem movCopiesRegister : Obligations.MovCopiesRegister := by
  intro s rd ra hi word
  have hword : encode (.mov rd ra) = word := encode_eq_ofNat rfl
  rw [← hword]
  exact ⟨decode_encode rfl, exec_mov_idle rd ra hi⟩

/-! ### LDI -/

/-- LDI on an idle engine (rule R252). -/
theorem exec_ldi_idle {s : State} (rd : Reg) (imm : Nat) (hi : s.phase = .idle) :
    exec (.ldi rd imm) s = .next
      { s.afterOk (encode (.ldi rd imm)) with x := s.x.set rd.val imm } := by
  simp only [exec, execLdi, immediate, complete_setReg_issue _ _ _ hi]

/-- LDI's row fixes the opcode only: its two fields are all the other bits (rules R113, R115). -/
theorem decode_of_opcode_ldi {v : Word} (h : v.toNat % 256 = 0x02) :
    decode v = .ok (.ldi (rdField v) (immField v)) :=
  decode_of_spells (op := .ldi) ((spells_iff .ldi v).mpr ⟨h, Nat.div_eq_of_lt v.isLt⟩)

/-- LDI's immediate is all that stands above bit 10 (rule R113). -/
theorem immField_eq (v : Word) : immField v = v.toNat / 2 ^ 11 :=
  Nat.mod_eq_of_lt (Nat.div_lt_of_lt_mul v.isLt)

/-- Settles O13: every word with LDI's opcode spells its row, and LDI has no check. -/
theorem ldiLoadsImmediate : Obligations.LdiLoadsImmediate := by
  refine ⟨fun v hopc => ?_, ?_⟩
  · exact ⟨rdField v, immField v, decode_of_opcode_ldi hopc, rfl, immField_eq v⟩
  · intro s rd imm hi himm word
    have hwf : (Instr.ldi rd imm).wellFormed = true := decide_eq_true himm
    have hword : encode (.ldi rd imm) = word := encode_eq_ofNat hwf
    rw [← hword]
    exact ⟨decode_encode hwf, exec_ldi_idle rd imm hi⟩

/-! ### CMP -/

/-- A command of an idle engine that sets the comparison flags and completes (rule R36). -/
theorem complete_setCompare_issue {s : State} (i : Instr) (a b : Nat) (h : s.phase = .idle) :
    ((s.issue i).setCompare a b).complete
      = { s.afterOk (encode i) with eq := decide (a = b), lt := decide (a < b) } := by
  simp only [issue_idle i h, State.acceptAs, State.setCompare, State.complete, State.afterOk, h]

/-- Settles O14, by how CMP ends on an idle engine. -/
theorem cmpSetsEqAndLt : Obligations.CmpSetsEqAndLt := by
  intro s ra rb hi word
  have hword : encode (.cmp ra rb) = word := encode_eq_ofNat rfl
  rw [← hword, exec_cmp_idle ra rb hi, complete_setCompare_issue _ _ _ hi]
  exact ⟨decode_encode rfl, rfl⟩

end Sys2Proof.Machine

/-!
## Command errors, completion, bus errors and the interrupt

A command ends in an error with a code, or leaves ERR as acceptance put it; and it ends completed, or
as an MRTEST that waits. What the engine does with an access does not depend on the events still to
come.
-/

namespace Sys2Proof.Machine

/-! ### Errors and completion -/

/-- A command ends in a command error with a code, or leaves ERR as it was under way (rule R275). -/
theorem EndsAs.error_cases {i : Instr} {s t : State} (h : EndsAs i s t) :
    (∃ c, c ≠ .none ∧ t = (s.issue i).cmdError c) ∨ t.err = (s.issue i).err := by
  cases h with
  | error c hc hi => exact .inl ⟨c, hc, rfl⟩
  | _ => exact .inr (by simp [State.completeTest])

/-- A command completes, or is an MRTEST that waits with every word taken (rules R292, R293). -/
theorem EndsAs.completes_or_waits {i : Instr} {s t : State} (h : EndsAs i s t) :
    (t.phase = .idle ∧ t.done = true) ∨
      (isMrtest i = true ∧ t.busy = true ∧ t.rng = []) := by
  cases h with
  | waiting rd ra t j hi hp hs =>
    obtain ⟨r, hbusy⟩ := issue_busy_phase i s
    exact .inr ⟨by rw [hi]; rfl, busy_of_busy (withUnit_phase_busy _ _ hbusy),
      withUnit_rng_busy _ _ hbusy⟩
  | _ => exact .inl ⟨rfl, rfl⟩

/-- Settles O31: acceptance clears ERR, so a command with ERR set ended in a command error. -/
theorem commandErrorsArePrecise : Obligations.CommandErrorsArePrecise := by
  refine ⟨fun i s t hidle h herr => ?_, fun s r hr hp hi => engineTurn_illegal hr hp hi⟩
  obtain ⟨c, hc, rfl⟩ | hkept := (exec_ends h).error_cases
  · exact ⟨hc, cmdError_issue i c hidle⟩
  · rw [hkept, issue_idle i hidle, acceptAs_err] at herr
    cases herr

/-- Settles O32: every command answers a next state, and only an MRTEST can wait. -/
theorem commandsButMrtestComplete : Obligations.CommandsButMrtestComplete := by
  refine ⟨fun i s hi => ?_, fun rd ra s => ?_⟩
  · obtain ⟨t, h, hends⟩ := exec_cases i s
    obtain hdone | ⟨hmrtest, -⟩ := hends.completes_or_waits
    · exact ⟨t, h, hdone⟩
    · rw [hi] at hmrtest
      cases hmrtest
  · obtain ⟨t, h, hends⟩ := exec_cases (.mrtest rd ra) s
    exact ⟨t, h, hends.completes_or_waits.imp_right And.right⟩

/-! ### Accesses and bus errors -/

/-- A write does the same whatever events are still to come (rules R85, R93). -/
theorem writePlace_withInputs (s : State) (rest : List Event) (v : Word) (p : Place) :
    ({ s with inputs := rest } : State).writePlace v p
      = { s.writePlace v p with inputs := rest } := by
  cases p with
  | window r j => rfl
  | control r =>
    cases r with
    | ctrl =>
      simp only [State.writePlace, State.writeCtrl]
      split <;> rfl
    | _ => rfl

/-- The port answers and does the same whatever events are still to come (rules R84, R85, R93). -/
theorem port_withInputs (s : State) (rest : List Event) (a : Access) :
    ({ s with inputs := rest } : State).port a
      = ((s.port a).1, { (s.port a).2 with inputs := rest }) := by
  cases a with
  | read size addr =>
    have hread : ({ s with inputs := rest } : State).busRead size addr = s.busRead size addr := rfl
    simp only [State.port, hread]
    split <;> rfl
  | write size addr v =>
    have hreach : ({ s with inputs := rest } : State).reach size addr = s.reach size addr := rfl
    have hbusy : ({ s with inputs := rest } : State).busy = s.busy := rfl
    rcases hp : s.reach size addr with e | p
    · simp only [State.port, State.busWrite, hreach, hp]
    · cases hb : s.busy && !busyWritable v p <;>
        simp [State.port, State.busWrite, hreach, hbusy, hp, hb, writePlace_withInputs]

/-- A read leaves the engine as it was, refused or not (rules R84, R91). -/
theorem port_read_state (s : State) (size : AccessSize) (addr : Addr) :
    (s.port (.read size addr)).2 = s := by
  obtain h | ⟨_, _, _, ha, _⟩ := port_cases s (.read size addr)
  · exact h
  · cases ha

/-- The step of an access that is not refused: it is performed and its answer given (rule R93). -/
theorem step_access_answered {s : State} {a : Access} (rest : List Event)
    (h : (s.port a).1 ≠ .error) :
    step { s with inputs := .access a :: rest }
      = .next { (s.port a).2 with inputs := rest, answers := (s.port a).1 :: s.answers } := by
  rw [step_cons rfl]
  exact accessTurn_okay (port_withInputs s rest a) h

/-- Settles O43: a refused access has a bus error, which the step makes a fault, and any other is
answered. -/
theorem accessesAreAnsweredOrFault : Obligations.AccessesAreAnsweredOrFault := by
  intro s a rest
  refine ⟨port_read_state s, fun h => ⟨?_, ?_, ?_⟩, fun h => ⟨_, step_access_answered rest h, rfl⟩⟩
  · rw [port_error_state h]
  · rw [h]; rfl
  · have hrest : (({ s with inputs := rest } : State).port a).1 = .error := by
      rw [port_withInputs, h]
    obtain ⟨e, he⟩ := (port_error_iff _ a).mp hrest
    exact ⟨e, step_access_refused he⟩

/-! ### The interrupt -/

/-- With DONE set the interrupt is raised exactly if it is enabled (rule R278). -/
theorem irq_of_done {s : State} (h : s.done = true) : s.irq = s.irqEn := by
  rw [State.irq, h, Bool.and_true]

theorem irq_of_not_done {s : State} (h : s.done = false) : s.irq = false := by
  rw [State.irq, h, Bool.and_false]

/-- A CTRL write that does not reset takes its two fields and nothing else (rules R38, R85). -/
theorem writeCtrl_fields {s : State} {v : Word} (h : v.getLsbD 31 = false) :
    s.writeCtrl v = { s with irqEn := v.getLsbD 0, mrPolicy := policyOfBit (v.getLsbD 1) } := by
  rw [State.writeCtrl, h]
  rfl

/-- Settles O44: a completion sets DONE and keeps `IRQ_EN`, a CTRL write does the reverse, and the
other three clear DONE. -/
theorem interruptFollowsCompletion : Obligations.InterruptFollowsCompletion := by
  refine ⟨rfl, fun s v => ⟨rfl, fun i t _ h hidle => ?_, irq_of_not_done rfl, fun hv => ?_,
    irq_of_not_done rfl, fun hdone h31 => ?_⟩⟩
  · have hends := exec_ends h
    obtain ⟨hirqEn, -⟩ := hends.keeps
    obtain ⟨-, hdone⟩ | ⟨-, hbusy, -⟩ := hends.completes_or_waits
    · rw [irq_of_done hdone, hirqEn]
    · rw [busy_of_idle hidle] at hbusy
      cases hbusy
  · refine irq_of_not_done ?_
    rw [clearStatus_done, if_pos hv]
  · rw [writeCtrl_fields h31]
    exact ⟨irq_of_done hdone, hdone⟩

end Sys2Proof.Machine

/-!
## The two resets

Both put the engine into `State.resetEngine`; a hard reset also holds it there, refusing every
access, until the edge with `rst = 0`.
-/

namespace Sys2Proof.Machine

/-! ### The soft reset -/

/-- A reset keeps only the width and the level of `rst` of the engine's own state (rules R50,
R310). -/
theorem engineOnly_resetEngine (s : State) :
    s.resetEngine.engineOnly = { State.resetFor s.params with rst := s.rst } := rfl

/-- Out of reset, busy or idle, a CTRL write with bit 31 set is let through and resets the engine,
whatever its other bits (rules R89 (d), R312). -/
theorem port_write_softReset {s : State} {v : Word} (hr : s.rst = false)
    (h31 : v.getLsbD 31 = true) :
    s.port (.write .word (controlAddr .ctrl) v) = (.writeOkay, s.resetEngine) := by
  have hreset : s.writePlace v (.control .ctrl) = s.resetEngine := if_pos h31
  rw [← hreset]
  exact port_write_control .ctrl v hr fun _ => h31

/-- Settles O46: the write resets the engine, and `rst` stays 0. -/
theorem softResetRestoresResetState : Obligations.SoftResetRestoresResetState := by
  intro s v hr h31
  have hport : s.port (.write .word 0x0008#16 v) = (.writeOkay, s.resetEngine) :=
    port_write_softReset hr h31
  rw [hport]
  refine ⟨rfl, ?_⟩
  rw [engineOnly_resetEngine, hr]
  rfl

/-! ### The hard reset -/

/-- While `rst = 1` every access is answered with error and changes nothing (rule R311). -/
theorem port_inReset {s : State} (hr : s.rst = true) (a : Access) : s.port a = (.error, s) := by
  cases a with
  | read size addr =>
    exact (port_refused (reach_inReset size addr hr) 0 _ (by simp)).1
  | write size addr v =>
    exact (port_refused (reach_inReset size addr hr) v _ (by simp)).1

/-- While `rst = 1` the engine's turn and a step of its unit pass and change nothing (rule R311). -/
theorem step_inReset {s : State} (hr : s.rst = true) (rest : List Event) :
    ∀ e ∈ [Event.engine, Event.unitStep],
      step { s with inputs := e :: rest } = .next { s with inputs := rest } := by
  intro e he
  rw [step_cons rfl]
  simp only [List.mem_cons, List.not_mem_nil, or_false] at he
  rcases he with rfl | rfl
  · exact engineTurn_inReset hr
  · exact congrArg Host.Outcome.next (if_pos hr)

/-- The step of a rising edge with `rst` at this level (rule R311). -/
theorem step_rst (level : Bool) (s : State) (rest : List Event) :
    step { s with inputs := .rst level :: rest }
      = .next (({ s with inputs := rest } : State).clockReset level) := by
  rw [step_cons rfl]
  rfl

/-- Settles O47: in the held state the port, the engine's turn and a unit step look at nothing but
`rst`, which is all that the edge with `rst = 0` changes. -/
theorem hardResetHoldsResetState : Obligations.HardResetHoldsResetState := by
  intro s rest
  have hirq : (({ s with inputs := rest } : State).clockReset true).irq = false :=
    irq_of_not_done rfl
  exact ⟨_, step_rst true s rest, rfl, hirq, rfl, port_inReset rfl, step_inReset rfl rest,
    _, step_rst false _ rest, rfl, port_read_control .id rfl⟩

end Sys2Proof.Machine
